-- ==== Sys2Proof/Word.lean ====
section
/-! DEFINITION. The word types of ADB: 32-bit words, bytes and halfwords (00_scope.md R5, R6). -/

namespace Sys2Proof

/-- A data word or an address: `W` = `AW` = 32 bits (R5). -/
abbrev Word := BitVec 32

/-- The smallest addressable unit of memory (20_memory.md R80). -/
abbrev Byte := BitVec 8

/-- A 16-bit PCM sample pattern (43_synthesis.md R260). -/
abbrev Half := BitVec 16

/-- The number of byte addresses: addresses are 0 .. 2^32 - 1 (20_memory.md R80). -/
abbrev addressSpace : Nat := 2 ^ 32

/-- `LENMAX`, the largest byte length of a bit-reader buffer (R5). -/
abbrev lenMax : Nat := 2 ^ 29 - 1

end Sys2Proof
end

