-- ==== Sys2Proof/Syntax.lean ====
section
/-! DEFINITION. The twelve commands of 30_encoding.md R123, one constructor a row, with their fields (R121, R122). -/

namespace Sys2Proof

/-- Field `C`: one of the two bit-reader contexts (10_state.md R38). -/
inductive CtxId where
  | bs0
  | bs1
  deriving DecidableEq, Repr, Inhabited

/-- Field `ORD`: 0 MSB-first, 1 LSB-first (30_encoding.md R122). -/
inductive BitOrder where
  | msb
  | lsb
  deriving DecidableEq, Repr, Inhabited

/-- Field `BT` and the window classes of 10_state.md R42: 0 normal, 1 start, 2 short, 3 stop. -/
inductive WindowClass where
  | normal
  | start
  | short
  | stop
  deriving DecidableEq, Repr, Inhabited

/-- Field `FMT`: 0 PCM16, 1 PCM32 (30_encoding.md R122). -/
inductive PcmFormat where
  | pcm16
  | pcm32
  deriving DecidableEq, Repr, Inhabited

/-- Field `CH`: channel 0 or 1 (00_scope.md R5, `NCH` = 2). -/
abbrev Channel := Fin 2

/-- The commands. Fields wider than their legal range keep the width of their bits; `Instr.wellFormed` is the range. -/
inductive Instr where
  /-- `SYS.NOP` (45_system.md R310). -/
  | sysNop
  /-- `SYS.RESET` (45_system.md R311). -/
  | sysReset
  /-- `BSR.INIT c, ord` (40_bitreader.md R161). -/
  | bsrInit (c : CtxId) (ord : BitOrder)
  /-- `BSR.PEEK c, n` (40_bitreader.md R162). -/
  | bsrPeek (c : CtxId) (n : BitVec 6)
  /-- `BSR.GET c, n` (40_bitreader.md R163). -/
  | bsrGet (c : CtxId) (n : BitVec 6)
  /-- `BSR.SKIP c, n` (40_bitreader.md R164). -/
  | bsrSkip (c : CtxId) (n : BitVec 6)
  /-- `BSR.SKIPR c` (40_bitreader.md R165). -/
  | bsrSkipr (c : CtxId)
  /-- `HUF.PAIRS c, tab, nv` (41_huffman.md R194). -/
  | hufPairs (c : CtxId) (tab : BitVec 5) (nv : BitVec 10)
  /-- `HUF.QUADS c, tab, nv` (41_huffman.md R195). -/
  | hufQuads (c : CtxId) (tab : BitVec 5) (nv : BitVec 10)
  /-- `IMDCT.RUN ch, bt, mix` (42_imdct.md R234). -/
  | imdctRun (ch : Channel) (bt : WindowClass) (mix : Bool)
  /-- `SYN.RUN st, fmt` (43_synthesis.md R262). -/
  | synRun (stereo : Bool) (fmt : PcmFormat)
  /-- `VMDCT.RUN lg` (44_vorbis_mdct.md R292). -/
  | vmdctRun (lg : BitVec 4)
  deriving DecidableEq, Repr, Inhabited

end Sys2Proof
end

