-- ==== Sys2Proof/WellFormed.lean ====
section
/-! DEFINITION. The legal field values of 30_encoding.md R122; a word whose fields break them is illegal (R124 (c)). -/

namespace Sys2Proof

/-- `N` in 0..32 (R122). -/
def legalCount (n : BitVec 6) : Bool := decide (n.toNat ≤ 32)

/-- `NV` of `HUF.PAIRS`: even, 0..576 (R122). -/
def legalPairCount (nv : BitVec 10) : Bool := decide (nv.toNat ≤ 576 ∧ nv.toNat % 2 = 0)

/-- `NV` of `HUF.QUADS`: 0..576 (R122). -/
def legalQuadRoom (nv : BitVec 10) : Bool := decide (nv.toNat ≤ 576)

/-- `TAB` of `HUF.QUADS`: 0..1 (R122). -/
def legalQuadTable (tab : BitVec 5) : Bool := decide (tab.toNat ≤ 1)

/-- `MIX` = 1 only with `BT` = 2 (R122). -/
def legalMix (bt : WindowClass) (mix : Bool) : Bool := !mix || decide (bt = .short)

/-- `LG` in 6..13 (R122). -/
def legalLog (lg : BitVec 4) : Bool := decide (6 ≤ lg.toNat ∧ lg.toNat ≤ 13)

/-- Every field of the command has a legal value (R122, R124 (c)). -/
def Instr.wellFormed : Instr → Bool
  | .sysNop => true
  | .sysReset => true
  | .bsrInit _ _ => true
  | .bsrPeek _ n => legalCount n
  | .bsrGet _ n => legalCount n
  | .bsrSkip _ n => legalCount n
  | .bsrSkipr _ => true
  | .hufPairs _ _ nv => legalPairCount nv
  | .hufQuads _ tab nv => legalQuadTable tab && legalQuadRoom nv
  | .imdctRun _ bt mix => legalMix bt mix
  | .synRun _ _ => true
  | .vmdctRun lg => legalLog lg

/-- `Instr.wellFormed` as a proposition. -/
abbrev Instr.WellFormed (i : Instr) : Prop := i.wellFormed = true

end Sys2Proof
end

