-- ==== Sys2Proof/Decode.lean ====
section
/-! DEFINITION. Decoding of command words (30_encoding.md R120 to R124, R129), total and rejecting by name; then the
encoder and the assembler text of R127. -/

namespace Sys2Proof

/-- The twelve rows of the opcode map, by name (R123). -/
inductive OpName where
  | sysNop | sysReset | bsrInit | bsrPeek | bsrGet | bsrSkip | bsrSkipr
  | hufPairs | hufQuads | imdctRun | synRun | vmdctRun
  deriving DecidableEq, Repr

/-- One row of the opcode map: a word belongs to it where `w AND mask = match` (R123). -/
structure OpRow where
  op : OpName
  fixed : Word
  mask : Word
  deriving DecidableEq, Repr

/-- The opcode map of R123. -/
def opcodeMap : List OpRow :=
  [ ⟨.sysNop,   0x00000000#32, 0xFFFFFFFF#32⟩,
    ⟨.sysReset, 0x01000000#32, 0xFFFFFFFF#32⟩,
    ⟨.bsrInit,  0x10000000#32, 0xFFFFFFFC#32⟩,
    ⟨.bsrPeek,  0x11000000#32, 0xFFFFFF80#32⟩,
    ⟨.bsrGet,   0x12000000#32, 0xFFFFFF80#32⟩,
    ⟨.bsrSkip,  0x13000000#32, 0xFFFFFF80#32⟩,
    ⟨.bsrSkipr, 0x14000000#32, 0xFFFFFFFE#32⟩,
    ⟨.hufPairs, 0x20000000#32, 0xFFFF0000#32⟩,
    ⟨.hufQuads, 0x21000000#32, 0xFFFF0000#32⟩,
    ⟨.imdctRun, 0x30000000#32, 0xFFFFFFF0#32⟩,
    ⟨.synRun,   0x40000000#32, 0xFFFFFFFC#32⟩,
    ⟨.vmdctRun, 0x50000000#32, 0xFFFFFFF0#32⟩ ]

/-- `w AND mask = match` (R123). -/
def OpRow.selects (r : OpRow) (w : Word) : Bool := decide (w &&& r.mask = r.fixed)

/-- Bits 31:24, the opcode `OPC` (R120). -/
def opcField (w : Word) : BitVec 8 := w.extractLsb' 24 8

/-- Some row of the map has this `OPC`. -/
def opcAssigned (opc : BitVec 8) : Bool := opcodeMap.any fun r => decide (opcField r.fixed = opc)

/-- Field `C = w[0]` (R122). -/
def fieldC (w : Word) : CtxId := if w.getLsbD 0 then .bs1 else .bs0

/-- Field `ORD = w[1]` (R122). -/
def fieldOrd (w : Word) : BitOrder := if w.getLsbD 1 then .lsb else .msb

/-- Field `N = w[6:1]` (R122). -/
def fieldN (w : Word) : BitVec 6 := w.extractLsb' 1 6

/-- Field `TAB = w[5:1]` (R122). -/
def fieldTab (w : Word) : BitVec 5 := w.extractLsb' 1 5

/-- Field `NV = w[15:6]` (R122). -/
def fieldNv (w : Word) : BitVec 10 := w.extractLsb' 6 10

/-- Field `CH = w[0]` (R122). -/
def fieldCh (w : Word) : Channel := if w.getLsbD 0 then 1 else 0

/-- Field `BT = w[2:1]`: 0 normal, 1 start, 2 short, 3 stop (R122). -/
def fieldBt (w : Word) : WindowClass :=
  match w.getLsbD 2, w.getLsbD 1 with
  | false, false => .normal
  | false, true => .start
  | true, false => .short
  | true, true => .stop

/-- Field `MIX = w[3]` (R122). -/
def fieldMix (w : Word) : Bool := w.getLsbD 3

/-- Field `ST = w[0]` (R122). -/
def fieldSt (w : Word) : Bool := w.getLsbD 0

/-- Field `FMT = w[1]` (R122). -/
def fieldFmt (w : Word) : PcmFormat := if w.getLsbD 1 then .pcm32 else .pcm16

/-- Field `LG = w[3:0]` (R122). -/
def fieldLg (w : Word) : BitVec 4 := w.extractLsb' 0 4

/-- The fields of a row's format read from the word (R121, R122). -/
def OpName.instr (op : OpName) (w : Word) : Instr :=
  match op with
  | .sysNop => .sysNop
  | .sysReset => .sysReset
  | .bsrInit => .bsrInit (fieldC w) (fieldOrd w)
  | .bsrPeek => .bsrPeek (fieldC w) (fieldN w)
  | .bsrGet => .bsrGet (fieldC w) (fieldN w)
  | .bsrSkip => .bsrSkip (fieldC w) (fieldN w)
  | .bsrSkipr => .bsrSkipr (fieldC w)
  | .hufPairs => .hufPairs (fieldC w) (fieldTab w) (fieldNv w)
  | .hufQuads => .hufQuads (fieldC w) (fieldTab w) (fieldNv w)
  | .imdctRun => .imdctRun (fieldCh w) (fieldBt w) (fieldMix w)
  | .synRun => .synRun (fieldSt w) (fieldFmt w)
  | .vmdctRun => .vmdctRun (fieldLg w)

/-- Why a word is illegal (R124). -/
inductive Illegal where
  /-- R124 (a): `OPC` is none of the twelve. -/
  | unassignedOpcode (opc : BitVec 8)
  /-- R124 (b): a reserved bit of the format is 1. -/
  | reservedBit (opc : BitVec 8)
  /-- R124 (c): a field of this command is outside its legal values. -/
  | fieldOutOfRange (i : Instr)
  deriving DecidableEq, Repr

/-- The row of the opcode map that a word belongs to, if any (R123). -/
def opRow (w : Word) : Option OpRow := opcodeMap.find? fun r => r.selects w

/-- Decoding (R129): total, every 32-bit word is one of the twelve commands with legal fields or illegal by name. -/
def decode (w : Word) : Except Illegal Instr :=
  match opRow w with
  | some r =>
    if (r.op.instr w).wellFormed then .ok (r.op.instr w) else .error (.fieldOutOfRange (r.op.instr w))
  | none =>
    if opcAssigned (opcField w) then .error (.reservedBit (opcField w)) else .error (.unassignedOpcode (opcField w))

/-- The word whose `nbits` low bits are those of `w`, every higher bit 0: a command is the data of one 32-bit host write (R120). -/
def tableWord (nbits w : Nat) : Word := BitVec.ofNat 32 (w % 2 ^ nbits)

/-- What `decode` reads from a word given in the opcode table's numbering of bits. -/
def decodeTableWord (nbits w : Nat) : Option Instr :=
  match decode (tableWord nbits w) with
  | .ok i => some i
  | .error _ => none

/-! ## Encoding (R127) -/

/-- A bit as a word. -/
def bitWord (b : Bool) : Word := if b then 1#32 else 0#32

/-- `c` as a number (R127). -/
def CtxId.word : CtxId → Word
  | .bs0 => 0#32
  | .bs1 => 1#32

/-- `MSB` = 0, `LSB` = 1 (R127). -/
def BitOrder.word : BitOrder → Word
  | .msb => 0#32
  | .lsb => 1#32

/-- `NORMAL` = 0, `START` = 1, `SHORT` = 2, `STOP` = 3 (R127). -/
def WindowClass.word : WindowClass → Word
  | .normal => 0#32
  | .start => 1#32
  | .short => 2#32
  | .stop => 3#32

/-- `PCM16` = 0, `PCM32` = 1 (R127). -/
def PcmFormat.word : PcmFormat → Word
  | .pcm16 => 0#32
  | .pcm32 => 1#32

/-- The word of a command, by the sums of R127. -/
def encode : Instr → Word
  | .sysNop => 0x00000000#32
  | .sysReset => 0x01000000#32
  | .bsrInit c ord => 0x10000000#32 + c.word + 2#32 * ord.word
  | .bsrPeek c n => 0x11000000#32 + c.word + 2#32 * n.setWidth 32
  | .bsrGet c n => 0x12000000#32 + c.word + 2#32 * n.setWidth 32
  | .bsrSkip c n => 0x13000000#32 + c.word + 2#32 * n.setWidth 32
  | .bsrSkipr c => 0x14000000#32 + c.word
  | .hufPairs c tab nv => 0x20000000#32 + c.word + 2#32 * tab.setWidth 32 + 64#32 * nv.setWidth 32
  | .hufQuads c tab nv => 0x21000000#32 + c.word + 2#32 * tab.setWidth 32 + 64#32 * nv.setWidth 32
  | .imdctRun ch bt mix => 0x30000000#32 + BitVec.ofNat 32 ch.val + 2#32 * bt.word + 8#32 * bitWord mix
  | .synRun st fmt => 0x40000000#32 + bitWord st + 2#32 * fmt.word
  | .vmdctRun lg => 0x50000000#32 + lg.setWidth 32

/-! ## Assembler text (R127) -/

/-- Names of `ORD` in the assembler. -/
def BitOrder.asm : BitOrder → String
  | .msb => "MSB"
  | .lsb => "LSB"

/-- Names of `BT` in the assembler. -/
def WindowClass.asm : WindowClass → String
  | .normal => "NORMAL"
  | .start => "START"
  | .short => "SHORT"
  | .stop => "STOP"

/-- Names of `FMT` in the assembler. -/
def PcmFormat.asm : PcmFormat → String
  | .pcm16 => "PCM16"
  | .pcm32 => "PCM32"

/-- Names of `ST` in the assembler. -/
def stereoAsm (st : Bool) : String := if st then "STEREO" else "MONO"

/-- A command as R127 writes it: `MNEMONIC operand, operand`. -/
def Instr.asm : Instr → String
  | .sysNop => "SYS.NOP"
  | .sysReset => "SYS.RESET"
  | .bsrInit c ord => "BSR.INIT " ++ toString c.word.toNat ++ ", " ++ ord.asm
  | .bsrPeek c n => "BSR.PEEK " ++ toString c.word.toNat ++ ", " ++ toString n.toNat
  | .bsrGet c n => "BSR.GET " ++ toString c.word.toNat ++ ", " ++ toString n.toNat
  | .bsrSkip c n => "BSR.SKIP " ++ toString c.word.toNat ++ ", " ++ toString n.toNat
  | .bsrSkipr c => "BSR.SKIPR " ++ toString c.word.toNat
  | .hufPairs c tab nv =>
    "HUF.PAIRS " ++ toString c.word.toNat ++ ", " ++ toString tab.toNat ++ ", " ++ toString nv.toNat
  | .hufQuads c tab nv =>
    "HUF.QUADS " ++ toString c.word.toNat ++ ", " ++ toString tab.toNat ++ ", " ++ toString nv.toNat
  | .imdctRun ch bt mix =>
    "IMDCT.RUN " ++ toString ch.val ++ ", " ++ bt.asm ++ ", " ++ toString (bitWord mix).toNat
  | .synRun st fmt => "SYN.RUN " ++ stereoAsm st ++ ", " ++ fmt.asm
  | .vmdctRun lg => "VMDCT.RUN " ++ toString lg.toNat

end Sys2Proof
end

