-- ==== Sys2Proof/Config.lean ====
section
/-! DEFINITION. The configuration of ADB (00_scope.md R5): every model argument of R5 is a field of `Config`, which State carries and
no step changes, so that a claim about every state quantifies over all of them (log entries 2 to 5). A predicate or a function on
finitely many arguments is given as plain data, by the list of its values; Laws/Kernels.lean shows that this leaves none out. Then
the free values, constants with no body: what is proved holds for every value of them (log entries 6 to 10). -/

namespace Sys2Proof

/-! ## The Huffman tables (41_huffman.md R190) -/

/-- An entry `(s, x, y)` of a pair table: codeword in stream order, magnitudes in 0..15. -/
structure PairEntry where
  bits : List Bool
  x : Fin 16
  y : Fin 16
  deriving DecidableEq, Repr

/-- An entry `(s, v, w, x, y)` of a quad table, each magnitude 0 or 1 ("quad, binary"). -/
structure QuadEntry where
  bits : List Bool
  v : Bool
  w : Bool
  x : Bool
  y : Bool
  deriving DecidableEq, Repr

/-- No string of the list equals or is a prefix of another one. -/
def prefixFree : List (List Bool) → Bool
  | [] => true
  | c :: cs => cs.all (fun d => !c.isPrefixOf d && !d.isPrefixOf c) && prefixFree cs

/-- Well-formedness of a code (R190): non-empty, strings of length 1 .. 32, a prefix code.
DEDUCED: that the length bound holds for quad tables too (log entry 5). -/
def codeWellFormed (codes : List (List Bool)) : Bool :=
  !codes.isEmpty && codes.all (fun c => decide (1 ≤ c.length ∧ c.length ≤ 32)) && prefixFree codes

/-- `Code(cw, linbits)` of a pair table, with the well-formedness R190 requires of every `Code` (93 U6).
The default values only show that the type has a member. -/
structure PairCode where
  entries : List PairEntry := [⟨[true], 0, 0⟩]
  linbits : Fin 14 := 0
  wf : codeWellFormed (entries.map PairEntry.bits) = true := by decide
  deriving DecidableEq, Repr, Inhabited

/-- `Code(cw)` of a quad table, well-formed as R190 requires. The default values only show that the type has a member. -/
structure QuadCode where
  entries : List QuadEntry := [⟨[true], false, false, false, false⟩]
  wf : codeWellFormed (entries.map QuadEntry.bits) = true := by decide
  deriving DecidableEq, Repr, Inhabited

/-- `HUFF_ROM.pair[t]` (R190). -/
inductive PairTable where
  /-- index `t` has no table -/
  | absent
  /-- the table with no codewords: every value is 0 and no bit is consumed -/
  | zero
  | code (c : PairCode)
  deriving DecidableEq, Repr, Inhabited

/-! ## The accessible memory (20_memory.md R85) -/

/-- The kinds of access `Accessible` distinguishes (R85). -/
inductive AccessKind where
  | read
  | write
  deriving DecidableEq, Repr, Inhabited

/-- A stretch of memory the platform opens: every range inside it may be accessed in these ways, unless it is excepted. -/
structure Window where
  base : Word
  size : Nat
  readable : Bool
  writable : Bool
  deriving DecidableEq, Repr, Inhabited

/-- An access to one range: `Accessible` is a predicate on these. -/
structure Access where
  base : Nat
  len : Nat
  kind : AccessKind
  deriving DecidableEq, Repr, Inhabited

/-! ## The numeric kernels (42_imdct.md R231, 43_synthesis.md R261, 44_vorbis_mdct.md R291) -/

/-- The all-zero array. -/
abbrev zeros (n : Nat) : Vector Word n := Vector.replicate n 0#32

/-- The coefficients or samples of one subband. -/
abbrev Block := Vector Word 18

/-- The nine retained samples of one subband (10_state.md R41). -/
abbrev Overlap := Vector Word 9

/-- One slot of the synthesis history ring (10_state.md R43). -/
abbrev Slot := Vector Word 64

/-- The accumulators of `POLY_K`, integers in -2^63 .. 2^63 - 1, as their 64-bit patterns (43_synthesis.md R261). -/
abbrev Accumulators := Vector (BitVec 64) 32

/-- The six kernels, each by the list of its arguments and values (log entry 4). -/
structure Kernels where
  /-- `ALIAS_K(lo, hi)` -/
  butterfly : List ((Block × Block) × (Block × Block))
  /-- `IMDCT_LONG_K(x, ovl, wc, wp)` -/
  long : List ((Block × Overlap × WindowClass × WindowClass) × (Block × Overlap))
  /-- `IMDCT_SHORT_K(x, ovl, wp)` -/
  short : List ((Block × Overlap × WindowClass) × (Block × Overlap))
  /-- `DCT32_K(s)` -/
  dct32 : List (Vector Word 32 × Slot)
  /-- `POLY_K(h)` -/
  poly : List (Vector Slot 8 × Accumulators)
  /-- `VMDCT_K(LG, x)`, the words of `x` and of its value as lists -/
  vmdct : List ((Nat × List Word) × List Word)
  deriving DecidableEq, Repr, Inhabited

/-! ## The configuration -/

/-- The model arguments of 00_scope.md R5. -/
structure Config where
  /-- `REGBASE` (20_memory.md R87) -/
  regBase : Word
  /-- where `Accessible` may hold (20_memory.md R85; log entry 3) -/
  windows : List Window
  /-- the accesses inside a window for which `Accessible` does not hold (20_memory.md R85; log entry 3) -/
  denied : List Access
  /-- `HUFF_ROM.pair`, 32 entries (41_huffman.md R190) -/
  huffPair : Vector PairTable 32
  /-- `HUFF_ROM.quad`, 2 entries (41_huffman.md R190) -/
  huffQuad : Vector QuadCode 2
  /-- the kernels (42_imdct.md R231, 43_synthesis.md R261, 44_vorbis_mdct.md R291) -/
  kernels : Kernels
  /-- `SYN_FRACBITS - 1`, so that `SYN_FRACBITS` is in 1..62 (43_synthesis.md R261) -/
  synFracPred : Fin 62
  deriving DecidableEq, Repr, Inhabited

/-- `SYN_FRACBITS`, in 1..62 (43_synthesis.md R261). -/
def Config.synFracBits (cfg : Config) : Nat := cfg.synFracPred.val + 1

/-- The configuration of the platform at reset: any configuration at all (log entry 2). -/
opaque Config.platform : Config

/-! ## Free values -/

/-- What a byte of memory that nothing has written reads as, by address (70_reset_and_hazards.md R371; log entry 6). -/
opaque Config.unwrittenByte : Nat → Byte

/-- A stream bit that R375 leaves unspecified, by draw and stream bit index (93 U3; log entry 9). -/
opaque Config.freeBit : Nat → Nat → Bool

/-- A word that R237 or R265 leaves unspecified, by draw and index within the draw (93 U1, U2; log entries 7, 8). -/
opaque Config.freeWord : Nat → Nat → Word

/-- A PCM sample that R265 leaves unspecified, by draw and index within the draw (93 U2; log entry 8). -/
opaque Config.freeSample : Nat → Nat → Half

end Sys2Proof
end

