-- ==== Sys2Proof/Machine/State.lean ====
section
/-! DEFINITION. The state of ADB (10_state.md R30), memory, the host's pending actions, the reasons a step stops, and reset
(10_state.md R47). -/

namespace Sys2Proof.Machine

/-! ## Memory -/

/-- The bytes that have been written, as address and value; strictly rising addresses. A byte that is not listed has never
been written: `Memory.lookup` answers `none` for it, so no entry equals what an unlisted address reads as (log entry 6). -/
abbrev Memory := List Host.Cell

/-- The canonical form: addresses strictly rising. -/
abbrev Memory.wf (m : Memory) : Prop := (m.map Prod.fst).Pairwise (· < ·)

/-- For each changed byte of a context's buffer, by address, a mask of the bits whose value has changed since the context's
`BSR.INIT`; such a bit is unspecified for the context's commands (70_reset_and_hazards.md R375; log entry 9). -/
abbrev StaleMap := List Host.Cell

/-- The canonical form: addresses strictly rising, no empty mask. -/
abbrev StaleMap.wf (m : StaleMap) : Prop :=
  (m.map Prod.fst).Pairwise (· < ·) ∧ ∀ p ∈ m, p.2 ≠ 0#8

/-! ## Registers -/

/-- A bit-reader context `BSc` (10_state.md R38). -/
structure BitCtx where
  /-- 0 until the first `BSR.INIT` on the context -/
  valid : Bool
  /-- bit order -/
  ord : BitOrder
  /-- byte address of the origin -/
  base : Word
  /-- buffer length in bytes -/
  len : Word
  /-- current bit position, from the first bit of the byte at `base` -/
  pos : Word
  deriving DecidableEq, Repr

/-- The return codes of 60_exceptions.md R331. -/
inductive ReturnCode where
  /-- `NONE` -/
  | none
  /-- `ERR_HUFF_OVERRUN` -/
  | errHuffOverrun
  /-- `ERR_HUFF_CODE` -/
  | errHuffCode
  /-- `ERR_HUFF_TABLE` -/
  | errHuffTable
  /-- `NEED_MORE_DATA` -/
  | needMoreData
  /-- `ERR_OPERAND` -/
  | errOperand
  /-- `ERR_ILLEGAL_CMD` -/
  | errIllegalCmd
  /-- `ERR_BUS` -/
  | errBus
  deriving DecidableEq, Repr

/-! ## The host -/

/-- The width of a host access. -/
inductive Width where
  | byte
  | half
  | word
  deriving DecidableEq, Repr

/-- One action of the host (70_reset_and_hazards.md R383, 30_encoding.md R128): a register access at an offset from
`REGBASE`, an access to memory between commands, or the platform's hardware reset. -/
inductive HostAction where
  /-- write of a register; at offset 0, `CMD`, it executes a command (10_state.md R36) -/
  | regWrite (offset : Nat) (width : Width) (value : Word)
  /-- read of a register (45_system.md R312) -/
  | regRead (offset : Nat) (width : Width)
  /-- write of memory between commands (20_memory.md R93, R94) -/
  | memWrite (addr : Nat) (width : Width) (value : Word)
  /-- read of memory between commands (20_memory.md R93) -/
  | memRead (addr : Nat) (width : Width)
  /-- the platform's reset of the block (70_reset_and_hazards.md R370) -/
  | hardReset
  deriving DecidableEq, Repr

/-! ## The state -/

/-- The state. The fields down to `vidx` are the complete state of ADB (10_state.md R30); `mem` is the memory it shares with the
host (20_memory.md R80); the rest are the model's own (INVENTORY.md, State). -/
structure State where
  /-- `A0` (10_state.md R31) -/
  a0 : Word
  /-- `A1` -/
  a1 : Word
  /-- `A2` -/
  a2 : Word
  /-- `A3`, read by no command -/
  a3 : Word
  /-- `R0` (10_state.md R32) -/
  r0 : Word
  /-- `R1` -/
  r1 : Word
  /-- `RC` (10_state.md R34) -/
  rc : Word
  /-- `FLAGS.EOB` (10_state.md R35) -/
  eob : Bool
  /-- `FLAGS.ESTKY` (10_state.md R35) -/
  estky : Bool
  /-- `CMD`, the last command word written (10_state.md R36) -/
  cmd : Word
  /-- `BS0` (10_state.md R38) -/
  bs0 : BitCtx
  /-- `BS1` -/
  bs1 : BitCtx
  /-- `OVL[ch][sb][i]` (10_state.md R41) -/
  ovl : Vector (Vector Overlap 32) 2
  /-- `PREVWIN[ch][sb]` (10_state.md R42) -/
  prevWin : Vector (Vector WindowClass 32) 2
  /-- `VBUF[ch][slot][i]` (10_state.md R43) -/
  vbuf : Vector (Vector Slot 8) 2
  /-- `VIDX` (10_state.md R44) -/
  vidx : BitVec 3
  /-- memory (20_memory.md R80) -/
  mem : Memory
  /-- the model's: changed bits of `BS0`'s buffer (log entry 9) -/
  stale0 : StaleMap
  /-- the model's: changed bits of `BS1`'s buffer -/
  stale1 : StaleMap
  /-- the model's: the number of the current draw of free values (log entry 10) -/
  draws : Nat
  /-- the model's: the configuration of 00_scope.md R5, never changed (log entry 2) -/
  cfg : Config
  /-- the model's: what the host does next, first action first (log entry 1) -/
  host : List HostAction
  /-- the model's: the value the last host read returned (log entry 12) -/
  hostData : Word
  deriving DecidableEq, Repr

/-! ## Reset -/

/-- A context after reset: `VALID` = 0, `ORD` = 0, `BASE` = `LEN` = `POS` = 0 (10_state.md R47). -/
def BitCtx.reset : BitCtx := ⟨false, .msb, 0#32, 0#32, 0#32⟩

/-- The machine right after hardware reset (10_state.md R47, 70_reset_and_hazards.md R371): every item of R30 is zero. No byte
of memory is known; the host has nothing pending; the configuration is any configuration (log entries 1, 2, 6, 10, 12). -/
def State.reset : State where
  a0 := 0#32
  a1 := 0#32
  a2 := 0#32
  a3 := 0#32
  r0 := 0#32
  r1 := 0#32
  rc := 0#32
  eob := false
  estky := false
  cmd := 0#32
  bs0 := BitCtx.reset
  bs1 := BitCtx.reset
  ovl := Vector.replicate 2 (Vector.replicate 32 (zeros 9))
  prevWin := Vector.replicate 2 (Vector.replicate 32 .normal)
  vbuf := Vector.replicate 2 (Vector.replicate 8 (zeros 64))
  vidx := 0#3
  mem := []
  stale0 := []
  stale1 := []
  draws := 0
  cfg := Config.platform
  host := []
  hostData := 0#32

/-! ## Why a step stops -/

/-- A fault of a step. -/
inductive Fault where
  /-- Raised by `hostMemWrite` and `hostMemRead` when a HOST memory access passes the top of the address space, which the spec
  says ends at 2^32 - 1 (20_memory.md R80). Safe: no command raises it. -/
  | outsideAddressSpace
  deriving DecidableEq, Repr

/-- A refusal of a step. -/
inductive Refusal where
  /-- A command with no meaning yet, by its mnemonic; no arm of `exec` raises it. Safe. -/
  | notModelled (mnemonic : String)
  /-- Raised by `hostRegWrite` and `hostRegRead` for a HOST register access that is not 32 bits wide, is misaligned, or lies beyond
  offset 0x7F: outside the spec (45_system.md R312, 93 U9 "refuse"). Safe. -/
  | registerAccess
  /-- Raised by `hostMemWrite` and `hostMemRead` when a HOST memory action touches ADB's register block, which is not memory
  (20_memory.md R80, 93 U11 "refuse"). Safe. -/
  | memoryActionOnRegisters
  deriving DecidableEq, Repr

end Sys2Proof.Machine
end

