-- ==== Sys2Proof/Machine/Flags.lean ====
section
/-! DEFINITION. Return codes as numbers, and the flags of 10_state.md R35. -/

namespace Sys2Proof.Machine

/-- The number of a return code (60_exceptions.md R331). -/
def ReturnCode.toInt : ReturnCode → Int
  | .none => 0
  | .errHuffOverrun => -1
  | .errHuffCode => -2
  | .errHuffTable => -3
  | .needMoreData => -4
  | .errOperand => -5
  | .errIllegalCmd => -6
  | .errBus => -7

/-- `tc32` of the code, what `RC` holds (00_scope.md R7). -/
def ReturnCode.word (code : ReturnCode) : Word := BitVec.ofInt 32 code.toInt

/-- A negative code, a failure (60_exceptions.md R330). -/
def ReturnCode.isFailure (code : ReturnCode) : Bool := decide (code.toInt < 0)

/-- `FLAGS.ESTKY` after a command: set by a negative code, else as it was (10_state.md R35, 60_exceptions.md R334). -/
def estkyAfter (estky : Bool) (code : ReturnCode) : Bool := estky || code.isFailure

/-- `FLAGS.EOB` after `BSR.PEEK`: 1 when fewer bits than asked are valid (40_bitreader.md R162). -/
def eobAfterPeek (valid asked : Nat) : Bool := decide (valid < asked)

/-- `FLAGS` as the host reads it: bit 0 `EOB`, bit 1 `ESTKY`, bits 31:2 zero (10_state.md R35). -/
def flagsWord (eob estky : Bool) : Word := bitWord eob + 2#32 * bitWord estky

/-- `BSc_CTL` as the host reads it: bit 0 `ORD`, bit 1 `VALID`, bits 31:2 zero (10_state.md R37). -/
def BitCtx.ctlWord (x : BitCtx) : Word := x.ord.word + 2#32 * bitWord x.valid

end Sys2Proof.Machine
end

