-- ==== Sys2Proof/Machine/Ops.lean ====
section
/-! DEFINITION. The named operations over memory and registers; ending a command, well or with a failure (60_exceptions.md R334,
which takes the place of taking an exception; there is no return from one, R337); reset; the register map. -/

namespace Sys2Proof.Machine

/-! ## Memory -/

/-- The value written last at an address, if any. -/
def Memory.lookup : Memory → Nat → Option Byte
  | [], _ => none
  | (k, v) :: m, a => if k = a then some v else Memory.lookup m a

/-- Memory with one byte written, in canonical form. -/
def Memory.insert (a : Nat) (b : Byte) : Memory → Memory
  | [] => [(a, b)]
  | (k, v) :: m =>
    if a < k then (a, b) :: (k, v) :: m
    else if a = k then (a, b) :: m
    else (k, v) :: Memory.insert a b m

/-- The mask of changed bits of the byte at an address: nothing changed where nothing is listed. -/
def StaleMap.mask (m : StaleMap) (a : Nat) : Byte := (Memory.lookup m a).getD 0#8

/-- The map after a byte has changed in the bits of `diff` (R375). -/
def StaleMap.note (m : StaleMap) (a : Nat) (diff : Byte) : StaleMap :=
  if diff = 0#8 then m else Memory.insert a (m.mask a ||| diff) m

/-- `MemRead(a, 1)` (00_scope.md R7); a byte nothing has written is a free value of its address (log entry 6). -/
def State.readByte (s : State) (a : Nat) : Byte := (Memory.lookup s.mem a).getD (Config.unwrittenByte a)

/-- `MemRead(a, 2)`, little-endian (20_memory.md R81). -/
def State.readHalf (s : State) (a : Nat) : Half := s.readByte (a + 1) ++ s.readByte a

/-- `MemRead(a, 4)`, little-endian (20_memory.md R81). -/
def State.readWord (s : State) (a : Nat) : Word :=
  s.readByte (a + 3) ++ s.readByte (a + 2) ++ s.readByte (a + 1) ++ s.readByte a

/-- The byte at `a` lies in the context's buffer `[BASE, BASE+LEN)`. -/
def BitCtx.covers (x : BitCtx) (a : Nat) : Bool :=
  decide (x.base.toNat ≤ a ∧ a < x.base.toNat + x.len.toNat)

/-- A context's map of changed bits after the byte at `a` changed in the bits of `diff` (R375). -/
def noteChange (x : BitCtx) (m : StaleMap) (a : Nat) (diff : Byte) : StaleMap :=
  if x.covers a then m.note a diff else m

/-- `MemWrite(a, 1, b)`. Whoever writes a byte of a context's buffer, host or command, makes its changed bits unspecified for
that context (R375; log entries 9, 21). -/
def State.storeByte (s : State) (a : Nat) (b : Byte) : State :=
  { s with
    mem := Memory.insert a b s.mem
    stale0 := noteChange s.bs0 s.stale0 a (s.readByte a ^^^ b)
    stale1 := noteChange s.bs1 s.stale1 a (s.readByte a ^^^ b) }

/-- Bytes stored at rising addresses. -/
def State.storeBytes (s : State) (a : Nat) : List Byte → State
  | [] => s
  | b :: bs => (s.storeByte a b).storeBytes (a + 1) bs

/-- The bytes of a halfword, lowest address first (20_memory.md R81). -/
def halfBytes (h : Half) : List Byte := [h.extractLsb' 0 8, h.extractLsb' 8 8]

/-- The bytes of a word, lowest address first (20_memory.md R81). -/
def wordBytes (w : Word) : List Byte :=
  [w.extractLsb' 0 8, w.extractLsb' 8 8, w.extractLsb' 16 8, w.extractLsb' 24 8]

/-- `WrW(a, 0, w), WrW(a, 1, w'), …`: consecutive words from byte address `a` (00_scope.md R7). -/
def State.storeWords (s : State) (a : Nat) (ws : List Word) : State := s.storeBytes a (ws.flatMap wordBytes)

/-- Consecutive halfwords from byte address `a`. -/
def State.storeHalves (s : State) (a : Nat) (hs : List Half) : State := s.storeBytes a (hs.flatMap halfBytes)

/-! ## Contexts -/

/-- The context `BSc`. -/
def State.ctx (s : State) : CtxId → BitCtx
  | .bs0 => s.bs0
  | .bs1 => s.bs1

/-- The context's map of changed bits. -/
def State.stale (s : State) : CtxId → StaleMap
  | .bs0 => s.stale0
  | .bs1 => s.stale1

/-- The state with another cursor in context `c`; the origin stays (10_state.md R38). -/
def State.setPos (s : State) (c : CtxId) (pos : Nat) : State :=
  match c with
  | .bs0 => { s with bs0 := { s.bs0 with pos := BitVec.ofNat 32 pos } }
  | .bs1 => { s with bs1 := { s.bs1 with pos := BitVec.ofNat 32 pos } }

/-- The state with a new origin in context `c`; from here on no bit of the buffer has changed (R375). -/
def State.setOrigin (s : State) (c : CtxId) (x : BitCtx) : State :=
  match c with
  | .bs0 => { s with bs0 := x, stale0 := [] }
  | .bs1 => { s with bs1 := x, stale1 := [] }

/-! ## Ending a command -/

/-- `R0 <- r0; R1 <- r1; FLAGS.EOB <- eob; finish(code)` (00_scope.md R7, 60_exceptions.md R334). -/
def State.finish (s : State) (code : ReturnCode) (r0 r1 : Nat) (eob : Bool) : State :=
  { s with
    rc := code.word
    r0 := BitVec.ofNat 32 r0
    r1 := BitVec.ofNat 32 r1
    eob := eob
    estky := estkyAfter s.estky code }

/-- A command that succeeds with results and `EOB` = 0. -/
def State.succeed (s : State) (r0 r1 : Nat) : State := s.finish .none r0 r1 false

/-- A command that fails: the one shared operation of every failure (60_exceptions.md R334). `R0` is 0 in every failure (R331). -/
def State.fail (s : State) (code : ReturnCode) (r1 : Nat) : State := s.finish code 0 r1 false

/-- An illegal word: `ERR_ILLEGAL_CMD`, `R0` = `R1` = 0, `EOB` = 0 (30_encoding.md R124, R129). -/
def State.illegal (s : State) : State := s.fail .errIllegalCmd 0

/-! ## Reset -/

/-- Every item of 10_state.md R30 at its reset value, `CMD` at `cmd` (R47, R311, R370). Memory, the configuration, the host's
pending actions, the host's last read and the draw number are not ADB's and stay. -/
def State.resetBlock (s : State) (cmd : Word) : State :=
  { State.reset with
    cmd := cmd
    mem := s.mem
    draws := s.draws
    cfg := s.cfg
    host := s.host
    hostData := s.hostData }

/-! ## The register map (10_state.md R37) -/

/-- What a host read at an offset returns; a reserved offset reads as 0. -/
def State.readReg (s : State) (offset : Nat) : Word :=
  match offset with
  | 0x00 => s.cmd
  | 0x04 => s.rc
  | 0x08 => flagsWord s.eob s.estky
  | 0x0C => s.r0
  | 0x10 => s.r1
  | 0x20 => s.a0
  | 0x24 => s.a1
  | 0x28 => s.a2
  | 0x2C => s.a3
  | 0x40 => s.bs0.base
  | 0x44 => s.bs0.len
  | 0x48 => s.bs0.pos
  | 0x4C => s.bs0.ctlWord
  | 0x50 => s.bs1.base
  | 0x54 => s.bs1.len
  | 0x58 => s.bs1.pos
  | 0x5C => s.bs1.ctlWord
  | 0x60 => s.vidx.setWidth 32
  | _ => 0#32

/-- What a host write at an offset other than `CMD`'s does: it stores to `A0`..`A3`, and is ignored at a read-only register and
at a reserved offset (10_state.md R37, 45_system.md R312). -/
def State.writeReg (s : State) (offset : Nat) (v : Word) : State :=
  match offset with
  | 0x20 => { s with a0 := v }
  | 0x24 => { s with a1 := v }
  | 0x28 => { s with a2 := v }
  | 0x2C => { s with a3 := v }
  | _ => s

end Sys2Proof.Machine
end

