-- ==== Sys2Proof/Machine/Operands.lean ====
section
/-! DEFINITION. Operand forms: memory regions and their checks (20_memory.md R83 to R86), the bits of a stream (R82), and the
numeric helpers of 00_scope.md R8. -/

namespace Sys2Proof.Machine

/-! ## Regions -/

/-- `[b1, b1+n1)` and `[b2, b2+n2)` share at least one byte (20_memory.md R86). -/
def rangesOverlap (b1 n1 b2 n2 : Nat) : Bool :=
  decide (0 < n1 ∧ 0 < n2 ∧ b1 < b2 + n2 ∧ b2 < b1 + n1)

/-- The size of the register block: offsets 0 .. 0x7F (45_system.md R312). -/
def regBlockSize : Nat := 0x80

/-- The window lets accesses of this kind through. -/
def permits (win : Window) : AccessKind → Bool
  | .read => win.readable
  | .write => win.writable

/-- `Accessible(b, n, kind)` (20_memory.md R85): one window of the platform holds the range and permits the access, the platform does
not deny it, and the range does not touch ADB's register block (R80, 93 U11). Every predicate that is false on the register block
is of this form (Laws/Kernels.lean; log entry 3). -/
def accessible (cfg : Config) (b n : Nat) (kind : AccessKind) : Bool :=
  cfg.windows.any (fun win => permits win kind && decide (win.base.toNat ≤ b ∧ b + n ≤ win.base.toNat + win.size))
    && !cfg.denied.contains ⟨b, n, kind⟩
    && !rangesOverlap b n cfg.regBase.toNat regBlockSize

/-- A memory region of a command: base, length in bytes, required alignment, and whether it is read and written (R83, R84). -/
structure Region where
  base : Nat
  len : Nat
  align : Nat
  reads : Bool
  writes : Bool
  deriving DecidableEq, Repr

/-- The region has the alignment of R83 and does not pass the top of the address space (R85 (1), (2)); an empty region passes. -/
def Region.fits (r : Region) : Bool := decide (r.len = 0 ∨ r.base % r.align = 0 ∧ r.base + r.len ≤ addressSpace)

/-- The region is accessible in each way it is used (R85 (3)); an empty region passes. -/
def Region.reachable (r : Region) (cfg : Config) : Bool :=
  decide (r.len = 0)
    || (!r.reads || accessible cfg r.base r.len .read) && (!r.writes || accessible cfg r.base r.len .write)

/-- Two different regions of one command of which one is written overlap (R86). -/
def Region.clashes (r q : Region) : Bool := (r.writes || q.writes) && rangesOverlap r.base r.len q.base q.len

/-- Some two regions of the list clash (R86). -/
def anyClash : List Region → Bool
  | [] => false
  | r :: rs => rs.any r.clashes || anyClash rs

/-- The check of a command's regions (R85, R86), operand errors before bus errors (60_exceptions.md R333). -/
def regionError (cfg : Config) (rs : List Region) : Option ReturnCode :=
  if rs.all Region.fits && !anyClash rs then
    if rs.all (fun r => r.reachable cfg) then none else some .errBus
  else some .errOperand

/-! ## Arrays in memory -/

/-- `RdW(base, i)` for `i` in 0 .. n-1 (00_scope.md R7). -/
def State.readWords (s : State) (base n : Nat) : Vector Word n := Vector.ofFn fun i => s.readWord (base + 4 * i.val)

/-! ## Bitstreams (20_memory.md R82) -/

/-- Which bit of its byte stream bit `j` is: bit `7 - j mod 8` MSB-first, bit `j mod 8` LSB-first. -/
def bitInByte (ord : BitOrder) (j : Nat) : Nat :=
  match ord with
  | .msb => 7 - j % 8
  | .lsb => j % 8

/-- `B(j)[…]` of R82: bit `j` of the stream as memory holds it now. -/
def State.memoryBit (s : State) (c : CtxId) (j : Nat) : Bool :=
  (s.readByte ((s.ctx c).base.toNat + j / 8)).getLsbD (bitInByte (s.ctx c).ord j)

/-- Bit `j` of the stream has changed since the context's `BSR.INIT` (70_reset_and_hazards.md R375; log entry 9). -/
def State.freed (s : State) (c : CtxId) (j : Nat) : Bool :=
  ((s.stale c).mask ((s.ctx c).base.toNat + j / 8)).getLsbD (bitInByte (s.ctx c).ord j)

/-- `sbit(c, j)`: bit `j` of the stream, from memory at the time of the command (10_state.md R39). A bit of the buffer that has
changed since `BSR.INIT` is unspecified, old or new (70_reset_and_hazards.md R375; log entry 9). -/
def State.sbit (s : State) (c : CtxId) (j : Nat) : Bool :=
  if s.freed c j then Config.freeBit s.draws j else s.memoryBit c j

/-- The value of `k` bits from `p`, the first bit the most significant: sum of `bit(p+i) * 2^(k-1-i)`. -/
def takeMsb (bit : Nat → Bool) (p : Nat) : Nat → Nat
  | 0 => 0
  | k + 1 => 2 * takeMsb bit p k + (bit (p + k)).toNat

/-- The value of `k` bits from `p`, the first bit the least significant: sum of `bit(p+i) * 2^i`. -/
def takeLsb (bit : Nat → Bool) (p : Nat) : Nat → Nat
  | 0 => 0
  | k + 1 => takeLsb bit p k + (bit (p + k)).toNat * 2 ^ k

/-- `take(c, p, k)` (20_memory.md R82). -/
def State.take (s : State) (c : CtxId) (p k : Nat) : Nat :=
  match (s.ctx c).ord with
  | .msb => takeMsb (s.sbit c) p k
  | .lsb => takeLsb (s.sbit c) p k

/-- `avail = 8 * LEN - POS` (40_bitreader.md); 0 in states no run reaches where the cursor is past the end (log entry 19). -/
def BitCtx.avail (x : BitCtx) : Nat := 8 * x.len.toNat - x.pos.toNat

/-! ## Numbers (00_scope.md R8) -/

/-- `signmag(m, s) = s * 2^31 + m`. -/
def signmag (m : Nat) (s : Bool) : Word := BitVec.ofNat 32 (s.toNat * 2 ^ 31 + m)

/-- How many of bits `k-1, k-2, …` equal bit 31, without a gap. -/
def signRun (w : Word) : Nat → Nat
  | 0 => 0
  | k + 1 => if w.getLsbD k = w.getLsbD 31 then signRun w k + 1 else 0

/-- `gbits(w)`: the bits from bit 30 downward, without a gap, that equal bit 31. -/
def gbits (w : Word) : Nat := signRun w 31

/-- `MIN_GB` (00_scope.md R5). -/
def minGuardBits : Nat := 1

/-- The word has the guard bits R237 and R265 require. -/
def guarded (w : Word) : Bool := decide (minGuardBits ≤ gbits w)

/-- `sat16(v)`. -/
def sat16 (v : Int) : Int := if v < -32768 then -32768 else if 32767 < v then 32767 else v

/-- `rshr(v, s) = floor((v + 2^(s-1)) / 2^s)`, for `s >= 1`. -/
def rshr (v : Int) (s : Nat) : Int := (v + 2 ^ (s - 1)) / 2 ^ s

/-- `neg32(w) = (2^32 - w) mod 2^32`. -/
def neg32 (w : Word) : Word := BitVec.ofNat 32 (2 ^ 32 - w.toNat)

end Sys2Proof.Machine
end

