-- ==== Sys2Proof/Machine/BitReader.lean ====
section
/-! DEFINITION. The bitstream reader commands (40_bitreader.md). -/

namespace Sys2Proof.Machine

/-- The region of `BSR.INIT`: the buffer, read at any alignment (20_memory.md R83, R84). -/
def initRegions (s : State) : List Region := [⟨s.a0.toNat, s.a1.toNat, 1, true, false⟩]

/-- Why `BSR.INIT` fails: the length, then the buffer's wrap at the top of the address space, then the bus (R161). -/
def initError (s : State) : Option ReturnCode :=
  if s.a1.toNat > lenMax then some .errOperand else regionError s.cfg (initRegions s)

/-- `BSR.INIT c, ord` (R161). -/
def execBsrInit (c : CtxId) (ord : BitOrder) (s : State) : Host.Outcome State Fault Refusal :=
  .next
    (match initError s with
    | some code => s.fail code 0
    | none => (s.setOrigin c ⟨true, ord, s.a0, s.a1, 0#32⟩).succeed 0 (8 * s.a1.toNat))

/-- What `BSR.PEEK` returns in `R0`: the `k` bits there are, as if zero bits followed them (R162). -/
def peekValue (ord : BitOrder) (v asked k : Nat) : Nat :=
  match ord with
  | .msb => v * 2 ^ (asked - k)
  | .lsb => v

/-- `BSR.PEEK c, n` (R160, R162). -/
def execBsrPeek (c : CtxId) (n : BitVec 6) (s : State) : Host.Outcome State Fault Refusal :=
  .next
    (let x := s.ctx c
    let k := min n.toNat x.avail
    if x.valid then
      s.finish .none (peekValue x.ord (s.take c x.pos.toNat k) n.toNat k) k (eobAfterPeek k n.toNat)
    else s.fail .errOperand 0)

/-- Advance context `c` by `n` bits, answering `r0` and `n`; the common body of `BSR.GET`, `BSR.SKIP` and `BSR.SKIPR`
(R160, R163 to R165). -/
def advance (c : CtxId) (n r0 : Nat) (s : State) : State :=
  let x := s.ctx c
  if x.valid then
    if n > x.avail then s.fail .needMoreData x.avail
    else (s.setPos c (x.pos.toNat + n)).succeed r0 n
  else s.fail .errOperand 0

/-- `BSR.GET c, n` (R160, R163). -/
def execBsrGet (c : CtxId) (n : BitVec 6) (s : State) : Host.Outcome State Fault Refusal :=
  .next (advance c n.toNat (s.take c (s.ctx c).pos.toNat n.toNat) s)

/-- `BSR.SKIP c, n` (R160, R164). -/
def execBsrSkip (c : CtxId) (n : BitVec 6) (s : State) : Host.Outcome State Fault Refusal :=
  .next (advance c n.toNat 0 s)

/-- `BSR.SKIPR c` (R160, R165): the count is in `A1`. -/
def execBsrSkipr (c : CtxId) (s : State) : Host.Outcome State Fault Refusal :=
  .next (advance c s.a1.toNat 0 s)

end Sys2Proof.Machine
end

