-- ==== Sys2Proof/Machine/Huffman.lean ====
section
/-! DEFINITION. The MP3 Huffman decoder commands (41_huffman.md). `bit i` stands for stream bit `i` of the command,
`sbit(c, P + i)`, and `avail` for `B`, the bits available. Decoding is a function of these bits alone; the words it gives are
stored afterwards, which no command can tell from storing them as it goes, since the destination and the buffer are disjoint
(R192 (4)). -/

namespace Sys2Proof.Machine

/-! ## Codeword matching (R191) -/

/-- What matching a codeword gives. -/
inductive Match (ε : Type) where
  /-- this entry's string is next in the stream -/
  | found (e : ε)
  /-- the bits available end inside what could be a codeword -/
  | overrun
  /-- no codeword of the table can start here -/
  | noCode
  deriving DecidableEq, Repr

/-- The string equals the stream bits from `used` on. -/
def stringAt (bit : Nat → Bool) (used : Nat) : List Bool → Bool
  | [] => true
  | b :: bs => (bit used == b) && stringAt bit (used + 1) bs

/-- An entry's string lies wholly inside the `a` available bits and equals them (R191 (1)). -/
def fullMatch (bit : Nat → Bool) (used a : Nat) (str : List Bool) : Bool :=
  decide (str.length ≤ a) && stringAt bit used str

/-- An entry's string is longer than the `a` available bits, which equal its first `a` bits (R191 (2)). -/
def cutMatch (bit : Nat → Bool) (used a : Nat) (str : List Bool) : Bool :=
  decide (a < str.length) && stringAt bit used (str.take a)

/-- `match(T, used)` over the entries of `T`, `str` giving an entry's string (R191). -/
def matchCode {ε : Type} (str : ε → List Bool) (entries : List ε) (bit : Nat → Bool) (avail used : Nat) : Match ε :=
  match entries.find? (fun e => fullMatch bit used (avail - used) (str e)) with
  | some e => .found e
  | none => if entries.any (fun e => cutMatch bit used (avail - used) (str e)) then .overrun else .noCode

/-! ## One value (R193) -/

/-- `tail(m, linbits, maxv, used)`: the linbits of an escaped magnitude, then the sign of a non-zero one; `none` is `Overrun`. -/
def tail (bit : Nat → Bool) (avail m linbits maxv used : Nat) : Option (Word × Nat) :=
  let escaped := decide (0 < linbits ∧ m = maxv)
  if escaped ∧ avail < used + linbits then none
  else
    let m' := if escaped then m + takeMsb bit used linbits else m
    let u := if escaped then used + linbits else used
    if m' = 0 then some (signmag 0 false, u)
    else if avail < u + 1 then none
    else some (signmag m' (bit u), u + 1)

/-! ## The big-values region (R194) -/

/-- `maxv`, the largest `x` or `y` in any entry (R190). -/
def pairMax (t : PairCode) : Nat := t.entries.foldl (fun m e => max m (max e.x.val e.y.val)) 0

/-- One pair from `used`: codeword, then the tail of `x`, then the tail of `y` (R194). -/
def decodePair (t : PairTable) (bit : Nat → Bool) (avail used : Nat) : Except ReturnCode (Word × Word × Nat) :=
  match t with
  | .absent => .error .errHuffTable
  | .zero => .ok (0#32, 0#32, used)
  | .code t =>
    match matchCode PairEntry.bits t.entries bit avail used with
    | .overrun => .error .errHuffOverrun
    | .noCode => .error .errHuffCode
    | .found e =>
      match tail bit avail e.x.val t.linbits.val (pairMax t) (used + e.bits.length) with
      | none => .error .errHuffOverrun
      | some (wx, u) =>
        match tail bit avail e.y.val t.linbits.val (pairMax t) u with
        | none => .error .errHuffOverrun
        | some (wy, u') => .ok (wx, wy, u')

/-- What the decoding loop of a command gives: the words of the elements completed, the bits consumed, and how it ended. -/
structure Decoded where
  words : List Word
  used : Nat
  code : ReturnCode
  deriving DecidableEq, Repr

/-- `n` more pairs from `used` (R194). -/
def decodePairs (t : PairTable) (bit : Nat → Bool) (avail : Nat) : (n used : Nat) → Decoded
  | 0, used => ⟨[], used, .none⟩
  | n + 1, used =>
    match decodePair t bit avail used with
    | .error code => ⟨[], used, code⟩
    | .ok (wx, wy, u) =>
      let rest := decodePairs t bit avail n u
      ⟨wx :: wy :: rest.words, rest.used, rest.code⟩

/-! ## The count1 region (R195) -/

/-- The tails of magnitudes 0 or 1 in order, `linbits` = 0 (R195). -/
def signTails (bit : Nat → Bool) (avail : Nat) : (ms : List Bool) → (used : Nat) → Option (List Word × Nat)
  | [], used => some ([], used)
  | m :: ms, used =>
    match tail bit avail m.toNat 0 0 used with
    | none => none
    | some (w, u) =>
      match signTails bit avail ms u with
      | none => none
      | some (ws, u') => some (w :: ws, u')

/-- The magnitudes of a quad in stream order. -/
def quadMagnitudes (e : QuadEntry) : List Bool := [e.v, e.w, e.x, e.y]

/-- One quad from `used`: codeword, then the tails of `v`, `w`, `x`, `y` (R195). -/
def decodeQuad (t : QuadCode) (bit : Nat → Bool) (avail used : Nat) : Except ReturnCode (List Word × Nat) :=
  match matchCode QuadEntry.bits t.entries bit avail used with
  | .overrun => .error .errHuffOverrun
  | .noCode => .error .errHuffCode
  | .found e =>
    match signTails bit avail (quadMagnitudes e) (used + e.bits.length) with
    | none => .error .errHuffOverrun
    | some r => .ok r

/-- At most `n` more quads from `used`, while bits are left (R195). -/
def decodeQuads (t : QuadCode) (bit : Nat → Bool) (avail : Nat) : (n used : Nat) → Decoded
  | 0, used => ⟨[], used, .none⟩
  | n + 1, used =>
    if used < avail then
      match decodeQuad t bit avail used with
      | .error code => ⟨[], used, code⟩
      | .ok (ws, u) =>
        let rest := decodeQuads t bit avail n u
        ⟨ws ++ rest.words, rest.used, rest.code⟩
    else ⟨[], used, .none⟩

/-! ## The common checks (R192) and the commands -/

/-- The destination of a Huffman command: `nv` words at `A0`, written (20_memory.md R83, R84). -/
def huffmanTarget (nv : Nat) (s : State) : Region := ⟨s.a0.toNat, 4 * nv, 4, false, true⟩

/-- The context's buffer, which a Huffman command reads (20_memory.md R84). -/
def huffmanSource (x : BitCtx) : Region := ⟨x.base.toNat, x.len.toNat, 1, true, false⟩

/-- The checks of R192 in their order; the answer is the code and what `R1` becomes. `present` says that the table is there. With
`NV` = 0 the destination passes every check of a region, as 20_memory.md R85 says; R192 (3) asks of the operand `A0` itself, whatever
`NV` is, that it is a multiple of 4 (log entry 11). -/
def huffmanError (c : CtxId) (nv : Nat) (present : Bool) (s : State) : Option (ReturnCode × Nat) :=
  let x := s.ctx c
  if x.valid = false then some (.errOperand, 0)
  else if x.ord ≠ .msb then some (.errOperand, 0)
  else if s.a0.toNat % 4 ≠ 0 ∨ (huffmanTarget nv s).fits = false then some (.errOperand, 0)
  else if (huffmanTarget nv s).clashes (huffmanSource x) then some (.errOperand, 0)
  else if (huffmanTarget nv s).reachable s.cfg = false then some (.errBus, 0)
  else if s.a1.toNat > x.avail then some (.needMoreData, x.avail)
  else if present = false then some (.errHuffTable, 0)
  else none

/-- Stream bit `i` of a Huffman command on context `c`: `sbit(c, P + i)`. -/
def State.commandBit (s : State) (c : CtxId) (i : Nat) : Bool := s.sbit c ((s.ctx c).pos.toNat + i)

/-- The end of a Huffman command: the completed words are stored; on success the room left is zero-filled up to `nv` words, the
cursor moves and `R0`, `R1` are the bits consumed and `r1`; on a data error the cursor stays and `R1` counts the words stored
(R194, R195). -/
def huffmanEnd (c : CtxId) (d : Decoded) (fill r1 : Nat) (s : State) : State :=
  let p := (s.ctx c).pos.toNat
  if d.code = .none then
    ((s.storeWords s.a0.toNat (d.words ++ List.replicate fill 0#32)).setPos c (p + d.used)).succeed d.used r1
  else (s.storeWords s.a0.toNat d.words).fail d.code d.words.length

/-- `HUFF_ROM.pair[TAB]` (R190). -/
def pairTable (cfg : Config) (tab : BitVec 5) : PairTable := cfg.huffPair[tab.toNat]'(by have := tab.isLt; omega)

/-- `HUFF_ROM.quad[TAB]`, there for `TAB` = 0 and 1 (R190). -/
def quadTable (cfg : Config) (tab : BitVec 5) : Option QuadCode := cfg.huffQuad[tab.toNat]?

/-- What the decoding loop of `HUF.PAIRS` gives in a state (R194). -/
def pairsDecoded (c : CtxId) (tab : BitVec 5) (nv : BitVec 10) (s : State) : Decoded :=
  decodePairs (pairTable s.cfg tab) (s.commandBit c) s.a1.toNat (nv.toNat / 2) 0

/-- `HUF.PAIRS c, tab, nv` (R192, R194). -/
def execHufPairs (c : CtxId) (tab : BitVec 5) (nv : BitVec 10) (s : State) : Host.Outcome State Fault Refusal :=
  .next
    (match huffmanError c nv.toNat (decide (pairTable s.cfg tab ≠ .absent)) s with
    | some (code, r1) => s.fail code r1
    | none => huffmanEnd c (pairsDecoded c tab nv s) 0 nv.toNat s)

/-- What the decoding loop of `HUF.QUADS` gives in a state (R195). -/
def quadsDecoded (c : CtxId) (t : QuadCode) (nv : BitVec 10) (s : State) : Decoded :=
  decodeQuads t (s.commandBit c) s.a1.toNat (nv.toNat / 4) 0

/-- `HUF.QUADS c, tab, nv` (R192, R195). -/
def execHufQuads (c : CtxId) (tab : BitVec 5) (nv : BitVec 10) (s : State) : Host.Outcome State Fault Refusal :=
  .next
    (match huffmanError c nv.toNat (quadTable s.cfg tab).isSome s, quadTable s.cfg tab with
    | some (code, r1), _ => s.fail code r1
    | none, none => s.fail .errHuffTable 0
    | none, some t =>
      let d := quadsDecoded c t nv s
      huffmanEnd c d (nv.toNat - d.words.length) d.words.length s)

end Sys2Proof.Machine
end

