-- ==== Sys2Proof/Machine/Kernels.lean ====
section
/-! DEFINITION. The numeric kernels as functions (42_imdct.md R231, 43_synthesis.md R261, 44_vorbis_mdct.md R291). Each is total and
depends on its listed arguments only (KP1), and maps all-zero arrays to zero (KP2); elsewhere it is what the configuration lists, and
zero where it lists nothing. Every function with KP1 and KP2 is the kernel of some configuration (Laws/Kernels.lean). -/

namespace Sys2Proof.Machine

/-- The function a list of arguments and values stands for: the first value listed for the argument, else `other`. -/
def tableApply {α β : Type} [DecidableEq α] (table : List (α × β)) (other : β) (x : α) : β :=
  match table with
  | [] => other
  | (y, v) :: rest => if y = x then v else tableApply rest other x

/-- `ALIAS_K(lo, hi)` (42_imdct.md R231). -/
def aliasK (cfg : Config) (lo hi : Block) : Block × Block :=
  if lo = zeros 18 ∧ hi = zeros 18 then (zeros 18, zeros 18)
  else tableApply cfg.kernels.butterfly (zeros 18, zeros 18) (lo, hi)

/-- `IMDCT_LONG_K(x, ovl, wc, wp)` (42_imdct.md R231). -/
def imdctLongK (cfg : Config) (x : Block) (ovl : Overlap) (wc wp : WindowClass) : Block × Overlap :=
  if x = zeros 18 ∧ ovl = zeros 9 then (zeros 18, zeros 9)
  else tableApply cfg.kernels.long (zeros 18, zeros 9) (x, ovl, wc, wp)

/-- `IMDCT_SHORT_K(x, ovl, wp)` (42_imdct.md R231). -/
def imdctShortK (cfg : Config) (x : Block) (ovl : Overlap) (wp : WindowClass) : Block × Overlap :=
  if x = zeros 18 ∧ ovl = zeros 9 then (zeros 18, zeros 9)
  else tableApply cfg.kernels.short (zeros 18, zeros 9) (x, ovl, wp)

/-- `DCT32_K(s)` (43_synthesis.md R261). -/
def dct32K (cfg : Config) (s : Vector Word 32) : Slot :=
  if s = zeros 32 then zeros 64 else tableApply cfg.kernels.dct32 (zeros 64) s

/-- `POLY_K(h)`, `h[a]` the slot of age `a` (43_synthesis.md R261). -/
def polyK (cfg : Config) (h : Vector Slot 8) : Accumulators :=
  if h = Vector.replicate 8 (zeros 64) then Vector.replicate 32 0#64
  else tableApply cfg.kernels.poly (Vector.replicate 32 0#64) h

/-- `VMDCT_K(LG, x)` (44_vorbis_mdct.md R291). -/
def vmdctK (cfg : Config) (lg : Nat) (x : Vector Word (2 ^ (lg - 1))) : Vector Word (2 ^ (lg - 1)) :=
  if x = zeros _ then zeros _
  else
    let y := tableApply cfg.kernels.vmdct [] (lg, x.toList)
    Vector.ofFn fun j => y.getD j.val 0#32

end Sys2Proof.Machine
end

