-- ==== Sys2Proof/Machine/Imdct.lean ====
section
/-! DEFINITION. The MP3 hybrid inverse transform command (42_imdct.md). -/

namespace Sys2Proof.Machine

/-- The 32 subbands of one granule and channel. -/
abbrev Granule := Vector Block 32

/-- The input `X`: word `18*sb + k` at `base` is coefficient `k` of subband `sb` (R230). -/
def State.readGranule (s : State) (base : Nat) : Granule :=
  Vector.ofFn fun sb => Vector.ofFn fun k => s.readWord (base + 4 * (18 * sb.val + k.val))

/-- The window class of a subband (R232): the long subbands of a mixed block are 0 and 1, with the normal window. -/
def windowClass (bt : WindowClass) (mix : Bool) (sb : Nat) : WindowClass :=
  if bt = .short ∧ mix = true ∧ sb < 2 then .normal else bt

/-- The number of alias-reduction boundaries (R232). -/
def aliasBoundaries (bt : WindowClass) (mix : Bool) : Nat :=
  if bt = .short then (if mix then 1 else 0) else 31

/-- One alias-reduction step, between subbands `sb` and `sb + 1` (R233). -/
def aliasStep (cfg : Config) (sb : Nat) (z : Granule) : Granule :=
  if h : sb + 1 < 32 then
    let r := aliasK cfg (z[sb]'(by omega)) (z[sb + 1]'h)
    (z.set sb r.1 (by omega)).set (sb + 1) r.2 h
  else z

/-- The first `nb` steps in increasing order, each on the result of the one before (R233). -/
def aliasReduce (cfg : Config) (x : Granule) : (nb : Nat) → Granule
  | 0 => x
  | nb + 1 => aliasStep cfg nb (aliasReduce cfg x nb)

/-- The transform of one subband: output samples and new retained half (R234). -/
def transformBlock (cfg : Config) (z : Block) (ovl : Overlap) (wc wp : WindowClass) : Block × Overlap :=
  if wc = .short then imdctShortK cfg z ovl wp else imdctLongK cfg z ovl wc wp

/-- The transforms of all 32 subbands of channel `ch` (R234). -/
def transformAll (s : State) (ch : Channel) (bt : WindowClass) (mix : Bool) (x : Granule) : Vector (Block × Overlap) 32 :=
  Vector.ofFn fun sb =>
    transformBlock s.cfg (aliasReduce s.cfg x (aliasBoundaries bt mix))[sb] s.ovl[ch][sb] (windowClass bt mix sb.val) s.prevWin[ch][sb]

/-- Frequency inversion: odd samples of odd subbands are negated (R235). -/
def invertFrequency (sb t : Nat) (w : Word) : Word := if sb % 2 = 1 ∧ t % 2 = 1 then neg32 w else w

/-- The output `Y`: word `32*t + sb` is the sample of subband `sb` in time-slot `t` (R230). -/
def granuleOutput (rows : Vector (Block × Overlap) 32) : List Word :=
  List.ofFn fun j : Fin 576 =>
    invertFrequency (j.val % 32) (j.val / 32)
      ((rows[j.val % 32]'(by omega)).1[j.val / 32]'(by have := j.isLt; omega))

/-- Every input word has the guard bits of R237. -/
def Granule.guarded (x : Granule) : Bool := x.all fun b => b.all Machine.guarded

/-- The words `Y` and the new `OVL[CH]` of an `IMDCT.RUN`; where an input word has too few guard bits, each is a free value
(R237, 93 U1; log entry 7). -/
def imdctResult (s : State) (ch : Channel) (bt : WindowClass) (mix : Bool) (x : Granule) : List Word × Vector Overlap 32 :=
  if x.guarded then
    let rows := transformAll s ch bt mix x
    (granuleOutput rows, rows.map Prod.snd)
  else
    (List.ofFn fun j : Fin 576 => Config.freeWord s.draws j.val,
      Vector.ofFn fun sb => Vector.ofFn fun i => Config.freeWord s.draws (576 + 9 * sb.val + i.val))

/-- The regions of `IMDCT.RUN` (R234, 20_memory.md R84). -/
def imdctRegions (s : State) : List Region :=
  [⟨s.a0.toNat, 2304, 4, true, false⟩, ⟨s.a1.toNat, 2304, 4, false, true⟩]

/-- `IMDCT.RUN ch, bt, mix` (R234). -/
def execImdctRun (ch : Channel) (bt : WindowClass) (mix : Bool) (s : State) : Host.Outcome State Fault Refusal :=
  .next
    (match regionError s.cfg (imdctRegions s) with
    | some code => s.fail code 0
    | none =>
      let r := imdctResult s ch bt mix (s.readGranule s.a0.toNat)
      { s.storeWords s.a1.toNat r.1 with
        ovl := s.ovl.set ch r.2
        prevWin := s.prevWin.set ch (Vector.ofFn fun sb => windowClass bt mix sb.val) }.succeed 0 0)

end Sys2Proof.Machine
end

