-- ==== Sys2Proof/Machine/Synth.lean ====
section
/-! DEFINITION. The MP3 polyphase synthesis command (43_synthesis.md). -/

namespace Sys2Proof.Machine

/-- Number of channels processed: `1 + ST` (R262). -/
def synChannels (stereo : Bool) : Nat := if stereo then 2 else 1

/-- Number of output bytes, `PCMBYTES` (R262, 20_memory.md R84). -/
def pcmBytes (stereo : Bool) (fmt : PcmFormat) : Nat :=
  match fmt with
  | .pcm16 => 64 * synChannels stereo
  | .pcm32 => 256

/-- Alignment of the output (R262). -/
def pcmAlign : PcmFormat → Nat
  | .pcm16 => 2
  | .pcm32 => 4

/-- The regions of `SYN.RUN`; channel 1's input only in stereo (R262, 20_memory.md R84). -/
def synRegions (s : State) (stereo : Bool) (fmt : PcmFormat) : List Region :=
  ⟨s.a2.toNat, pcmBytes stereo fmt, pcmAlign fmt, false, true⟩
    :: ⟨s.a0.toNat, 128, 4, true, false⟩
    :: (if stereo then [⟨s.a1.toNat, 128, 4, true, false⟩] else [])

/-- The address of a channel's input: `A[ch]` (R262). -/
def synSource (s : State) (ch : Channel) : Nat := if ch = 0 then s.a0.toNat else s.a1.toNat

/-- The ring of a channel by age, age 0 the slot just written: `h[a] = VBUF[ch][(VIDX + a) mod 8]` (R262). -/
def agedRing (ring : Vector Slot 8) (vidx : BitVec 3) : Vector Slot 8 :=
  Vector.ofFn fun a => ring[(vidx.toNat + a.val) % 8]'(Nat.mod_lt _ (by decide))

/-- `VBUF[ch]` with the slot `VIDX` written (R262). -/
def writeSlot (ring : Vector Slot 8) (vidx : BitVec 3) (slot : Slot) : Vector Slot 8 :=
  ring.set vidx.toNat slot (by have := vidx.isLt; omega)

/-- A PCM sample from an accumulator: `sat16(rshr(acc, SYN_FRACBITS))`, as its 16-bit pattern (R260, R263). -/
def pcmSample (cfg : Config) (acc : BitVec 64) : Half := BitVec.ofInt 16 (sat16 (rshr acc.toInt cfg.synFracBits))

/-- The new ring and the samples of one channel. Where an input word has too few guard bits, the slot and the samples are free
values, and what later commands compute from the slot follows from it (R265, 93 U2; log entry 8). -/
def synthChannel (s : State) (ch : Channel) : Vector Slot 8 × Vector Half 32 :=
  let x := s.readWords (synSource s ch) 32
  if x.all guarded then
    let ring := writeSlot s.vbuf[ch] s.vidx (dct32K s.cfg x)
    (ring, (polyK s.cfg (agedRing ring s.vidx)).map (pcmSample s.cfg))
  else
    (writeSlot s.vbuf[ch] s.vidx (Vector.ofFn fun i => Config.freeWord s.draws (96 * ch.val + i.val)),
      Vector.ofFn fun j => Config.freeSample s.draws (96 * ch.val + 64 + j.val))

/-- A PCM32 word: the sample in bits 31:16, zero in bits 15:0 (R260). -/
def pcmWord (p : Half) : Word := p ++ 0#16

/-- The samples of two channels, interleaved `p0[j], p1[j]` (R260). -/
def interleave (p0 p1 : Vector Half 32) : List Half :=
  List.ofFn fun i : Fin 64 =>
    if i.val % 2 = 0 then p0[i.val / 2]'(by have := i.isLt; omega) else p1[i.val / 2]'(by have := i.isLt; omega)

/-- The output array as bytes (R260); `p1` is used only in stereo. -/
def pcmOutput (stereo : Bool) (fmt : PcmFormat) (p0 p1 : Vector Half 32) : List Byte :=
  match fmt, stereo with
  | .pcm16, false => p0.toList.flatMap halfBytes
  | .pcm16, true => (interleave p0 p1).flatMap halfBytes
  | .pcm32, false => ((interleave p0 p0).map pcmWord).flatMap wordBytes
  | .pcm32, true => ((interleave p0 p1).map pcmWord).flatMap wordBytes

/-- The rings after the command: channel 1's only in stereo (R262). -/
def synthRings (s : State) (stereo : Bool) : Vector (Vector Slot 8) 2 :=
  let v := s.vbuf.set 0 (synthChannel s 0).1
  if stereo then v.set 1 (synthChannel s 1).1 else v

/-- `SYN.RUN st, fmt` (R262). -/
def execSynRun (stereo : Bool) (fmt : PcmFormat) (s : State) : Host.Outcome State Fault Refusal :=
  .next
    (match regionError s.cfg (synRegions s stereo fmt) with
    | some code => s.fail code 0
    | none =>
      { s.storeBytes s.a2.toNat (pcmOutput stereo fmt (synthChannel s 0).2 (synthChannel s 1).2) with
        vbuf := synthRings s stereo
        vidx := s.vidx + 7#3 }.succeed (32 * synChannels stereo) 0)

end Sys2Proof.Machine
end

