-- ==== Sys2Proof/Machine/Sys.lean ====
section
/-! DEFINITION. The system commands (45_system.md). -/

namespace Sys2Proof.Machine

/-- `SYS.NOP` (45_system.md R310). -/
def execSysNop (s : State) : Host.Outcome State Fault Refusal := .next (s.succeed 0 0)

/-- `SYS.RESET` (45_system.md R311): all state to its reset value, but `CMD` holds this command's word; memory is not touched. -/
def execSysReset (s : State) : Host.Outcome State Fault Refusal := .next (s.resetBlock 0x01000000#32)

end Sys2Proof.Machine
end

