-- ==== Sys2Proof/Machine/Vorbis.lean ====
section
/-! DEFINITION. The Vorbis inverse MDCT command (44_vorbis_mdct.md). -/

namespace Sys2Proof.Machine

/-- Number of words of the buffer: `m = 2^(LG-1)` (R292). -/
def vmdctWords (lg : BitVec 4) : Nat := 2 ^ (lg.toNat - 1)

/-- The one region of `VMDCT.RUN`, read and written in place (R292, 20_memory.md R84, R86). -/
def vmdctRegions (s : State) (lg : BitVec 4) : List Region := [⟨s.a0.toNat, 4 * vmdctWords lg, 4, true, true⟩]

/-- The output words; all inputs are read before any output is written (R292). -/
def vmdctOutput (s : State) (lg : BitVec 4) : List Word :=
  (vmdctK s.cfg lg.toNat (s.readWords s.a0.toNat (2 ^ (lg.toNat - 1)))).toList

/-- `VMDCT.RUN lg` (R292). -/
def execVmdctRun (lg : BitVec 4) (s : State) : Host.Outcome State Fault Refusal :=
  .next
    (match regionError s.cfg (vmdctRegions s lg) with
    | some code => s.fail code 0
    | none => (s.storeWords s.a0.toNat (vmdctOutput s lg)).succeed (vmdctWords lg) 0)

end Sys2Proof.Machine
end

