-- ==== Sys2Proof/Machine/Dispatch.lean ====
section
/-! DEFINITION. One arm per command: each calls its meaning. -/

namespace Sys2Proof.Machine

def exec (i : Instr) (s : State) : Host.Outcome State Fault Refusal :=
  match i with
  | .sysNop => Sys2Proof.Machine.execSysNop s
  | .sysReset => Sys2Proof.Machine.execSysReset s
  | .bsrInit c ord => Sys2Proof.Machine.execBsrInit c ord s
  | .bsrPeek c n => Sys2Proof.Machine.execBsrPeek c n s
  | .bsrGet c n => Sys2Proof.Machine.execBsrGet c n s
  | .bsrSkip c n => Sys2Proof.Machine.execBsrSkip c n s
  | .bsrSkipr c => Sys2Proof.Machine.execBsrSkipr c s
  | .hufPairs c tab nv => Sys2Proof.Machine.execHufPairs c tab nv s
  | .hufQuads c tab nv => Sys2Proof.Machine.execHufQuads c tab nv s
  | .imdctRun ch bt mix => Sys2Proof.Machine.execImdctRun ch bt mix s
  | .synRun stereo fmt => Sys2Proof.Machine.execSynRun stereo fmt s
  | .vmdctRun lg => Sys2Proof.Machine.execVmdctRun lg s

end Sys2Proof.Machine
end

