-- ==== Sys2Proof/Machine/HostAccess.lean ====
section
/-! DEFINITION. What a host action does (45_system.md R312, 10_state.md R36, 20_memory.md R93): register accesses, among them the
write to `CMD` that executes a command (30_encoding.md R129), memory accesses between commands, and hardware reset. -/

namespace Sys2Proof.Machine

/-- The number of bytes of an access. -/
def Width.bytes : Width → Nat
  | .byte => 1
  | .half => 2
  | .word => 4

/-- A register access inside the spec: 32 bits wide, aligned, at an offset up to 0x7F (R312). -/
def registerAccessLegal (offset : Nat) (width : Width) : Bool :=
  decide (width = .word ∧ offset % 4 = 0 ∧ offset < regBlockSize)

/-- A host write of `w` to `CMD`: `CMD <- w`, then the command that `w` encodes, or `ERR_ILLEGAL_CMD` (R36, R129). Each write has
its own draw of free values (log entry 10). -/
def runCommand (w : Word) (s : State) : Host.Outcome State Fault Refusal :=
  let s' := { s with cmd := w, draws := s.draws + 1 }
  match decode w with
  | .ok i => exec i s'
  | .error _ => .next s'.illegal

/-- A host write of a register (R37, R312). -/
def hostRegWrite (offset : Nat) (width : Width) (v : Word) (s : State) : Host.Outcome State Fault Refusal :=
  if registerAccessLegal offset width then
    if offset = 0 then runCommand v s else .next (s.writeReg offset v)
  else .refused .registerAccess

/-- A host read of a register: no side effect on ADB (R312). -/
def hostRegRead (offset : Nat) (width : Width) (s : State) : Host.Outcome State Fault Refusal :=
  if registerAccessLegal offset width then .next { s with hostData := s.readReg offset } else .refused .registerAccess

/-- A host memory access of `n` bytes at `a` touches the register block. -/
def touchesRegisters (s : State) (a n : Nat) : Bool := rangesOverlap a n s.cfg.regBase.toNat regBlockSize

/-- The bytes of a host write, lowest address first (20_memory.md R81). -/
def valueBytes (width : Width) (v : Word) : List Byte := (wordBytes v).take width.bytes

/-- A host write of memory (20_memory.md R93). DESIGN CHOICE: the spec asks no alignment of the host's own memory accesses, so a halfword
or a word may stand at any address, as its bytes do (log entry 22). DESIGN CHOICE: `Accessible` says what ADB may access and the spec
gives the host's accesses no effect of their own where it is false (R90); there too the host meets ordinary memory (log entry 23). -/
def hostMemWrite (a : Nat) (width : Width) (v : Word) (s : State) : Host.Outcome State Fault Refusal :=
  if a + width.bytes > addressSpace then .fault .outsideAddressSpace
  else if touchesRegisters s a width.bytes then .refused .memoryActionOnRegisters
  else .next (s.storeBytes a (valueBytes width v))

/-- The value a host read of memory returns, zero-extended. -/
def State.readValue (s : State) (a : Nat) : Width → Word
  | .byte => (s.readByte a).setWidth 32
  | .half => (s.readHalf a).setWidth 32
  | .word => s.readWord a

/-- A host read of memory (20_memory.md R93). DESIGN CHOICE: at any address, whatever the width (log entry 22).
DESIGN CHOICE: where `Accessible` is false, which R90 lets a platform use for memory that is not ordinary, the host still reads ordinary
memory, with no side effect (log entry 23). -/
def hostMemRead (a : Nat) (width : Width) (s : State) : Host.Outcome State Fault Refusal :=
  if a + width.bytes > addressSpace then .fault .outsideAddressSpace
  else if touchesRegisters s a width.bytes then .refused .memoryActionOnRegisters
  else .next { s with hostData := s.readValue a width }

/-- One host action. -/
def hostAct (act : HostAction) (s : State) : Host.Outcome State Fault Refusal :=
  match act with
  | .regWrite offset width v => hostRegWrite offset width v s
  | .regRead offset width => hostRegRead offset width s
  | .memWrite a width v => hostMemWrite a width v s
  | .memRead a width => hostMemRead a width s
  | .hardReset => .next (s.resetBlock 0#32)

end Sys2Proof.Machine
end

