-- ==== Sys2Proof/Machine/Step.lean ====
section
/-! DEFINITION. One step: the host's next action, or idling when it has none (70_reset_and_hazards.md R383, 00_scope.md R10). -/

namespace Sys2Proof.Machine

/-- One step of the machine. With no host action pending ADB is idle and holds all of its state unchanged (R383). -/
def step (s : State) : Host.Outcome State Fault Refusal :=
  match s.host with
  | [] => .next s
  | act :: rest => hostAct act { s with host := rest }

/-- `s` with the host about to write the word `w` to `CMD`, as its next action: ADB fetches no instruction from memory, the command
word is the data of that write and nothing else (20_memory.md R96; log entry 1). -/
def State.withFetchWord (s : State) (nbits w : Nat) : State :=
  { s with host := .regWrite 0 .word (tableWord nbits w) :: s.host }

end Sys2Proof.Machine
end

