-- ==== Sys2Proof/Safety.lean ====
section
/-! DEFINITION. The terms claims use: invariants of the state (40_bitreader.md R167), illegal words as a rule on numbers
(30_encoding.md R124), the preconditions and the written region of each command, and a stream as an encoder would write it. -/

namespace Sys2Proof.Machine

/-! ## Invariants -/

/-- The cursor invariant of a context (40_bitreader.md R167), with what `BSR.INIT` checks: the buffer lies in the address space;
a context that is not valid is as reset left it (10_state.md R38, R47). -/
def BitCtx.Sound (x : BitCtx) : Prop :=
  x.len.toNat ≤ lenMax ∧ x.pos.toNat ≤ 8 * x.len.toNat ∧ x.base.toNat + x.len.toNat ≤ addressSpace
    ∧ (x.valid = false → x = BitCtx.reset)

/-- The cursor invariant of both contexts. -/
def State.CursorsSound (s : State) : Prop := s.bs0.Sound ∧ s.bs1.Sound

/-- Memory and the maps of changed bits are in canonical form, memory holds no address beyond the space (20_memory.md R80), and
only bytes of a context's buffer are noted as changed (70_reset_and_hazards.md R375). -/
def State.MemorySound (s : State) : Prop :=
  s.mem.wf ∧ (∀ p ∈ s.mem, p.1 < addressSpace)
    ∧ s.stale0.wf ∧ (∀ p ∈ s.stale0, s.bs0.covers p.1 = true)
    ∧ s.stale1.wf ∧ (∀ p ∈ s.stale1, s.bs1.covers p.1 = true)

/-- `RC` holds one of the codes of 60_exceptions.md R331, and a failure that `RC` reports is marked in `ESTKY` (R334, R335). -/
def State.ReportSound (s : State) : Prop :=
  (∃ code : ReturnCode, s.rc = code.word) ∧ (s.estky = false → s.rc = 0#32)

/-! ## Illegal words, as numbers (30_encoding.md R121 to R124) -/

/-- R124 on the number of a word: `low` is bits 23:0; (a) the opcode, (b) the reserved bits of the format, (c) the fields. -/
def illegalNumber (n : Nat) : Prop :=
  let low := n % 2 ^ 24
  match n / 2 ^ 24 with
  | 0x00 => low ≠ 0
  | 0x01 => low ≠ 0
  | 0x10 => 2 ^ 2 ≤ low
  | 0x11 => 2 ^ 7 ≤ low ∨ 32 < low / 2
  | 0x12 => 2 ^ 7 ≤ low ∨ 32 < low / 2
  | 0x13 => 2 ^ 7 ≤ low ∨ 32 < low / 2
  | 0x14 => 2 ^ 1 ≤ low
  | 0x20 => 2 ^ 16 ≤ low ∨ 576 < low / 64 ∨ low / 64 % 2 = 1
  | 0x21 => 2 ^ 16 ≤ low ∨ 576 < low / 64 ∨ 1 < low / 2 % 32
  | 0x30 => 2 ^ 4 ≤ low ∨ (low / 8 = 1 ∧ low / 2 % 4 ≠ 2)
  | 0x40 => 2 ^ 2 ≤ low
  | 0x50 => 2 ^ 4 ≤ low ∨ low < 6 ∨ 13 < low
  | _ => True

/-! ## What a command needs and what it writes -/

/-- The checks of 41_huffman.md R192 but the table's presence: the state and the operands alone. -/
structure HuffmanReady (c : CtxId) (nv : Nat) (s : State) : Prop where
  valid : (s.ctx c).valid = true
  msbFirst : (s.ctx c).ord = .msb
  aligned : s.a0.toNat % 4 = 0
  fits : s.a0.toNat + 4 * nv ≤ addressSpace
  apart : rangesOverlap s.a0.toNat (4 * nv) (s.ctx c).base.toNat (s.ctx c).len.toNat = false
  writable : 0 < nv → accessible s.cfg s.a0.toNat (4 * nv) .write = true
  enough : s.a1.toNat ≤ (s.ctx c).avail

/-- The conditions under which `IMDCT.RUN` executes (42_imdct.md R234). -/
structure ImdctReady (s : State) : Prop where
  aligned : s.a0.toNat % 4 = 0 ∧ s.a1.toNat % 4 = 0
  fits : s.a0.toNat + 2304 ≤ addressSpace ∧ s.a1.toNat + 2304 ≤ addressSpace
  apart : rangesOverlap s.a0.toNat 2304 s.a1.toNat 2304 = false
  readable : accessible s.cfg s.a0.toNat 2304 .read = true
  writable : accessible s.cfg s.a1.toNat 2304 .write = true

/-- The conditions under which `SYN.RUN` executes (43_synthesis.md R262). -/
structure SynReady (stereo : Bool) (fmt : PcmFormat) (s : State) : Prop where
  left : s.a0.toNat % 4 = 0 ∧ s.a0.toNat + 128 ≤ addressSpace
  right : stereo = true → s.a1.toNat % 4 = 0 ∧ s.a1.toNat + 128 ≤ addressSpace
  output : s.a2.toNat % pcmAlign fmt = 0 ∧ s.a2.toNat + pcmBytes stereo fmt ≤ addressSpace
  apartLeft : rangesOverlap s.a2.toNat (pcmBytes stereo fmt) s.a0.toNat 128 = false
  apartRight : stereo = true → rangesOverlap s.a2.toNat (pcmBytes stereo fmt) s.a1.toNat 128 = false
  readableLeft : accessible s.cfg s.a0.toNat 128 .read = true
  readableRight : stereo = true → accessible s.cfg s.a1.toNat 128 .read = true
  writable : accessible s.cfg s.a2.toNat (pcmBytes stereo fmt) .write = true

/-- The conditions under which `VMDCT.RUN` executes (44_vorbis_mdct.md R292). -/
structure VmdctReady (lg : BitVec 4) (s : State) : Prop where
  aligned : s.a0.toNat % 4 = 0
  fits : s.a0.toNat + 4 * vmdctWords lg ≤ addressSpace
  readable : accessible s.cfg s.a0.toNat (4 * vmdctWords lg) .read = true
  writable : accessible s.cfg s.a0.toNat (4 * vmdctWords lg) .write = true

/-- The region a command may write: base and length (20_memory.md R84). -/
def writtenRegion (i : Instr) (s : State) : Nat × Nat :=
  match i with
  | .sysNop => (0, 0)
  | .sysReset => (0, 0)
  | .bsrInit _ _ => (0, 0)
  | .bsrPeek _ _ => (0, 0)
  | .bsrGet _ _ => (0, 0)
  | .bsrSkip _ _ => (0, 0)
  | .bsrSkipr _ => (0, 0)
  | .hufPairs _ _ nv => (s.a0.toNat, 4 * nv.toNat)
  | .hufQuads _ _ nv => (s.a0.toNat, 4 * nv.toNat)
  | .imdctRun _ _ _ => (s.a1.toNat, 2304)
  | .synRun stereo fmt => (s.a2.toNat, pcmBytes stereo fmt)
  | .vmdctRun lg => (s.a0.toNat, 4 * vmdctWords lg)

/-- The context a command may change (10_state.md R38). -/
def namedContext : Instr → Option CtxId
  | .sysNop => none
  | .sysReset => none
  | .bsrInit c _ => some c
  | .bsrPeek c _ => some c
  | .bsrGet c _ => some c
  | .bsrSkip c _ => some c
  | .bsrSkipr c => some c
  | .hufPairs c _ _ => some c
  | .hufQuads c _ _ => some c
  | .imdctRun _ _ _ => none
  | .synRun _ _ => none
  | .vmdctRun _ => none

/-! ## A synthesized sample -/

/-- The sample `j` of a channel whose ring, with the new slot at `vidx`, is `ring` (43_synthesis.md R262). -/
def synSampleOf (cfg : Config) (ring : Vector Slot 8) (vidx : BitVec 3) (j : Fin 32) : Int :=
  sat16 (rshr ((polyK cfg (Vector.ofFn fun a : Fin 8 => ring[(vidx.toNat + a.val) % 8]'(Nat.mod_lt _ (by decide))))[j]).toInt
    cfg.synFracBits)

/-! ## What a command leaves unchanged -/

/-- The operand registers and `CMD` are unchanged. -/
def keepsOperands (s t : State) : Prop := t.a0 = s.a0 ∧ t.a1 = s.a1 ∧ t.a2 = s.a2 ∧ t.a3 = s.a3 ∧ t.cmd = s.cmd

/-- Both bit-reader contexts are unchanged. -/
def keepsContexts (s t : State) : Prop := t.bs0 = s.bs0 ∧ t.bs1 = s.bs1

/-- The persistent DSP state is unchanged (10_state.md R41 to R44). -/
def keepsDsp (s t : State) : Prop := t.ovl = s.ovl ∧ t.prevWin = s.prevWin ∧ t.vbuf = s.vbuf ∧ t.vidx = s.vidx

/-- The configuration, the host's pending actions and last read, and the draw number are unchanged. -/
def keepsOutside (s t : State) : Prop := t.cfg = s.cfg ∧ t.host = s.host ∧ t.hostData = s.hostData ∧ t.draws = s.draws

/-- Every byte of memory outside `[base, base + len)` reads as before. -/
def keepsMemoryBut (s t : State) (base len : Nat) : Prop :=
  ∀ a, a < base ∨ base + len ≤ a → t.readByte a = s.readByte a

/-- What a successful command reports: `RC` = 0, `R0`, `R1`, `EOB` = 0, `ESTKY` as it was (60_exceptions.md R334). -/
def reports (s t : State) (r0 r1 : Nat) : Prop :=
  t.rc = 0#32 ∧ t.r0.toNat = r0 ∧ t.r1.toNat = r1 ∧ t.eob = false ∧ t.estky = s.estky

/-! ## A stream as an encoder writes it (41_huffman.md R193 to R195) -/

/-- The `k` bits of a number, most significant first. -/
def msbBits (v : Nat) : Nat → List Bool
  | 0 => []
  | k + 1 => v.testBit k :: msbBits v k

/-- A coefficient in the stream: the magnitude its codeword gives, the linbits value (used when escaped) and the sign (used when
not zero). -/
structure Coefficient where
  mag : Nat
  raw : Nat
  neg : Bool
  deriving DecidableEq, Repr

/-- The magnitude is escaped: it equals the table's maximum and the table has linbits (R193). -/
def Coefficient.escaped (q : Coefficient) (linbits maxv : Nat) : Bool := decide (0 < linbits ∧ q.mag = maxv)

/-- The coefficient's magnitude (R193). -/
def Coefficient.value (q : Coefficient) (linbits maxv : Nat) : Nat := if q.escaped linbits maxv then q.mag + q.raw else q.mag

/-- Its bits after the codeword: linbits if escaped, then the sign if not zero (R193). -/
def Coefficient.bits (q : Coefficient) (linbits maxv : Nat) : List Bool :=
  (if q.escaped linbits maxv then msbBits q.raw linbits else [])
    ++ (if q.value linbits maxv = 0 then [] else [q.neg])

/-- Its output word (R197): zero is always 0x00000000. -/
def Coefficient.word (q : Coefficient) (linbits maxv : Nat) : Word :=
  if q.value linbits maxv = 0 then 0#32 else signmag (q.value linbits maxv) q.neg

/-- A pair in the stream: an entry of the table, and the linbits values and signs of `x` and `y`. -/
structure PairItem where
  entry : PairEntry
  rawX : Nat
  negX : Bool
  rawY : Nat
  negY : Bool
  deriving DecidableEq, Repr

/-- The two coefficients of the pair. -/
def PairItem.coefficients (p : PairItem) : List Coefficient := [⟨p.entry.x.val, p.rawX, p.negX⟩, ⟨p.entry.y.val, p.rawY, p.negY⟩]

/-- The pair's bits: codeword, then `x`'s linbits and sign, then `y`'s (R194). -/
def PairItem.bits (t : PairCode) (p : PairItem) : List Bool :=
  p.entry.bits ++ p.coefficients.flatMap fun q => q.bits t.linbits.val (pairMax t)

/-- The pair's two output words (R194). -/
def PairItem.words (t : PairCode) (p : PairItem) : List Word := p.coefficients.map fun q => q.word t.linbits.val (pairMax t)

/-- The entry is in the table and the linbits values fit their fields. -/
def PairItem.ofTable (t : PairCode) (p : PairItem) : Prop :=
  p.entry ∈ t.entries ∧ p.rawX < 2 ^ t.linbits.val ∧ p.rawY < 2 ^ t.linbits.val

/-- A quad in the stream: an entry of the table and four signs (used for the magnitudes that are 1). -/
structure QuadItem where
  entry : QuadEntry
  negV : Bool
  negW : Bool
  negX : Bool
  negY : Bool
  deriving DecidableEq, Repr

/-- The four coefficients of the quad. -/
def QuadItem.coefficients (q : QuadItem) : List Coefficient :=
  [⟨q.entry.v.toNat, 0, q.negV⟩, ⟨q.entry.w.toNat, 0, q.negW⟩, ⟨q.entry.x.toNat, 0, q.negX⟩, ⟨q.entry.y.toNat, 0, q.negY⟩]

/-- The quad's bits: codeword, then the signs of the non-zero values in the order `v`, `w`, `x`, `y` (R195). -/
def QuadItem.bits (q : QuadItem) : List Bool := q.entry.bits ++ q.coefficients.flatMap fun k => k.bits 0 0

/-- The quad's four output words (R195). -/
def QuadItem.words (q : QuadItem) : List Word := q.coefficients.map fun k => k.word 0 0

/-- The bits of the list are the next bits of context `c`'s stream. -/
def streamStartsWith (s : State) (c : CtxId) (bits : List Bool) : Prop :=
  ∀ i b, bits[i]? = some b → s.commandBit c i = b

end Sys2Proof.Machine
end

