-- ==== Sys2Proof/Certificates/Slice0/Obligations.lean ====
section
/-! DEFINITION. The statements for the provers. Each docstring names the rule of spec/ it formalises. -/

open Sys2Proof Sys2Proof.Machine

/-! ## Encoding -/

/-- The worked encodings of 30_encoding.md R130, each way, and its illegal words with the reason for each. -/
def Obligations.WorkedEncodings : Prop :=
  (encode (.bsrGet .bs0 11#6) = 0x12000016#32 ∧ decode 0x12000016#32 = .ok (.bsrGet .bs0 11#6))
    ∧ (encode (.bsrPeek .bs1 32#6) = 0x11000041#32 ∧ decode 0x11000041#32 = .ok (.bsrPeek .bs1 32#6))
    ∧ (encode (.hufPairs .bs0 1#5 8#10) = 0x20000202#32 ∧ decode 0x20000202#32 = .ok (.hufPairs .bs0 1#5 8#10))
    ∧ (encode (.hufQuads .bs0 1#5 576#10) = 0x21009002#32 ∧ decode 0x21009002#32 = .ok (.hufQuads .bs0 1#5 576#10))
    ∧ (encode (.imdctRun 1 .short true) = 0x3000000D#32 ∧ decode 0x3000000D#32 = .ok (.imdctRun 1 .short true))
    ∧ (encode (.synRun true .pcm32) = 0x40000003#32 ∧ decode 0x40000003#32 = .ok (.synRun true .pcm32))
    ∧ (encode (.vmdctRun 11#4) = 0x5000000B#32 ∧ decode 0x5000000B#32 = .ok (.vmdctRun 11#4))
    ∧ decode 0x12000042#32 = .error (.fieldOutOfRange (.bsrGet .bs0 33#6))
    ∧ decode 0x20000042#32 = .error (.fieldOutOfRange (.hufPairs .bs0 1#5 1#10))
    ∧ decode 0x21000004#32 = .error (.fieldOutOfRange (.hufQuads .bs0 2#5 0#10))
    ∧ decode 0x30000008#32 = .error (.fieldOutOfRange (.imdctRun 0 .normal true))
    ∧ decode 0x50000005#32 = .error (.fieldOutOfRange (.vmdctRun 5#4))
    ∧ decode 0x02000000#32 = .error (.unassignedOpcode 0x02#8)
    ∧ decode 0x00000001#32 = .error (.reservedBit 0x00#8)

/-- Decoding the word of a well-formed command gives the command back, every field at every legal value (30_encoding.md R122,
R123, R127). -/
def Obligations.DecodeOfEncode : Prop := ∀ i : Instr, i.WellFormed → decode (encode i) = .ok i

/-- A word that decodes is the word of the command it decodes to, which is well formed: each word has one meaning and no bit of
it is dropped (30_encoding.md R121 to R124). -/
def Obligations.EncodeOfDecode : Prop := ∀ (w : Word) (i : Instr), decode w = .ok i → i.WellFormed ∧ encode i = w

/-- No word is selected by two rows of the opcode map (30_encoding.md R123). -/
def Obligations.OpcodeRowsDisjoint : Prop :=
  ∀ (w : Word) (r q : OpRow), r ∈ opcodeMap → q ∈ opcodeMap → r.selects w = true → q.selects w = true → r = q

/-- 30_encoding.md R124: a word is illegal exactly by its opcode, its reserved bits or its fields, written here on the number of
the word; writing it to `CMD` finishes with `ERR_ILLEGAL_CMD` and changes nothing but `CMD`, `RC`, `R0`, `R1` and `FLAGS` (the draw
number is the model's own). -/
def Obligations.IllegalWordsExactly : Prop :=
  (∀ w : Word, (∃ e, decode w = .error e) ↔ illegalNumber w.toNat)
    ∧ ∀ (s : State) (rest : List HostAction) (w : Word), s.host = .regWrite 0 .word w :: rest → illegalNumber w.toNat →
      step s = .next { s with
        host := rest, cmd := w, draws := s.draws + 1
        rc := 0xFFFFFFFA#32, r0 := 0#32, r1 := 0#32, eob := false, estky := true }

/-! ## Steps and the host -/

/-- A host write to `CMD` of a word that decodes stores the word and runs the command (10_state.md R36, 30_encoding.md R129). The
model's own clauses: the write is the first of the host's pending actions and is taken from them, and `withFetchWord` puts one in front
of them (log entry 1, DESIGN CHOICE); the command takes a new draw number (log entry 10, DESIGN CHOICE). -/
def Obligations.StepRunsDecodedCommand : Prop :=
  (∀ (s : State) (rest : List HostAction) (w : Word) (i : Instr),
      s.host = .regWrite 0 .word w :: rest → decode w = .ok i →
      step s = exec i { s with host := rest, cmd := w, draws := s.draws + 1 })
    ∧ ∀ (s : State) (w : Word) (i : Instr), decode w = .ok i →
      step (s.withFetchWord 32 w.toNat) = exec i { s with cmd := w, draws := s.draws + 1 }

/-- With no host action pending ADB is idle and holds all of its state unchanged (70_reset_and_hazards.md R383). -/
def Obligations.StepIdlesWithoutActions : Prop := ∀ s : State, s.host = [] → step s = .next s

/-- 45_system.md R312, with the register map of 10_state.md R37: a read returns the register's value and changes nothing of ADB; a
write stores to `A0`..`A3`, executes at `CMD` and is ignored elsewhere; other accesses are refused. -/
def Obligations.HostRegisterAccess : Prop :=
  (∀ (s : State) (rest : List HostAction) (off : Nat), s.host = .regRead off .word :: rest → off % 4 = 0 → off ≤ 0x7F →
      step s = .next { s with host := rest, hostData := s.readReg off })
    ∧ (∀ s : State,
      s.readReg 0x00 = s.cmd ∧ s.readReg 0x04 = s.rc ∧ s.readReg 0x0C = s.r0 ∧ s.readReg 0x10 = s.r1
        ∧ s.readReg 0x20 = s.a0 ∧ s.readReg 0x24 = s.a1 ∧ s.readReg 0x28 = s.a2 ∧ s.readReg 0x2C = s.a3
        ∧ s.readReg 0x40 = s.bs0.base ∧ s.readReg 0x44 = s.bs0.len ∧ s.readReg 0x48 = s.bs0.pos
        ∧ s.readReg 0x50 = s.bs1.base ∧ s.readReg 0x54 = s.bs1.len ∧ s.readReg 0x58 = s.bs1.pos
        ∧ (s.readReg 0x08).toNat = s.eob.toNat + 2 * s.estky.toNat
        ∧ (s.readReg 0x4C).toNat = (decide (s.bs0.ord = .lsb)).toNat + 2 * s.bs0.valid.toNat
        ∧ (s.readReg 0x5C).toNat = (decide (s.bs1.ord = .lsb)).toNat + 2 * s.bs1.valid.toNat
        ∧ (s.readReg 0x60).toNat = s.vidx.toNat)
    ∧ (∀ (s : State) (off : Nat),
      off ∉ [0x00, 0x04, 0x08, 0x0C, 0x10, 0x20, 0x24, 0x28, 0x2C, 0x40, 0x44, 0x48, 0x4C, 0x50, 0x54, 0x58, 0x5C, 0x60] →
      s.readReg off = 0#32)
    ∧ (∀ (s : State) (rest : List HostAction) (v : Word),
      (s.host = .regWrite 0x20 .word v :: rest → step s = .next { s with host := rest, a0 := v })
        ∧ (s.host = .regWrite 0x24 .word v :: rest → step s = .next { s with host := rest, a1 := v })
        ∧ (s.host = .regWrite 0x28 .word v :: rest → step s = .next { s with host := rest, a2 := v })
        ∧ (s.host = .regWrite 0x2C .word v :: rest → step s = .next { s with host := rest, a3 := v })
        ∧ (s.host = .regWrite 0x00 .word v :: rest → step s = runCommand v { s with host := rest })
        ∧ ∀ off, off % 4 = 0 → off ≤ 0x7F → off ∉ [0x00, 0x20, 0x24, 0x28, 0x2C] →
          s.host = .regWrite off .word v :: rest → step s = .next { s with host := rest })
    ∧ ∀ (s : State) (rest : List HostAction) (off : Nat) (width : Width) (v : Word),
      (width ≠ .word ∨ off % 4 ≠ 0 ∨ 0x7F < off) →
      (s.host = .regRead off width :: rest ∨ s.host = .regWrite off width v :: rest) →
      step s = .refused .registerAccess

/-- Host accesses to memory between commands, of every width (20_memory.md R80, R81, R93): a write stores its bytes little-endian and
nothing else, a read returns them as an unsigned number, zero-extended, and changes nothing of ADB. The model's own clauses: at any
address, whatever its alignment (log entry 22, DESIGN CHOICE), and as ordinary memory whatever `Accessible` says there (log entry 23,
DESIGN CHOICE); past the top of the address space there is no memory and the register
block is no memory (log entry 14, DEDUCED from R80 and U11). -/
def Obligations.HostMemoryAccess : Prop :=
  (Width.byte.bytes = 1 ∧ Width.half.bytes = 2 ∧ Width.word.bytes = 4)
    ∧ (∀ (s : State) (rest : List HostAction) (a : Nat) (width : Width) (v : Word), s.host = .memWrite a width v :: rest →
      a + width.bytes ≤ 2 ^ 32 → rangesOverlap a width.bytes s.cfg.regBase.toNat 0x80 = false →
      ∃ t, step s = .next t
        ∧ (∀ k < width.bytes, (t.readByte (a + k)).toNat = v.toNat / 2 ^ (8 * k) % 2 ^ 8)
        ∧ keepsMemoryBut s t a width.bytes
        ∧ keepsOperands s t ∧ keepsContexts s t ∧ keepsDsp s t ∧ t.host = rest
        ∧ t.rc = s.rc ∧ t.r0 = s.r0 ∧ t.r1 = s.r1 ∧ t.eob = s.eob ∧ t.estky = s.estky ∧ t.cfg = s.cfg ∧ t.hostData = s.hostData)
    ∧ (∀ (s : State) (rest : List HostAction) (a : Nat) (width : Width), s.host = .memRead a width :: rest →
      a + width.bytes ≤ 2 ^ 32 → rangesOverlap a width.bytes s.cfg.regBase.toNat 0x80 = false →
      ∃ w : Word, step s = .next { s with host := rest, hostData := w }
        ∧ w.toNat = ∑ k ∈ Finset.range width.bytes, (s.readByte (a + k)).toNat * 2 ^ (8 * k))
    ∧ ∀ (s : State) (rest : List HostAction) (a : Nat) (width : Width) (v : Word),
      (s.host = .memWrite a width v :: rest ∨ s.host = .memRead a width :: rest) →
      (2 ^ 32 < a + width.bytes → step s = .fault .outsideAddressSpace)
        ∧ (a + width.bytes ≤ 2 ^ 32 → rangesOverlap a width.bytes s.cfg.regBase.toNat 0x80 = true →
          step s = .refused .memoryActionOnRegisters)

/-- 10_state.md R47: after hardware reset and after `SYS.RESET` every item of R30 is zero, but `CMD` after `SYS.RESET`; memory is not
changed. -/
def Obligations.ResetValues : Prop :=
  (State.reset.a0 = 0#32 ∧ State.reset.a1 = 0#32 ∧ State.reset.a2 = 0#32 ∧ State.reset.a3 = 0#32
      ∧ State.reset.r0 = 0#32 ∧ State.reset.r1 = 0#32 ∧ State.reset.rc = 0#32
      ∧ State.reset.eob = false ∧ State.reset.estky = false ∧ State.reset.cmd = 0#32
      ∧ State.reset.bs0 = ⟨false, .msb, 0#32, 0#32, 0#32⟩ ∧ State.reset.bs1 = ⟨false, .msb, 0#32, 0#32, 0#32⟩
      ∧ (∀ (ch : Channel) (sb : Fin 32) (i : Fin 9), State.reset.ovl[ch][sb][i] = 0#32)
      ∧ (∀ (ch : Channel) (sb : Fin 32), State.reset.prevWin[ch][sb] = .normal)
      ∧ (∀ (ch : Channel) (slot : Fin 8) (i : Fin 64), State.reset.vbuf[ch][slot][i] = 0#32)
      ∧ State.reset.vidx = 0#3)
    ∧ (∀ (s : State) (rest : List HostAction), s.host = .hardReset :: rest →
      step s = .next { State.reset with
        mem := s.mem, draws := s.draws, cfg := s.cfg, host := rest, hostData := s.hostData })
    ∧ ∀ s : State, exec .sysReset s = .next { State.reset with
        cmd := 0x01000000#32, mem := s.mem, draws := s.draws, cfg := s.cfg, host := s.host, hostData := s.hostData }

/-- The return codes of 60_exceptions.md R331 as `RC` holds them, and what `finish` writes (00_scope.md R7): `RC`, the results,
`EOB`, and `ESTKY` on a negative code; nothing else. -/
def Obligations.ReturnCodesAndFinish : Prop :=
  (ReturnCode.none.word = 0#32 ∧ ReturnCode.errHuffOverrun.word.toInt = -1 ∧ ReturnCode.errHuffCode.word.toInt = -2
      ∧ ReturnCode.errHuffTable.word.toInt = -3 ∧ ReturnCode.needMoreData.word.toInt = -4
      ∧ ReturnCode.errOperand.word.toInt = -5 ∧ ReturnCode.errIllegalCmd.word.toInt = -6 ∧ ReturnCode.errBus.word.toInt = -7)
    ∧ ∀ (s : State) (code : ReturnCode) (r0 r1 : Nat) (e : Bool),
      s.finish code r0 r1 e = { s with
        rc := code.word, r0 := BitVec.ofNat 32 r0, r1 := BitVec.ofNat 32 r1, eob := e,
        estky := s.estky || decide (code.word.toInt < 0) }

/-! ## System commands -/

/-- 45_system.md R310: `SYS.NOP` is the all-zero word; it writes `RC` = 0, `R0` = `R1` = 0, `EOB` = 0 and nothing else; any other word
with `OPC` 0x00 is illegal. -/
def Obligations.SysNopResult : Prop :=
  decode 0x00000000#32 = .ok .sysNop
    ∧ (∀ s : State, exec .sysNop s = .next { s with rc := 0#32, r0 := 0#32, r1 := 0#32, eob := false })
    ∧ ∀ w : Word, w.toNat / 2 ^ 24 = 0 → w ≠ 0#32 → ∃ e, decode w = .error e

/-- 45_system.md R311: `SYS.RESET` is the word 0x01000000; every item of state takes its reset value, but `CMD` holds the word; both
flags are cleared; memory is not touched. -/
def Obligations.SysResetResult : Prop :=
  decode 0x01000000#32 = .ok .sysReset
    ∧ ∀ s : State, ∃ t, exec .sysReset s = .next t
      ∧ t.a0 = 0#32 ∧ t.a1 = 0#32 ∧ t.a2 = 0#32 ∧ t.a3 = 0#32 ∧ t.r0 = 0#32 ∧ t.r1 = 0#32 ∧ t.rc = 0#32
      ∧ t.eob = false ∧ t.estky = false ∧ t.cmd = 0x01000000#32
      ∧ t.bs0 = ⟨false, .msb, 0#32, 0#32, 0#32⟩ ∧ t.bs1 = ⟨false, .msb, 0#32, 0#32, 0#32⟩
      ∧ (∀ (ch : Channel) (sb : Fin 32), t.ovl[ch][sb] = zeros 9 ∧ t.prevWin[ch][sb] = .normal)
      ∧ (∀ (ch : Channel) (slot : Fin 8), t.vbuf[ch][slot] = zeros 64) ∧ t.vidx = 0#3
      ∧ t.mem = s.mem ∧ keepsOutside s t

/-! ## The bitstream reader -/

/-- 40_bitreader.md R160: on a context that is not valid these commands finish with `ERR_OPERAND` and change nothing else. -/
def Obligations.InvalidContextRejected : Prop :=
  ∀ (c : CtxId) (n : BitVec 6) (tab : BitVec 5) (nv : BitVec 10) (s : State), (s.ctx c).valid = false →
    ∀ i ∈ [Instr.bsrPeek c n, .bsrGet c n, .bsrSkip c n, .bsrSkipr c, .hufPairs c tab nv, .hufQuads c tab nv],
      exec i s = .next { s with rc := 0xFFFFFFFB#32, r0 := 0#32, r1 := 0#32, eob := false, estky := true }

/-- 40_bitreader.md R161: `BSR.INIT` sets the origin of a context when the length is at most `LENMAX`, the buffer does not wrap and is
readable; else it fails and the context is unchanged. From then on no bit of the buffer counts as changed: the clauses on `stale` are the
model's reading of 70_reset_and_hazards.md R375 (log entry 9, its bookkeeping a DESIGN CHOICE). -/
def Obligations.BsrInitResult : Prop :=
  (∀ (c : CtxId) (ord : BitOrder) (s : State),
      s.a1.toNat ≤ 2 ^ 29 - 1 → s.a0.toNat + s.a1.toNat ≤ 2 ^ 32 →
      (0 < s.a1.toNat → accessible s.cfg s.a0.toNat s.a1.toNat .read = true) →
      ∃ t, exec (.bsrInit c ord) s = .next t
        ∧ t.ctx c = { valid := true, ord := ord, base := s.a0, len := s.a1, pos := 0#32 } ∧ t.stale c = []
        ∧ (∀ d, d ≠ c → t.ctx d = s.ctx d ∧ t.stale d = s.stale d)
        ∧ reports s t 0 (8 * s.a1.toNat) ∧ t.mem = s.mem ∧ keepsOperands s t ∧ keepsDsp s t ∧ keepsOutside s t)
    ∧ (∀ (c : CtxId) (ord : BitOrder) (s : State),
      (2 ^ 29 - 1 < s.a1.toNat ∨ 2 ^ 32 < s.a0.toNat + s.a1.toNat) →
      exec (.bsrInit c ord) s = .next (s.fail .errOperand 0))
    ∧ ∀ (c : CtxId) (ord : BitOrder) (s : State),
      s.a1.toNat ≤ 2 ^ 29 - 1 → s.a0.toNat + s.a1.toNat ≤ 2 ^ 32 → 0 < s.a1.toNat →
      accessible s.cfg s.a0.toNat s.a1.toNat .read = false →
      exec (.bsrInit c ord) s = .next (s.fail .errBus 0)

/-- 40_bitreader.md R162: `BSR.PEEK` returns the bits there are, as if zero bits followed, their number in `R1`, and `EOB`; it changes
no cursor, and `R0` fits in `N` bits. -/
def Obligations.BsrPeekResult : Prop :=
  ∀ (c : CtxId) (n : BitVec 6) (s : State), n.toNat ≤ 32 → (s.ctx c).valid = true →
    let k := min n.toNat (8 * (s.ctx c).len.toNat - (s.ctx c).pos.toNat)
    let v := s.take c (s.ctx c).pos.toNat k
    ∃ t, exec (.bsrPeek c n) s = .next t
      ∧ ((s.ctx c).ord = .msb → t.r0.toNat = v * 2 ^ (n.toNat - k))
      ∧ ((s.ctx c).ord = .lsb → t.r0.toNat = v)
      ∧ t.r0.toNat < 2 ^ n.toNat
      ∧ t = { s with rc := 0#32, r0 := t.r0, r1 := BitVec.ofNat 32 k, eob := decide (k < n.toNat) }

/-- 40_bitreader.md R163: `BSR.GET` returns `N` bits and moves the cursor by `N`, or finds fewer, consumes none and reports how many
remain. -/
def Obligations.BsrGetResult : Prop :=
  ∀ (c : CtxId) (n : BitVec 6) (s : State), n.toNat ≤ 32 → (s.ctx c).valid = true → (s.ctx c).Sound →
    let avail := 8 * (s.ctx c).len.toNat - (s.ctx c).pos.toNat
    (n.toNat ≤ avail → ∃ t, exec (.bsrGet c n) s = .next t
        ∧ reports s t (s.take c (s.ctx c).pos.toNat n.toNat) n.toNat
        ∧ t.ctx c = { s.ctx c with pos := (t.ctx c).pos } ∧ (t.ctx c).pos.toNat = (s.ctx c).pos.toNat + n.toNat
        ∧ (∀ d, d ≠ c → t.ctx d = s.ctx d)
        ∧ t.mem = s.mem ∧ t.stale0 = s.stale0 ∧ t.stale1 = s.stale1
        ∧ keepsOperands s t ∧ keepsDsp s t ∧ keepsOutside s t)
      ∧ (avail < n.toNat → exec (.bsrGet c n) s = .next (s.fail .needMoreData avail))

/-- 40_bitreader.md R164: `BSR.SKIP` moves the cursor as `BSR.GET` does and returns `R0` = 0. -/
def Obligations.BsrSkipResult : Prop :=
  ∀ (c : CtxId) (n : BitVec 6) (s : State), n.toNat ≤ 32 → (s.ctx c).valid = true → (s.ctx c).Sound →
    let avail := 8 * (s.ctx c).len.toNat - (s.ctx c).pos.toNat
    (n.toNat ≤ avail → ∃ t, exec (.bsrSkip c n) s = .next t
        ∧ reports s t 0 n.toNat
        ∧ t.ctx c = { s.ctx c with pos := (t.ctx c).pos } ∧ (t.ctx c).pos.toNat = (s.ctx c).pos.toNat + n.toNat
        ∧ (∀ d, d ≠ c → t.ctx d = s.ctx d)
        ∧ t.mem = s.mem ∧ t.stale0 = s.stale0 ∧ t.stale1 = s.stale1
        ∧ keepsOperands s t ∧ keepsDsp s t ∧ keepsOutside s t)
      ∧ (avail < n.toNat → exec (.bsrSkip c n) s = .next (s.fail .needMoreData avail))

/-- 40_bitreader.md R165: `BSR.SKIPR` moves the cursor by `A1`, with no wrap-around in the comparison or the sum. -/
def Obligations.BsrSkiprResult : Prop :=
  ∀ (c : CtxId) (s : State), (s.ctx c).valid = true → (s.ctx c).Sound →
    let avail := 8 * (s.ctx c).len.toNat - (s.ctx c).pos.toNat
    (s.a1.toNat ≤ avail → ∃ t, exec (.bsrSkipr c) s = .next t
        ∧ reports s t 0 s.a1.toNat
        ∧ t.ctx c = { s.ctx c with pos := (t.ctx c).pos } ∧ (t.ctx c).pos.toNat = (s.ctx c).pos.toNat + s.a1.toNat
        ∧ (∀ d, d ≠ c → t.ctx d = s.ctx d)
        ∧ t.mem = s.mem ∧ t.stale0 = s.stale0 ∧ t.stale1 = s.stale1
        ∧ keepsOperands s t ∧ keepsDsp s t ∧ keepsOutside s t)
      ∧ (avail < s.a1.toNat → exec (.bsrSkipr c) s = .next (s.fail .needMoreData avail))

/-- 20_memory.md R82: which bit of which byte a stream bit is, `take` as the sums of the rule, and a mixed-width access. The buffer has
not changed since `BSR.INIT` (70_reset_and_hazards.md R375). -/
def Obligations.StreamBitOrder : Prop :=
  (∀ (s : State) (c : CtxId) (j : Nat), s.stale c = [] →
      s.sbit c j = (s.readByte ((s.ctx c).base.toNat + j / 8)).getLsbD
        (if (s.ctx c).ord = .msb then 7 - j % 8 else j % 8))
    ∧ (∀ (s : State) (c : CtxId) (p k : Nat), (s.ctx c).ord = .msb →
      s.take c p k = ∑ i ∈ Finset.range k, (s.sbit c (p + i)).toNat * 2 ^ (k - 1 - i))
    ∧ (∀ (s : State) (c : CtxId) (p k : Nat), (s.ctx c).ord = .lsb →
      s.take c p k = ∑ i ∈ Finset.range k, (s.sbit c (p + i)).toNat * 2 ^ i)
    ∧ ∀ (s : State) (c : CtxId) (p a b : Nat),
      ((s.ctx c).ord = .msb → s.take c p (a + b) = s.take c p a * 2 ^ b + s.take c (p + a) b)
        ∧ ((s.ctx c).ord = .lsb → s.take c p (a + b) = s.take c p a + s.take c (p + a) b * 2 ^ a)

/-- 40_bitreader.md R166, the composition law, on runs of commands: two `GET`s give what one gives, and `PEEK` what `GET` would. The
buffer has not changed since `BSR.INIT` (70_reset_and_hazards.md R375). -/
def Obligations.GetComposition : Prop :=
  ∀ (c : CtxId) (a b n : BitVec 6) (s : State),
    (s.ctx c).valid = true → (s.ctx c).Sound → s.stale c = [] →
    n.toNat = a.toNat + b.toNat → n.toNat ≤ 32 → n.toNat ≤ (s.ctx c).avail →
    ∃ t u v p,
      step (s.withFetchWord 32 (encode (.bsrGet c a)).toNat) = .next t
      ∧ step (t.withFetchWord 32 (encode (.bsrGet c b)).toNat) = .next u
      ∧ step (s.withFetchWord 32 (encode (.bsrGet c n)).toNat) = .next v
      ∧ step (s.withFetchWord 32 (encode (.bsrPeek c n)).toNat) = .next p
      ∧ t.rc = 0#32 ∧ u.rc = 0#32 ∧ v.rc = 0#32 ∧ p.rc = 0#32
      ∧ ((s.ctx c).ord = .msb → v.r0.toNat = t.r0.toNat * 2 ^ b.toNat + u.r0.toNat)
      ∧ ((s.ctx c).ord = .lsb → v.r0.toNat = t.r0.toNat + u.r0.toNat * 2 ^ a.toNat)
      ∧ u.ctx c = v.ctx c ∧ p.r0 = v.r0 ∧ p.ctx c = s.ctx c

/-! ## The Huffman decoder -/

/-- 41_huffman.md R192: the checks common to `HUF.PAIRS` and `HUF.QUADS`, in their order, each failing before anything is changed. Check (3)
holds for `NV` = 0 too, as R192 words it (log entry 11). -/
def Obligations.HuffmanChecksInOrder : Prop :=
  ∀ (c : CtxId) (tab : BitVec 5) (nv : BitVec 10) (s : State),
    ∀ i ∈ [Instr.hufPairs c tab nv, .hufQuads c tab nv],
      let x := s.ctx c
      let present := (i = .hufPairs c tab nv ∧ pairTable s.cfg tab ≠ .absent) ∨ (i = .hufQuads c tab nv ∧ quadTable s.cfg tab ≠ none)
      if x.valid = false then exec i s = .next (s.fail .errOperand 0)
      else if x.ord ≠ .msb then exec i s = .next (s.fail .errOperand 0)
      else if ¬(s.a0.toNat % 4 = 0 ∧ s.a0.toNat + 4 * nv.toNat ≤ 2 ^ 32) then exec i s = .next (s.fail .errOperand 0)
      else if 0 < nv.toNat ∧ rangesOverlap s.a0.toNat (4 * nv.toNat) x.base.toNat x.len.toNat = true then
        exec i s = .next (s.fail .errOperand 0)
      else if 0 < nv.toNat ∧ accessible s.cfg s.a0.toNat (4 * nv.toNat) .write = false then
        exec i s = .next (s.fail .errBus 0)
      else if 8 * x.len.toNat - x.pos.toNat < s.a1.toNat then
        exec i s = .next (s.fail .needMoreData (8 * x.len.toNat - x.pos.toNat))
      else if ¬present then exec i s = .next (s.fail .errHuffTable 0)
      else True

/-- 41_huffman.md R191: codeword matching on a well-formed table. A codeword that lies inside the available bits and equals them is
found; else a codeword that they begin gives `Overrun`; else there is no codeword; only available bits are examined. -/
def Obligations.CodewordMatching : Prop :=
  ∀ (ε : Type) (str : ε → List Bool) (entries : List ε) (bit : Nat → Bool) (avail used : Nat),
    codeWellFormed (entries.map str) = true →
    let full := fun e => (str e).length ≤ avail - used ∧ ∀ i b, (str e)[i]? = some b → bit (used + i) = b
    let cut := fun e => avail - used < (str e).length ∧ ∀ i b, i < avail - used → (str e)[i]? = some b → bit (used + i) = b
    (∀ e ∈ entries, full e → matchCode str entries bit avail used = .found e)
      ∧ ((∀ e ∈ entries, ¬full e) → (∃ e ∈ entries, cut e) → matchCode str entries bit avail used = .overrun)
      ∧ ((∀ e ∈ entries, ¬full e) → (∀ e ∈ entries, ¬cut e) → matchCode str entries bit avail used = .noCode)
      ∧ ∀ bit' : Nat → Bool, (∀ i, used ≤ i → i < avail → bit' i = bit i) →
        matchCode str entries bit' avail used = matchCode str entries bit avail used

/-- 41_huffman.md R193: on a stream that goes on with a coefficient's linbits and sign, `tail` gives its word and the bits it takes; it
is `Overrun` exactly when they pass the available bits; magnitudes stay at most 8206. -/
def Obligations.TailOfCoefficient : Prop :=
  (∀ (q : Coefficient) (linbits maxv : Nat) (bit : Nat → Bool) (avail used : Nat),
      q.raw < 2 ^ linbits → used ≤ avail →
      (∀ i b, used + i < avail → (q.bits linbits maxv)[i]? = some b → bit (used + i) = b) →
      tail bit avail q.mag linbits maxv used =
        if used + (q.bits linbits maxv).length ≤ avail
        then some (q.word linbits maxv, used + (q.bits linbits maxv).length) else none)
    ∧ ∀ (q : Coefficient) (linbits maxv : Nat), q.mag ≤ 15 → linbits ≤ 13 → q.raw < 2 ^ linbits → q.value linbits maxv ≤ 8206

/-- 41_huffman.md R194: on a stream of encoded pairs `HUF.PAIRS` writes the pairs' words, consumes exactly their bits and moves the
cursor by them. -/
def Obligations.PairsDecodeEncodedStream : Prop :=
  ∀ (c : CtxId) (tab : BitVec 5) (nv : BitVec 10) (s : State) (code : PairCode) (items : List PairItem),
    HuffmanReady c nv.toNat s → (s.ctx c).Sound → pairTable s.cfg tab = .code code →
    nv.toNat = 2 * items.length → (∀ p ∈ items, p.ofTable code) →
    streamStartsWith s c (items.flatMap (PairItem.bits code)) → (items.flatMap (PairItem.bits code)).length ≤ s.a1.toNat →
    ∃ t, exec (.hufPairs c tab nv) s = .next t
      ∧ reports s t (items.flatMap (PairItem.bits code)).length nv.toNat
      ∧ (∀ j w, (items.flatMap (PairItem.words code))[j]? = some w → t.readWord (s.a0.toNat + 4 * j) = w)
      ∧ t.ctx c = { s.ctx c with pos := (t.ctx c).pos }
      ∧ (t.ctx c).pos.toNat = (s.ctx c).pos.toNat + (items.flatMap (PairItem.bits code)).length
      ∧ (∀ d, d ≠ c → t.ctx d = s.ctx d)
      ∧ keepsMemoryBut s t s.a0.toNat (4 * nv.toNat) ∧ keepsOperands s t ∧ keepsDsp s t ∧ keepsOutside s t

/-- 41_huffman.md R194, the table with no codewords: `HUF.PAIRS` writes `NV` zero words and consumes nothing. -/
def Obligations.PairsOfZeroTable : Prop :=
  ∀ (c : CtxId) (tab : BitVec 5) (nv : BitVec 10) (s : State),
    HuffmanReady c nv.toNat s → pairTable s.cfg tab = .zero → (Instr.hufPairs c tab nv).WellFormed →
    ∃ t, exec (.hufPairs c tab nv) s = .next t
      ∧ reports s t 0 nv.toNat
      ∧ (∀ j, j < nv.toNat → t.readWord (s.a0.toNat + 4 * j) = 0#32)
      ∧ keepsContexts s t
      ∧ keepsMemoryBut s t s.a0.toNat (4 * nv.toNat) ∧ keepsOperands s t ∧ keepsDsp s t ∧ keepsOutside s t

/-- 41_huffman.md R195: on a stream of encoded quads that ends where the available bits end, or that fills the room, `HUF.QUADS` writes the
quads' words, zero-fills the rest of the room, and moves the cursor by the bits consumed. -/
def Obligations.QuadsDecodeEncodedStream : Prop :=
  ∀ (c : CtxId) (tab : BitVec 5) (nv : BitVec 10) (s : State) (code : QuadCode) (items : List QuadItem),
    HuffmanReady c nv.toNat s → (s.ctx c).Sound → quadTable s.cfg tab = some code →
    (∀ q ∈ items, q.entry ∈ code.entries) → 4 * items.length ≤ nv.toNat →
    streamStartsWith s c (items.flatMap QuadItem.bits) → (items.flatMap QuadItem.bits).length ≤ s.a1.toNat →
    ((items.flatMap QuadItem.bits).length = s.a1.toNat ∨ nv.toNat < 4 * items.length + 4) →
    ∃ t, exec (.hufQuads c tab nv) s = .next t
      ∧ reports s t (items.flatMap QuadItem.bits).length (4 * items.length)
      ∧ (∀ j w, (items.flatMap QuadItem.words)[j]? = some w → t.readWord (s.a0.toNat + 4 * j) = w)
      ∧ (∀ j, 4 * items.length ≤ j → j < nv.toNat → t.readWord (s.a0.toNat + 4 * j) = 0#32)
      ∧ t.ctx c = { s.ctx c with pos := (t.ctx c).pos }
      ∧ (t.ctx c).pos.toNat = (s.ctx c).pos.toNat + (items.flatMap QuadItem.bits).length
      ∧ (∀ d, d ≠ c → t.ctx d = s.ctx d)
      ∧ keepsMemoryBut s t s.a0.toNat (4 * nv.toNat) ∧ keepsOperands s t ∧ keepsDsp s t ∧ keepsOutside s t

/-- 41_huffman.md R198 (c) and the source's truncation property: when the bits available end inside an encoded stream of pairs,
`HUF.PAIRS` fails with `ERR_HUFF_OVERRUN`; all the pairs that fit in them, `k`, are written, `R1` counts their values, and the cursor stays. -/
def Obligations.TruncatedPairsOverrun : Prop :=
  ∀ (c : CtxId) (tab : BitVec 5) (nv : BitVec 10) (s : State) (code : PairCode) (items : List PairItem),
    HuffmanReady c nv.toNat s → pairTable s.cfg tab = .code code →
    nv.toNat = 2 * items.length → (∀ p ∈ items, p.ofTable code) →
    s.a1.toNat < (items.flatMap (PairItem.bits code)).length →
    (∀ i b, i < s.a1.toNat → (items.flatMap (PairItem.bits code))[i]? = some b → s.commandBit c i = b) →
    ∃ t k, exec (.hufPairs c tab nv) s = .next t
      ∧ k < items.length ∧ ((items.take k).flatMap (PairItem.bits code)).length ≤ s.a1.toNat
      ∧ s.a1.toNat < ((items.take (k + 1)).flatMap (PairItem.bits code)).length
      ∧ t.rc = 0xFFFFFFFF#32 ∧ t.r0 = 0#32 ∧ t.r1.toNat = 2 * k ∧ t.eob = false ∧ t.estky = true
      ∧ (∀ j w, ((items.take k).flatMap (PairItem.words code))[j]? = some w → t.readWord (s.a0.toNat + 4 * j) = w)
      ∧ keepsContexts s t
      ∧ keepsMemoryBut s t s.a0.toNat (8 * k) ∧ keepsOperands s t ∧ keepsDsp s t ∧ keepsOutside s t

/-- 41_huffman.md R195 and R198 (c): when the bits available end inside an encoded stream of quads and not between two of them,
`HUF.QUADS` fails with `ERR_HUFF_OVERRUN`; all the quads that fit in them, `k`, are written, `R1` counts their values, nothing is
zero-filled, and the cursor stays. -/
def Obligations.TruncatedQuadsOverrun : Prop :=
  ∀ (c : CtxId) (tab : BitVec 5) (nv : BitVec 10) (s : State) (code : QuadCode) (items : List QuadItem),
    HuffmanReady c nv.toNat s → quadTable s.cfg tab = some code →
    (∀ q ∈ items, q.entry ∈ code.entries) → 4 * items.length ≤ nv.toNat →
    s.a1.toNat < (items.flatMap QuadItem.bits).length →
    (∀ k, ((items.take k).flatMap QuadItem.bits).length ≠ s.a1.toNat) →
    (∀ i b, i < s.a1.toNat → (items.flatMap QuadItem.bits)[i]? = some b → s.commandBit c i = b) →
    ∃ t k, exec (.hufQuads c tab nv) s = .next t
      ∧ k < items.length ∧ ((items.take k).flatMap QuadItem.bits).length < s.a1.toNat
      ∧ s.a1.toNat < ((items.take (k + 1)).flatMap QuadItem.bits).length
      ∧ t.rc = 0xFFFFFFFF#32 ∧ t.r0 = 0#32 ∧ t.r1.toNat = 4 * k ∧ t.eob = false ∧ t.estky = true
      ∧ (∀ j w, ((items.take k).flatMap QuadItem.words)[j]? = some w → t.readWord (s.a0.toNat + 4 * j) = w)
      ∧ keepsContexts s t
      ∧ keepsMemoryBut s t s.a0.toNat (16 * k) ∧ keepsOperands s t ∧ keepsDsp s t ∧ keepsOutside s t

/-- 41_huffman.md R191 (3), R194, R195: where elements are still wanted and every codeword of the table differs from the stream in an
available bit, the command fails with `ERR_HUFF_CODE`; the elements before are written, `R1` counts their values, and the cursor stays. -/
def Obligations.InvalidCodewordStops : Prop :=
  (∀ (c : CtxId) (tab : BitVec 5) (nv : BitVec 10) (s : State) (code : PairCode) (items : List PairItem),
    HuffmanReady c nv.toNat s → pairTable s.cfg tab = .code code →
    (∀ p ∈ items, p.ofTable code) → 2 * items.length + 2 ≤ nv.toNat →
    streamStartsWith s c (items.flatMap (PairItem.bits code)) →
    let used := (items.flatMap (PairItem.bits code)).length
    (∀ e ∈ code.entries, ∃ i b, e.bits[i]? = some b ∧ used + i < s.a1.toNat ∧ s.commandBit c (used + i) ≠ b) →
    ∃ t, exec (.hufPairs c tab nv) s = .next t
      ∧ t.rc = 0xFFFFFFFE#32 ∧ t.r0 = 0#32 ∧ t.r1.toNat = 2 * items.length ∧ t.eob = false ∧ t.estky = true
      ∧ (∀ j w, (items.flatMap (PairItem.words code))[j]? = some w → t.readWord (s.a0.toNat + 4 * j) = w)
      ∧ keepsContexts s t
      ∧ keepsMemoryBut s t s.a0.toNat (8 * items.length) ∧ keepsOperands s t ∧ keepsDsp s t ∧ keepsOutside s t)
  ∧ ∀ (c : CtxId) (tab : BitVec 5) (nv : BitVec 10) (s : State) (code : QuadCode) (items : List QuadItem),
    HuffmanReady c nv.toNat s → quadTable s.cfg tab = some code →
    (∀ q ∈ items, q.entry ∈ code.entries) → 4 * items.length + 4 ≤ nv.toNat →
    streamStartsWith s c (items.flatMap QuadItem.bits) →
    let used := (items.flatMap QuadItem.bits).length
    (∀ e ∈ code.entries, ∃ i b, e.bits[i]? = some b ∧ used + i < s.a1.toNat ∧ s.commandBit c (used + i) ≠ b) →
    ∃ t, exec (.hufQuads c tab nv) s = .next t
      ∧ t.rc = 0xFFFFFFFE#32 ∧ t.r0 = 0#32 ∧ t.r1.toNat = 4 * items.length ∧ t.eob = false ∧ t.estky = true
      ∧ (∀ j w, (items.flatMap QuadItem.words)[j]? = some w → t.readWord (s.a0.toNat + 4 * j) = w)
      ∧ keepsContexts s t
      ∧ keepsMemoryBut s t s.a0.toNat (16 * items.length) ∧ keepsOperands s t ∧ keepsDsp s t ∧ keepsOutside s t

/-- 41_huffman.md R197: every word a Huffman command writes is a sign and a small magnitude, and zero is always 0x00000000; the zero fill of
`HUF.QUADS` included. -/
def Obligations.HuffmanOutputWords : Prop :=
  ∀ (c : CtxId) (tab : BitVec 5) (nv : BitVec 10) (s t : State),
    ∀ i ∈ [Instr.hufPairs c tab nv, .hufQuads c tab nv], i.WellFormed → exec i s = .next t →
      ∀ j, (t.rc = 0#32 ∧ j < nv.toNat) ∨ ((t.rc = 0xFFFFFFFF#32 ∨ t.rc = 0xFFFFFFFE#32) ∧ j < t.r1.toNat) →
        (t.readWord (s.a0.toNat + 4 * j)).toNat % 2 ^ 31 ≤ 8206
          ∧ t.readWord (s.a0.toNat + 4 * j) ≠ 0x80000000#32

/-- 41_huffman.md R198 (a) and (b), 20_memory.md R92: the results of a Huffman command depend on no stream bit outside the `A1` available ones,
and on no byte of memory outside the buffer: two states that agree there give the same results and write the same words. -/
def Obligations.HuffmanReadsOnlyAvailableBits : Prop :=
  ∀ (c : CtxId) (tab : BitVec 5) (nv : BitVec 10) (s s' : State) (m : Memory) (q0 q1 : StaleMap) (d : Nat),
    s' = { s with mem := m, stale0 := q0, stale1 := q1, draws := d } →
    ((∀ i, i < s.a1.toNat → s'.commandBit c i = s.commandBit c i)
      ∨ (q0 = s.stale0 ∧ q1 = s.stale1 ∧ d = s.draws
        ∧ ∀ a, (s.ctx c).base.toNat ≤ a → a < (s.ctx c).base.toNat + (s.ctx c).len.toNat → s'.readByte a = s.readByte a)) →
    ∀ i ∈ [Instr.hufPairs c tab nv, .hufQuads c tab nv], i.WellFormed →
      ∃ t t', exec i s = .next t ∧ exec i s' = .next t'
        ∧ t'.rc = t.rc ∧ t'.r0 = t.r0 ∧ t'.r1 = t.r1 ∧ t'.eob = t.eob ∧ t'.estky = t.estky ∧ keepsContexts t t'
        ∧ ∀ j, (t.rc = 0#32 ∧ j < nv.toNat) ∨ ((t.rc = 0xFFFFFFFF#32 ∨ t.rc = 0xFFFFFFFE#32) ∧ j < t.r1.toNat) →
          t'.readWord (s.a0.toNat + 4 * j) = t.readWord (s.a0.toNat + 4 * j)

/-- 41_huffman.md R200: a `HUF.PAIRS` that succeeds with `R0 = u` does the same for any bits-available from `u` to what the buffer holds; so does a
`HUF.QUADS` that ended by lack of room. -/
def Obligations.MonotoneInAvailableBits : Prop :=
  (∀ (c : CtxId) (tab : BitVec 5) (nv : BitVec 10) (s t : State) (b : Word),
      exec (.hufPairs c tab nv) s = .next t → t.rc = 0#32 → t.r0.toNat ≤ b.toNat → b.toNat ≤ (s.ctx c).avail →
      exec (.hufPairs c tab nv) { s with a1 := b } = .next { t with a1 := b })
    ∧ ∀ (c : CtxId) (tab : BitVec 5) (nv : BitVec 10) (s t : State) (b : Word),
      exec (.hufQuads c tab nv) s = .next t → t.rc = 0#32 → nv.toNat < t.r1.toNat + 4 →
      t.r0.toNat ≤ b.toNat → b.toNat ≤ (s.ctx c).avail →
      exec (.hufQuads c tab nv) { s with a1 := b } = .next { t with a1 := b }

/-! ## The hybrid inverse transform -/

/-- 42_imdct.md R232: window classes and alias-reduction boundaries of every legal `BT` and `MIX`. -/
def Obligations.WindowClassTable : Prop :=
  (∀ (bt : WindowClass) (sb : Fin 32), windowClass bt false sb.val = bt)
    ∧ (∀ sb : Fin 32, windowClass .short true sb.val = if sb.val < 2 then .normal else .short)
    ∧ aliasBoundaries .normal false = 31 ∧ aliasBoundaries .start false = 31 ∧ aliasBoundaries .stop false = 31
    ∧ aliasBoundaries .short false = 0 ∧ aliasBoundaries .short true = 1
    ∧ ∀ bt : WindowClass, bt ≠ .short → (Instr.imdctRun 0 bt true).wellFormed = false ∧ (Instr.imdctRun 1 bt true).wellFormed = false

/-- 42_imdct.md R233: alias reduction goes through the boundaries in increasing order, each step on the result of the one before, and leaves
the subbands beyond the last boundary unchanged. -/
def Obligations.AliasReductionOrder : Prop :=
  ∀ cfg : Config,
    (∀ x : Granule, aliasReduce cfg x 0 = x)
    ∧ (∀ (x : Granule) (nb : Nat) (h : nb + 1 < 32),
      ((aliasReduce cfg x (nb + 1))[nb], (aliasReduce cfg x (nb + 1))[nb + 1])
        = aliasK cfg (aliasReduce cfg x nb)[nb] (aliasReduce cfg x nb)[nb + 1])
    ∧ (∀ (x : Granule) (nb j : Nat) (h : nb + 1 < 32) (hj : j < 32), j ≠ nb → j ≠ nb + 1 →
      (aliasReduce cfg x (nb + 1))[j] = (aliasReduce cfg x nb)[j])
    ∧ ∀ (x : Granule) (nb j : Nat) (hj : j < 32), nb < j → (aliasReduce cfg x nb)[j] = x[j]

/-- The failures of 42_imdct.md R234: misaligned, wrapping or overlapping regions give `ERR_OPERAND`, else inaccessible ones `ERR_BUS`, before any
change. -/
def Obligations.ImdctFailures : Prop :=
  ∀ (ch : Channel) (bt : WindowClass) (mix : Bool) (s : State),
    let bad := s.a0.toNat % 4 ≠ 0 ∨ s.a1.toNat % 4 ≠ 0 ∨ 2 ^ 32 < s.a0.toNat + 2304 ∨ 2 ^ 32 < s.a1.toNat + 2304
      ∨ rangesOverlap s.a0.toNat 2304 s.a1.toNat 2304 = true
    (bad → exec (.imdctRun ch bt mix) s = .next (s.fail .errOperand 0))
      ∧ (¬bad → (accessible s.cfg s.a0.toNat 2304 .read = false ∨ accessible s.cfg s.a1.toNat 2304 .write = false) →
        exec (.imdctRun ch bt mix) s = .next (s.fail .errBus 0))

/-- 42_imdct.md R234 with R230, R233, R235, R237. First the layout of the input (R230): word `18*sb + k` is coefficient `k` of subband
`sb`. Then: `IMDCT.RUN` completes; when every input word has its guard bit, the output words, the new overlap and the window classes are
those of the rule; whatever the input, nothing else changes, and `PREVWIN` is written. -/
def Obligations.ImdctResult : Prop :=
  (∀ (s : State) (b : Nat) (sb : Fin 32) (k : Fin 18), (s.readGranule b)[sb][k] = s.readWord (b + 4 * (18 * sb.val + k.val)))
  ∧ ∀ (ch : Channel) (bt : WindowClass) (mix : Bool) (s : State), ImdctReady s →
    ∃ t, exec (.imdctRun ch bt mix) s = .next t
      ∧ reports s t 0 0
      ∧ ((∀ j : Fin 576, 1 ≤ gbits (s.readWord (s.a0.toNat + 4 * j.val))) →
        ∀ sb : Fin 32,
          let z := (aliasReduce s.cfg (s.readGranule s.a0.toNat) (aliasBoundaries bt mix))[sb]
          let wc := windowClass bt mix sb.val
          let r := if wc = .short then imdctShortK s.cfg z s.ovl[ch][sb] s.prevWin[ch][sb]
            else imdctLongK s.cfg z s.ovl[ch][sb] wc s.prevWin[ch][sb]
          t.ovl[ch][sb] = r.2
            ∧ ∀ k : Fin 18, t.readWord (s.a1.toNat + 4 * (32 * k.val + sb.val)) =
              if sb.val % 2 = 1 ∧ k.val % 2 = 1 then neg32 r.1[k] else r.1[k])
      ∧ (∀ sb : Fin 32, t.prevWin[ch][sb] = windowClass bt mix sb.val)
      ∧ (∀ d : Channel, d ≠ ch → t.ovl[d] = s.ovl[d] ∧ t.prevWin[d] = s.prevWin[d])
      ∧ t.vbuf = s.vbuf ∧ t.vidx = s.vidx
      ∧ keepsMemoryBut s t s.a1.toNat 2304 ∧ keepsOperands s t ∧ keepsContexts s t ∧ keepsOutside s t

/-- The example of 42_imdct.md R234, by KP2 of R231: on all-zero input with zero overlap, whatever the window classes, `IMDCT.RUN` writes 576 zero words and
leaves the overlap zero. -/
def Obligations.ImdctSilence : Prop :=
  ∀ (ch : Channel) (bt : WindowClass) (mix : Bool) (s : State), ImdctReady s →
    (∀ j : Fin 576, s.readWord (s.a0.toNat + 4 * j.val) = 0#32) → (∀ sb : Fin 32, s.ovl[ch][sb] = zeros 9) →
    ∃ t, exec (.imdctRun ch bt mix) s = .next t ∧ t.rc = 0#32
      ∧ (∀ j : Fin 576, t.readWord (s.a1.toNat + 4 * j.val) = 0#32)
      ∧ ∀ sb : Fin 32, t.ovl[ch][sb] = zeros 9 ∧ t.prevWin[ch][sb] = windowClass bt mix sb.val

/-! ## Synthesis -/

/-- The failures of 43_synthesis.md R262; `A1` is ignored in mono. -/
def Obligations.SynFailures : Prop :=
  ∀ (stereo : Bool) (fmt : PcmFormat) (s : State),
    let n := match fmt with
      | .pcm16 => if stereo then 128 else 64
      | .pcm32 => 256
    let al := match fmt with
      | .pcm16 => 2
      | .pcm32 => 4
    let bad := s.a0.toNat % 4 ≠ 0 ∨ 2 ^ 32 < s.a0.toNat + 128
      ∨ (stereo = true ∧ (s.a1.toNat % 4 ≠ 0 ∨ 2 ^ 32 < s.a1.toNat + 128))
      ∨ s.a2.toNat % al ≠ 0 ∨ 2 ^ 32 < s.a2.toNat + n
      ∨ rangesOverlap s.a2.toNat n s.a0.toNat 128 = true
      ∨ (stereo = true ∧ rangesOverlap s.a2.toNat n s.a1.toNat 128 = true)
    (bad → exec (.synRun stereo fmt) s = .next (s.fail .errOperand 0))
      ∧ (¬bad → (accessible s.cfg s.a0.toNat 128 .read = false
          ∨ (stereo = true ∧ accessible s.cfg s.a1.toNat 128 .read = false)
          ∨ accessible s.cfg s.a2.toNat n .write = false) →
        exec (.synRun stereo fmt) s = .next (s.fail .errBus 0))

/-- 43_synthesis.md R262 with R260 and R265: `SYN.RUN` completes; for each channel whose input words have their guard bit, the slot and
the PCM samples are those of the rule, in the layout of the format; `VIDX` moves; nothing else changes. The samples are computed from
whatever the ring holds, also in the seven commands after a guard-bit violation, whose outputs R265 calls unspecified: there the ring
holds a free slot, and that the outputs follow from it is the model's reading (log entry 8, DEDUCED from U2). -/
def Obligations.SynResult : Prop :=
  ∀ (stereo : Bool) (fmt : PcmFormat) (s : State), SynReady stereo fmt s →
    ∃ (t : State) (p0 p1 : Fin 32 → Half), exec (.synRun stereo fmt) s = .next t
      ∧ reports s t (if stereo then 64 else 32) 0
      ∧ t.vidx.toNat = (s.vidx.toNat + 7) % 8
      ∧ (∀ slot : Fin 8, slot.val ≠ s.vidx.toNat → t.vbuf[0][slot] = s.vbuf[0][slot] ∧ t.vbuf[1][slot] = s.vbuf[1][slot])
      ∧ (stereo = false → t.vbuf[1] = s.vbuf[1])
      ∧ ((∀ j : Fin 32, 1 ≤ gbits (s.readWord (s.a0.toNat + 4 * j.val))) →
        t.vbuf[0] = s.vbuf[0].set s.vidx.toNat (dct32K s.cfg (s.readWords s.a0.toNat 32)) (by have := s.vidx.isLt; omega)
          ∧ ∀ j : Fin 32, (p0 j).toInt = synSampleOf s.cfg t.vbuf[0] s.vidx j)
      ∧ (stereo = true → (∀ j : Fin 32, 1 ≤ gbits (s.readWord (s.a1.toNat + 4 * j.val))) →
        t.vbuf[1] = s.vbuf[1].set s.vidx.toNat (dct32K s.cfg (s.readWords s.a1.toNat 32)) (by have := s.vidx.isLt; omega)
          ∧ ∀ j : Fin 32, (p1 j).toInt = synSampleOf s.cfg t.vbuf[1] s.vidx j)
      ∧ (fmt = .pcm16 → stereo = false → ∀ j : Fin 32, t.readHalf (s.a2.toNat + 2 * j.val) = p0 j)
      ∧ (fmt = .pcm16 → stereo = true → ∀ j : Fin 32,
        t.readHalf (s.a2.toNat + 4 * j.val) = p0 j ∧ t.readHalf (s.a2.toNat + 4 * j.val + 2) = p1 j)
      ∧ (fmt = .pcm32 → ∀ j : Fin 32,
        (t.readWord (s.a2.toNat + 8 * j.val)).toNat = (p0 j).toNat * 2 ^ 16
          ∧ (t.readWord (s.a2.toNat + 8 * j.val + 4)).toNat = (if stereo then p1 j else p0 j).toNat * 2 ^ 16)
      ∧ t.ovl = s.ovl ∧ t.prevWin = s.prevWin
      ∧ keepsMemoryBut s t s.a2.toNat (pcmBytes stereo fmt) ∧ keepsOperands s t ∧ keepsContexts s t ∧ keepsOutside s t

/-- The example of 43_synthesis.md R262, by KP2 of R261: on zero inputs with a zero history `SYN.RUN` writes zero samples and leaves the history zero. -/
def Obligations.SynSilence : Prop :=
  ∀ (stereo : Bool) (fmt : PcmFormat) (s : State), SynReady stereo fmt s →
    (∀ j : Fin 32, s.readWord (s.a0.toNat + 4 * j.val) = 0#32) →
    (stereo = true → ∀ j : Fin 32, s.readWord (s.a1.toNat + 4 * j.val) = 0#32) →
    (∀ (ch : Channel) (slot : Fin 8), s.vbuf[ch][slot] = zeros 64) →
    ∃ t, exec (.synRun stereo fmt) s = .next t ∧ t.rc = 0#32
      ∧ (∀ a, s.a2.toNat ≤ a → a < s.a2.toNat + pcmBytes stereo fmt → t.readByte a = 0#8)
      ∧ ∀ (ch : Channel) (slot : Fin 8), t.vbuf[ch][slot] = zeros 64

/-- 43_synthesis.md R263: `rshr` rounds to nearest with ties toward plus infinity, `sat16` clips to -32768 .. 32767, a sample is the one after the
other, and the rule's examples. -/
def Obligations.PcmRounding : Prop :=
  (∀ (v : Int) (k : Nat), 1 ≤ k → rshr v k * 2 ^ k ≤ v + 2 ^ (k - 1) ∧ v + 2 ^ (k - 1) < (rshr v k + 1) * 2 ^ k)
    ∧ (∀ v : Int, sat16 v = max (-32768) (min 32767 v))
    ∧ (∀ (cfg : Config) (acc : BitVec 64), (pcmSample cfg acc).toInt = sat16 (rshr acc.toInt cfg.synFracBits))
    ∧ rshr 23 4 = 1 ∧ rshr 24 4 = 2 ∧ rshr (-24) 4 = -1 ∧ rshr (-25) 4 = -2
    ∧ rshr 600000 4 = 37500 ∧ sat16 37500 = 32767 ∧ sat16 (rshr (-2 ^ 40) 4) = -32768

/-! ## The Vorbis inverse MDCT -/

/-- The failures of 44_vorbis_mdct.md R292, before any change. -/
def Obligations.VmdctFailures : Prop :=
  ∀ (lg : BitVec 4) (s : State), (Instr.vmdctRun lg).WellFormed →
    let bad := s.a0.toNat % 4 ≠ 0 ∨ 2 ^ 32 < s.a0.toNat + 2 ^ (lg.toNat + 1)
    (bad → exec (.vmdctRun lg) s = .next (s.fail .errOperand 0))
      ∧ (¬bad → (accessible s.cfg s.a0.toNat (2 ^ (lg.toNat + 1)) .read = false
          ∨ accessible s.cfg s.a0.toNat (2 ^ (lg.toNat + 1)) .write = false) →
        exec (.vmdctRun lg) s = .next (s.fail .errBus 0))

/-- 44_vorbis_mdct.md R292: `VMDCT.RUN` replaces the `2^(LG-1)` words at `A0` by the kernel's output on the words read before; it changes memory only. -/
def Obligations.VmdctResult : Prop :=
  ∀ (lg : BitVec 4) (s : State), (Instr.vmdctRun lg).WellFormed → VmdctReady lg s →
    ∃ t, exec (.vmdctRun lg) s = .next t
      ∧ reports s t (2 ^ (lg.toNat - 1)) 0
      ∧ (∀ j : Fin (2 ^ (lg.toNat - 1)), t.readWord (s.a0.toNat + 4 * j.val) =
        (vmdctK s.cfg lg.toNat (Vector.ofFn fun i => s.readWord (s.a0.toNat + 4 * i.val)))[j])
      ∧ keepsMemoryBut s t s.a0.toNat (2 ^ (lg.toNat + 1))
      ∧ keepsOperands s t ∧ keepsContexts s t ∧ keepsDsp s t ∧ keepsOutside s t

/-- 44_vorbis_mdct.md R293 and the example of R292, by KP2 of R291: an all-zero spectrum gives zeros. -/
def Obligations.VmdctSilence : Prop :=
  ∀ (lg : BitVec 4) (s : State), (Instr.vmdctRun lg).WellFormed → VmdctReady lg s →
    (∀ j : Fin (2 ^ (lg.toNat - 1)), s.readWord (s.a0.toNat + 4 * j.val) = 0#32) →
    ∃ t, exec (.vmdctRun lg) s = .next t ∧ t.rc = 0#32 ∧ t.r0.toNat = 2 ^ (lg.toNat - 1)
      ∧ ∀ j : Fin (2 ^ (lg.toNat - 1)), t.readWord (s.a0.toNat + 4 * j.val) = 0#32

/-! ## The whole machine -/

/-- 70_reset_and_hazards.md R382, 60_exceptions.md R330: every command finishes, with `NONE` or one of the negative codes, and the host's write to `CMD` of any
word at all completes. -/
def Obligations.EveryCommandFinishes : Prop :=
  (∀ (i : Instr) (s : State), ∃ t, exec i s = .next t ∧ -7 ≤ t.rc.toInt ∧ t.rc.toInt ≤ 0)
    ∧ ∀ (s : State) (rest : List HostAction) (w : Word), s.host = .regWrite 0 .word w :: rest →
      ∃ t, step s = .next t ∧ t.host = rest ∧ -7 ≤ t.rc.toInt ∧ t.rc.toInt ≤ 0

/-- 60_exceptions.md R334: what a command that finishes with a negative code writes, and that a success leaves `ESTKY` as it was (but `SYS.RESET`, which
clears it, 45_system.md R311). -/
def Obligations.FailuresArePrecise : Prop :=
  ∀ (i : Instr) (s t : State), exec i s = .next t →
    (t.rc.toInt < 0 →
      t.r0 = 0#32 ∧ t.eob = false ∧ t.estky = true
        ∧ keepsOperands s t ∧ keepsContexts s t ∧ keepsDsp s t ∧ keepsOutside s t
        ∧ (t.rc.toInt ≠ -1 → t.rc.toInt ≠ -2 → t.mem = s.mem ∧ t.stale0 = s.stale0 ∧ t.stale1 = s.stale1)
        ∧ keepsMemoryBut s t s.a0.toNat (if t.rc.toInt = -1 ∨ t.rc.toInt = -2 then 4 * t.r1.toNat else 0))
    ∧ (t.rc.toInt = 0 → i ≠ .sysReset → t.estky = s.estky)

/-- 60_exceptions.md R335: once set, `ESTKY` stays 1 until `SYS.RESET` or hardware reset, and no command behaves differently because of it. -/
def Obligations.StickyErrorFlag : Prop :=
  (∀ s t : State, step s = .next t → s.estky = true →
      t.estky = true ∨ ∃ rest, s.host = .hardReset :: rest ∨ s.host = .regWrite 0 .word 0x01000000#32 :: rest)
    ∧ ∀ (i : Instr) (s t : State) (b : Bool), i ≠ .sysReset → exec i s = .next t →
      exec i { s with estky := b } = .next { t with estky := b || decide (t.rc.toInt < 0) }

/-- 10_state.md R31 and R30: no command but `SYS.RESET` writes an operand register; `A3` is read by none; no command touches the configuration, the host's
actions or `CMD`. -/
def Obligations.OperandRegistersKept : Prop :=
  (∀ (i : Instr) (s t : State), exec i s = .next t → i ≠ .sysReset → keepsOperands s t ∧ keepsOutside s t)
    ∧ ∀ (i : Instr) (s t : State) (v : Word), exec i s = .next t → i ≠ .sysReset →
      exec i { s with a3 := v } = .next { t with a3 := v }

/-- 10_state.md R35: every command writes `EOB`; only `BSR.PEEK` writes 1, exactly when it returned fewer bits than asked; no command reads it, nor an old
result (R32). -/
def Obligations.EobOnlyFromPeek : Prop :=
  (∀ (i : Instr) (s t : State), exec i s = .next t → t.eob = true →
      ∃ c n, i = .bsrPeek c n ∧ (s.ctx c).valid = true ∧ t.r1.toNat < n.toNat)
    ∧ (∀ (c : CtxId) (n : BitVec 6) (s t : State), exec (.bsrPeek c n) s = .next t → (s.ctx c).valid = true →
      t.r1.toNat < n.toNat → t.eob = true)
    ∧ ∀ (i : Instr) (s : State) (e : Bool) (v w : Word),
      exec i { s with eob := e, r0 := v, r1 := w } = exec i s

/-- 10_state.md R38: `VALID`, `BASE`, `LEN` and `ORD` change only by `BSR.INIT` on the context and by reset; a command leaves the contexts it does not name
unchanged; no command but these moves a cursor back. -/
def Obligations.OriginChangesOnlyByInit : Prop :=
  ∀ (i : Instr) (s t : State) (d : CtxId), exec i s = .next t → i ≠ .sysReset →
    (namedContext i ≠ some d → t.ctx d = s.ctx d)
      ∧ ((∀ ord, i ≠ .bsrInit d ord) →
        (t.ctx d).valid = (s.ctx d).valid ∧ (t.ctx d).base = (s.ctx d).base ∧ (t.ctx d).len = (s.ctx d).len
          ∧ (t.ctx d).ord = (s.ctx d).ord ∧ ((s.ctx d).Sound → (s.ctx d).pos.toNat ≤ (t.ctx d).pos.toNat)
          ∧ (t.rc.toInt < 0 → (t.ctx d).pos = (s.ctx d).pos))

/-- 10_state.md R41 to R44: `OVL` and `PREVWIN` of a channel are written only by `IMDCT.RUN` on that channel, `VBUF` and `VIDX` only by `SYN.RUN` (channel 1's ring only
in stereo), and all of them by `SYS.RESET`. -/
def Obligations.DspStateOnlyByItsCommand : Prop :=
  ∀ (i : Instr) (s t : State), exec i s = .next t → i ≠ .sysReset →
    (∀ ch : Channel, (∀ bt mix, i ≠ .imdctRun ch bt mix) → t.ovl[ch] = s.ovl[ch] ∧ t.prevWin[ch] = s.prevWin[ch])
      ∧ ((∀ stereo fmt, i ≠ .synRun stereo fmt) → t.vbuf = s.vbuf ∧ t.vidx = s.vidx)
      ∧ ((∀ fmt, i ≠ .synRun true fmt) → t.vbuf[1] = s.vbuf[1])

/-- 20_memory.md R84: a command writes no byte outside its written region, whatever its outcome. -/
def Obligations.CommandsWriteOnlyTheirRegion : Prop :=
  ∀ (i : Instr) (s t : State), exec i s = .next t → keepsMemoryBut s t (writtenRegion i s).1 (writtenRegion i s).2

/-- 40_bitreader.md R167: the cursor invariant holds after reset, with any host, memory and configuration, and every step keeps it. -/
def Obligations.CursorInvariantKept : Prop :=
  (∀ (acts : List HostAction) (m : Memory) (cfg : Config), { State.reset with host := acts, mem := m, cfg := cfg }.CursorsSound)
    ∧ ∀ s t : State, s.CursorsSound → step s = .next t → t.CursorsSound

/-- Memory keeps its canonical form and the address space, and only buffer bytes are noted as changed, at every step (20_memory.md R80, R85;
70_reset_and_hazards.md R375). -/
def Obligations.MemoryInvariantKept : Prop := ∀ s t : State, s.MemorySound → step s = .next t → t.MemorySound

/-- `RC` always holds one of the codes, and a reported failure is marked in `ESTKY`, at every step (60_exceptions.md R331, R334, R335). -/
def Obligations.ReportInvariantKept : Prop := ∀ s t : State, s.ReportSound → step s = .next t → t.ReportSound

/-- The invariants hold at reset. -/
def Obligations.InvariantsAtReset : Prop :=
  State.reset.CursorsSound ∧ State.reset.MemorySound ∧ State.reset.ReportSound

/-- No step changes the configuration (10_state.md R30: it "is not state: it never changes"). -/
def Obligations.ConfigurationNeverChanges : Prop := ∀ s t : State, step s = .next t → t.cfg = s.cfg

/-- 70_reset_and_hazards.md R375, the model's reading of it (log entries 9 and 21): a bit of a context's buffer whose value anyone's
write changes, the host's of any width or a command's store, is freed: from then on, and until the context is opened again or ADB is
reset, it reads as a free value of the command's draw; every other bit reads as memory holds it. -/
def Obligations.ChangedBufferBits : Prop :=
  (∀ (s : State) (c : CtxId) (j : Nat), s.sbit c j = if s.freed c j then Config.freeBit s.draws j else s.memoryBit c j)
    ∧ (∀ (s : State) (c : CtxId) (j : Nat), s.memoryBit c j = (s.readByte ((s.ctx c).base.toNat + j / 8)).getLsbD
      (if (s.ctx c).ord = .msb then 7 - j % 8 else j % 8))
    ∧ (∀ (s t : State) (c : CtxId) (j : Nat), step s = .next t →
      (¬∃ rest, s.host = .hardReset :: rest ∨ s.host = .regWrite 0 .word 0x01000000#32 :: rest
        ∨ ∃ ord, s.host = .regWrite 0 .word (encode (.bsrInit c ord)) :: rest) →
      (t.freed c j = true ↔ s.freed c j = true ∨ (j < 8 * (s.ctx c).len.toNat ∧ t.memoryBit c j ≠ s.memoryBit c j)))
    ∧ (∀ (s t : State) (rest : List HostAction) (c : CtxId), step s = .next t →
      (s.host = .hardReset :: rest ∨ s.host = .regWrite 0 .word 0x01000000#32 :: rest
        ∨ (t.rc = 0#32 ∧ ∃ ord, s.host = .regWrite 0 .word (encode (.bsrInit c ord)) :: rest)) →
      ∀ j, t.freed c j = false)
    ∧ ∀ (s t : State) (rest : List HostAction) (a : Nat) (width : Width) (v : Word) (c : CtxId) (j k : Nat),
      s.host = .memWrite a width v :: rest → step s = .next t →
      k < width.bytes → (s.ctx c).base.toNat + j / 8 = a + k → j < 8 * (s.ctx c).len.toNat →
      v.getLsbD (8 * k + if (s.ctx c).ord = .msb then 7 - j % 8 else j % 8) ≠ s.memoryBit c j →
      t.sbit c j = Config.freeBit t.draws j

/-- 42_imdct.md R237 and 00_scope.md R8: a word has its guard bit exactly when its signed value lies in -2^30 .. 2^30 - 1; the values of `gbits` the spec
lists. -/
def Obligations.GuardBitRange : Prop :=
  (∀ w : Word, 1 ≤ gbits w ↔ -2 ^ 30 ≤ w.toInt ∧ w.toInt < 2 ^ 30)
    ∧ gbits 0#32 = 31 ∧ gbits 0xFFFFFFFF#32 = 31 ∧ gbits 0x3FFFFFFF#32 = 1 ∧ gbits 0x40000000#32 = 0
    ∧ gbits 0xC0000000#32 = 1 ∧ gbits 0x80000000#32 = 0
end

