-- ==== Sys2Proof/Laws/Decode.lean ====
section
/-! SUPPORT. The opcode map in numbers: a row selects the words whose bits above the row's fields are the row's (30_encoding.md
R121, R123), and the words the encoder gives as numbers (R127). -/

namespace Sys2Proof

/-- The number of field bits of a row's format, the low bits its mask leaves out (R121). -/
def OpName.fieldBits : OpName → Nat
  | .sysNop => 0
  | .sysReset => 0
  | .bsrInit => 2
  | .bsrPeek => 7
  | .bsrGet => 7
  | .bsrSkip => 7
  | .bsrSkipr => 1
  | .hufPairs => 16
  | .hufQuads => 16
  | .imdctRun => 4
  | .synRun => 2
  | .vmdctRun => 4

/-- The row of the opcode map a command belongs to. -/
def Instr.opName : Instr → OpName
  | .sysNop => .sysNop
  | .sysReset => .sysReset
  | .bsrInit _ _ => .bsrInit
  | .bsrPeek _ _ => .bsrPeek
  | .bsrGet _ _ => .bsrGet
  | .bsrSkip _ _ => .bsrSkip
  | .bsrSkipr _ => .bsrSkipr
  | .hufPairs _ _ _ => .hufPairs
  | .hufQuads _ _ _ => .hufQuads
  | .imdctRun _ _ _ => .imdctRun
  | .synRun _ _ => .synRun
  | .vmdctRun _ => .vmdctRun

/-- Masking off the low `k` bits, in numbers. -/
theorem and_highMask_eq_iff (w f : Word) (k : Nat) (hf : f.toNat % 2 ^ k = 0) :
    w &&& (BitVec.allOnes 32 <<< k) = f ↔ w.toNat / 2 ^ k = f.toNat / 2 ^ k := by
  have h : (w &&& (BitVec.allOnes 32 <<< k)).toNat = w.toNat / 2 ^ k * 2 ^ k := by
    have : w &&& (BitVec.allOnes 32 <<< k) = (w >>> k) <<< k := by
      ext i hi
      simp only [BitVec.getElem_and, BitVec.getElem_shiftLeft, BitVec.getElem_allOnes, BitVec.getElem_ushiftRight]
      by_cases hk : i < k
      · simp [hk]
      · simp only [hk, decide_false, Bool.not_false, Bool.true_and, Bool.and_true]
        rw [show k + (i - k) = i by omega, BitVec.getLsbD_eq_getElem hi]
    rw [this, BitVec.toNat_shiftLeft, BitVec.toNat_ushiftRight, Nat.shiftLeft_eq, Nat.shiftRight_eq_div_pow]
    exact Nat.mod_eq_of_lt (lt_of_le_of_lt (Nat.div_mul_le_self _ _) w.isLt)
  have hd : f.toNat = f.toNat / 2 ^ k * 2 ^ k := by
    have := Nat.div_add_mod f.toNat (2 ^ k)
    rw [hf] at this
    rw [Nat.mul_comm]; omega
  constructor
  · intro e
    have := congrArg BitVec.toNat e
    rw [h] at this
    rw [← this, Nat.mul_div_cancel _ (by positivity)]
  · intro e
    apply BitVec.eq_of_toNat_eq
    rw [h, e, ← hd]

/-- A row selects a word exactly when the bits above the row's fields are the row's. -/
theorem OpRow.selects_iff (r : OpRow) (hr : r ∈ opcodeMap) (w : Word) :
    r.selects w = true ↔ w.toNat / 2 ^ r.op.fieldBits = r.fixed.toNat / 2 ^ r.op.fieldBits := by
  have key : ∀ r ∈ opcodeMap, r.mask = BitVec.allOnes 32 <<< r.op.fieldBits ∧ r.fixed.toNat % 2 ^ r.op.fieldBits = 0 := by
    decide
  rw [OpRow.selects, decide_eq_true_iff, (key r hr).1, and_highMask_eq_iff _ _ _ (key r hr).2]

/-! ## Encoded words as numbers -/

theorem CtxId.toNat_word (c : CtxId) : c.word.toNat < 2 := by cases c <;> decide

theorem BitOrder.toNat_word (o : BitOrder) : o.word.toNat < 2 := by cases o <;> decide

theorem WindowClass.toNat_word (b : WindowClass) : b.word.toNat < 4 := by cases b <;> decide

theorem PcmFormat.toNat_word (f : PcmFormat) : f.word.toNat < 2 := by cases f <;> decide

theorem toNat_bitWord (b : Bool) : (bitWord b).toNat = b.toNat := by cases b <;> rfl

/-- The number of a word with a context and a 6-bit count, formats I, B and R. -/
theorem toNat_formatB (k : Word) (c : CtxId) (n : BitVec 6) (h : k.toNat + 128 ≤ 2 ^ 32) :
    (k + c.word + 2#32 * n.setWidth 32).toNat = k.toNat + c.word.toNat + 2 * n.toNat := by
  have := c.toNat_word
  have := n.isLt
  simp only [BitVec.toNat_add, BitVec.toNat_mul, BitVec.toNat_setWidth, BitVec.toNat_ofNat]
  omega

/-- The number of a word of format H. -/
theorem toNat_formatH (k : Word) (c : CtxId) (tab : BitVec 5) (nv : BitVec 10) (h : k.toNat + 2 ^ 16 ≤ 2 ^ 32) :
    (k + c.word + 2#32 * tab.setWidth 32 + 64#32 * nv.setWidth 32).toNat
      = k.toNat + c.word.toNat + 2 * tab.toNat + 64 * nv.toNat := by
  have := c.toNat_word
  have := tab.isLt
  have := nv.isLt
  simp only [BitVec.toNat_add, BitVec.toNat_mul, BitVec.toNat_setWidth, BitVec.toNat_ofNat]
  omega

/-- The number of a word of format V. -/
theorem toNat_formatV (k : Word) (lg : BitVec 4) (h : k.toNat + 16 ≤ 2 ^ 32) :
    (k + lg.setWidth 32).toNat = k.toNat + lg.toNat := by
  have := lg.isLt
  simp only [BitVec.toNat_add, BitVec.toNat_setWidth]
  omega

end Sys2Proof
end

