-- ==== Sys2Proof/Laws/State.lean ====
section
/-! SUPPORT. What each update of State leaves in each field; no proof needs to unfold a record update. -/

namespace Sys2Proof.Machine

/-! ## Ending a command -/

@[simp] theorem State.finish_a0 (s : State) (code : ReturnCode) (r0 r1 : Nat) (e : Bool) : (s.finish code r0 r1 e).a0 = s.a0 := rfl
@[simp] theorem State.finish_a1 (s : State) (code : ReturnCode) (r0 r1 : Nat) (e : Bool) : (s.finish code r0 r1 e).a1 = s.a1 := rfl
@[simp] theorem State.finish_a2 (s : State) (code : ReturnCode) (r0 r1 : Nat) (e : Bool) : (s.finish code r0 r1 e).a2 = s.a2 := rfl
@[simp] theorem State.finish_a3 (s : State) (code : ReturnCode) (r0 r1 : Nat) (e : Bool) : (s.finish code r0 r1 e).a3 = s.a3 := rfl
@[simp] theorem State.finish_r0 (s : State) (code : ReturnCode) (r0 r1 : Nat) (e : Bool) : (s.finish code r0 r1 e).r0 = BitVec.ofNat 32 r0 := rfl
@[simp] theorem State.finish_r1 (s : State) (code : ReturnCode) (r0 r1 : Nat) (e : Bool) : (s.finish code r0 r1 e).r1 = BitVec.ofNat 32 r1 := rfl
@[simp] theorem State.finish_rc (s : State) (code : ReturnCode) (r0 r1 : Nat) (e : Bool) : (s.finish code r0 r1 e).rc = code.word := rfl
@[simp] theorem State.finish_eob (s : State) (code : ReturnCode) (r0 r1 : Nat) (e : Bool) : (s.finish code r0 r1 e).eob = e := rfl
@[simp] theorem State.finish_estky (s : State) (code : ReturnCode) (r0 r1 : Nat) (e : Bool) : (s.finish code r0 r1 e).estky = estkyAfter s.estky code := rfl
@[simp] theorem State.finish_cmd (s : State) (code : ReturnCode) (r0 r1 : Nat) (e : Bool) : (s.finish code r0 r1 e).cmd = s.cmd := rfl
@[simp] theorem State.finish_bs0 (s : State) (code : ReturnCode) (r0 r1 : Nat) (e : Bool) : (s.finish code r0 r1 e).bs0 = s.bs0 := rfl
@[simp] theorem State.finish_bs1 (s : State) (code : ReturnCode) (r0 r1 : Nat) (e : Bool) : (s.finish code r0 r1 e).bs1 = s.bs1 := rfl
@[simp] theorem State.finish_ovl (s : State) (code : ReturnCode) (r0 r1 : Nat) (e : Bool) : (s.finish code r0 r1 e).ovl = s.ovl := rfl
@[simp] theorem State.finish_prevWin (s : State) (code : ReturnCode) (r0 r1 : Nat) (e : Bool) : (s.finish code r0 r1 e).prevWin = s.prevWin := rfl
@[simp] theorem State.finish_vbuf (s : State) (code : ReturnCode) (r0 r1 : Nat) (e : Bool) : (s.finish code r0 r1 e).vbuf = s.vbuf := rfl
@[simp] theorem State.finish_vidx (s : State) (code : ReturnCode) (r0 r1 : Nat) (e : Bool) : (s.finish code r0 r1 e).vidx = s.vidx := rfl
@[simp] theorem State.finish_mem (s : State) (code : ReturnCode) (r0 r1 : Nat) (e : Bool) : (s.finish code r0 r1 e).mem = s.mem := rfl
@[simp] theorem State.finish_stale0 (s : State) (code : ReturnCode) (r0 r1 : Nat) (e : Bool) : (s.finish code r0 r1 e).stale0 = s.stale0 := rfl
@[simp] theorem State.finish_stale1 (s : State) (code : ReturnCode) (r0 r1 : Nat) (e : Bool) : (s.finish code r0 r1 e).stale1 = s.stale1 := rfl
@[simp] theorem State.finish_draws (s : State) (code : ReturnCode) (r0 r1 : Nat) (e : Bool) : (s.finish code r0 r1 e).draws = s.draws := rfl
@[simp] theorem State.finish_cfg (s : State) (code : ReturnCode) (r0 r1 : Nat) (e : Bool) : (s.finish code r0 r1 e).cfg = s.cfg := rfl
@[simp] theorem State.finish_host (s : State) (code : ReturnCode) (r0 r1 : Nat) (e : Bool) : (s.finish code r0 r1 e).host = s.host := rfl
@[simp] theorem State.finish_hostData (s : State) (code : ReturnCode) (r0 r1 : Nat) (e : Bool) : (s.finish code r0 r1 e).hostData = s.hostData := rfl

@[simp] theorem State.succeed_a0 (s : State) (r0 r1 : Nat) : (s.succeed r0 r1).a0 = s.a0 := rfl
@[simp] theorem State.succeed_a1 (s : State) (r0 r1 : Nat) : (s.succeed r0 r1).a1 = s.a1 := rfl
@[simp] theorem State.succeed_a2 (s : State) (r0 r1 : Nat) : (s.succeed r0 r1).a2 = s.a2 := rfl
@[simp] theorem State.succeed_a3 (s : State) (r0 r1 : Nat) : (s.succeed r0 r1).a3 = s.a3 := rfl
@[simp] theorem State.succeed_r0 (s : State) (r0 r1 : Nat) : (s.succeed r0 r1).r0 = BitVec.ofNat 32 r0 := rfl
@[simp] theorem State.succeed_r1 (s : State) (r0 r1 : Nat) : (s.succeed r0 r1).r1 = BitVec.ofNat 32 r1 := rfl
@[simp] theorem State.succeed_rc (s : State) (r0 r1 : Nat) : (s.succeed r0 r1).rc = ReturnCode.none.word := rfl
@[simp] theorem State.succeed_eob (s : State) (r0 r1 : Nat) : (s.succeed r0 r1).eob = false := rfl
@[simp] theorem State.succeed_estky (s : State) (r0 r1 : Nat) : (s.succeed r0 r1).estky = s.estky := Bool.or_false _
@[simp] theorem State.succeed_cmd (s : State) (r0 r1 : Nat) : (s.succeed r0 r1).cmd = s.cmd := rfl
@[simp] theorem State.succeed_bs0 (s : State) (r0 r1 : Nat) : (s.succeed r0 r1).bs0 = s.bs0 := rfl
@[simp] theorem State.succeed_bs1 (s : State) (r0 r1 : Nat) : (s.succeed r0 r1).bs1 = s.bs1 := rfl
@[simp] theorem State.succeed_ovl (s : State) (r0 r1 : Nat) : (s.succeed r0 r1).ovl = s.ovl := rfl
@[simp] theorem State.succeed_prevWin (s : State) (r0 r1 : Nat) : (s.succeed r0 r1).prevWin = s.prevWin := rfl
@[simp] theorem State.succeed_vbuf (s : State) (r0 r1 : Nat) : (s.succeed r0 r1).vbuf = s.vbuf := rfl
@[simp] theorem State.succeed_vidx (s : State) (r0 r1 : Nat) : (s.succeed r0 r1).vidx = s.vidx := rfl
@[simp] theorem State.succeed_mem (s : State) (r0 r1 : Nat) : (s.succeed r0 r1).mem = s.mem := rfl
@[simp] theorem State.succeed_stale0 (s : State) (r0 r1 : Nat) : (s.succeed r0 r1).stale0 = s.stale0 := rfl
@[simp] theorem State.succeed_stale1 (s : State) (r0 r1 : Nat) : (s.succeed r0 r1).stale1 = s.stale1 := rfl
@[simp] theorem State.succeed_draws (s : State) (r0 r1 : Nat) : (s.succeed r0 r1).draws = s.draws := rfl
@[simp] theorem State.succeed_cfg (s : State) (r0 r1 : Nat) : (s.succeed r0 r1).cfg = s.cfg := rfl
@[simp] theorem State.succeed_host (s : State) (r0 r1 : Nat) : (s.succeed r0 r1).host = s.host := rfl
@[simp] theorem State.succeed_hostData (s : State) (r0 r1 : Nat) : (s.succeed r0 r1).hostData = s.hostData := rfl

@[simp] theorem State.fail_a0 (s : State) (code : ReturnCode) (r1 : Nat) : (s.fail code r1).a0 = s.a0 := rfl
@[simp] theorem State.fail_a1 (s : State) (code : ReturnCode) (r1 : Nat) : (s.fail code r1).a1 = s.a1 := rfl
@[simp] theorem State.fail_a2 (s : State) (code : ReturnCode) (r1 : Nat) : (s.fail code r1).a2 = s.a2 := rfl
@[simp] theorem State.fail_a3 (s : State) (code : ReturnCode) (r1 : Nat) : (s.fail code r1).a3 = s.a3 := rfl
@[simp] theorem State.fail_r0 (s : State) (code : ReturnCode) (r1 : Nat) : (s.fail code r1).r0 = 0#32 := rfl
@[simp] theorem State.fail_r1 (s : State) (code : ReturnCode) (r1 : Nat) : (s.fail code r1).r1 = BitVec.ofNat 32 r1 := rfl
@[simp] theorem State.fail_rc (s : State) (code : ReturnCode) (r1 : Nat) : (s.fail code r1).rc = code.word := rfl
@[simp] theorem State.fail_eob (s : State) (code : ReturnCode) (r1 : Nat) : (s.fail code r1).eob = false := rfl
@[simp] theorem State.fail_estky (s : State) (code : ReturnCode) (r1 : Nat) : (s.fail code r1).estky = estkyAfter s.estky code := rfl
@[simp] theorem State.fail_cmd (s : State) (code : ReturnCode) (r1 : Nat) : (s.fail code r1).cmd = s.cmd := rfl
@[simp] theorem State.fail_bs0 (s : State) (code : ReturnCode) (r1 : Nat) : (s.fail code r1).bs0 = s.bs0 := rfl
@[simp] theorem State.fail_bs1 (s : State) (code : ReturnCode) (r1 : Nat) : (s.fail code r1).bs1 = s.bs1 := rfl
@[simp] theorem State.fail_ovl (s : State) (code : ReturnCode) (r1 : Nat) : (s.fail code r1).ovl = s.ovl := rfl
@[simp] theorem State.fail_prevWin (s : State) (code : ReturnCode) (r1 : Nat) : (s.fail code r1).prevWin = s.prevWin := rfl
@[simp] theorem State.fail_vbuf (s : State) (code : ReturnCode) (r1 : Nat) : (s.fail code r1).vbuf = s.vbuf := rfl
@[simp] theorem State.fail_vidx (s : State) (code : ReturnCode) (r1 : Nat) : (s.fail code r1).vidx = s.vidx := rfl
@[simp] theorem State.fail_mem (s : State) (code : ReturnCode) (r1 : Nat) : (s.fail code r1).mem = s.mem := rfl
@[simp] theorem State.fail_stale0 (s : State) (code : ReturnCode) (r1 : Nat) : (s.fail code r1).stale0 = s.stale0 := rfl
@[simp] theorem State.fail_stale1 (s : State) (code : ReturnCode) (r1 : Nat) : (s.fail code r1).stale1 = s.stale1 := rfl
@[simp] theorem State.fail_draws (s : State) (code : ReturnCode) (r1 : Nat) : (s.fail code r1).draws = s.draws := rfl
@[simp] theorem State.fail_cfg (s : State) (code : ReturnCode) (r1 : Nat) : (s.fail code r1).cfg = s.cfg := rfl
@[simp] theorem State.fail_host (s : State) (code : ReturnCode) (r1 : Nat) : (s.fail code r1).host = s.host := rfl
@[simp] theorem State.fail_hostData (s : State) (code : ReturnCode) (r1 : Nat) : (s.fail code r1).hostData = s.hostData := rfl

@[simp] theorem State.illegal_a0 (s : State)  : (s.illegal).a0 = s.a0 := rfl
@[simp] theorem State.illegal_a1 (s : State)  : (s.illegal).a1 = s.a1 := rfl
@[simp] theorem State.illegal_a2 (s : State)  : (s.illegal).a2 = s.a2 := rfl
@[simp] theorem State.illegal_a3 (s : State)  : (s.illegal).a3 = s.a3 := rfl
@[simp] theorem State.illegal_r0 (s : State)  : (s.illegal).r0 = 0#32 := rfl
@[simp] theorem State.illegal_r1 (s : State)  : (s.illegal).r1 = 0#32 := rfl
@[simp] theorem State.illegal_rc (s : State)  : (s.illegal).rc = ReturnCode.errIllegalCmd.word := rfl
@[simp] theorem State.illegal_eob (s : State)  : (s.illegal).eob = false := rfl
@[simp] theorem State.illegal_estky (s : State)  : (s.illegal).estky = true := Bool.or_true _
@[simp] theorem State.illegal_cmd (s : State)  : (s.illegal).cmd = s.cmd := rfl
@[simp] theorem State.illegal_bs0 (s : State)  : (s.illegal).bs0 = s.bs0 := rfl
@[simp] theorem State.illegal_bs1 (s : State)  : (s.illegal).bs1 = s.bs1 := rfl
@[simp] theorem State.illegal_ovl (s : State)  : (s.illegal).ovl = s.ovl := rfl
@[simp] theorem State.illegal_prevWin (s : State)  : (s.illegal).prevWin = s.prevWin := rfl
@[simp] theorem State.illegal_vbuf (s : State)  : (s.illegal).vbuf = s.vbuf := rfl
@[simp] theorem State.illegal_vidx (s : State)  : (s.illegal).vidx = s.vidx := rfl
@[simp] theorem State.illegal_mem (s : State)  : (s.illegal).mem = s.mem := rfl
@[simp] theorem State.illegal_stale0 (s : State)  : (s.illegal).stale0 = s.stale0 := rfl
@[simp] theorem State.illegal_stale1 (s : State)  : (s.illegal).stale1 = s.stale1 := rfl
@[simp] theorem State.illegal_draws (s : State)  : (s.illegal).draws = s.draws := rfl
@[simp] theorem State.illegal_cfg (s : State)  : (s.illegal).cfg = s.cfg := rfl
@[simp] theorem State.illegal_host (s : State)  : (s.illegal).host = s.host := rfl
@[simp] theorem State.illegal_hostData (s : State)  : (s.illegal).hostData = s.hostData := rfl

/-! ## Memory -/

@[simp] theorem State.storeByte_a0 (s : State) (a : Nat) (b : Byte) : (s.storeByte a b).a0 = s.a0 := rfl
@[simp] theorem State.storeByte_a1 (s : State) (a : Nat) (b : Byte) : (s.storeByte a b).a1 = s.a1 := rfl
@[simp] theorem State.storeByte_a2 (s : State) (a : Nat) (b : Byte) : (s.storeByte a b).a2 = s.a2 := rfl
@[simp] theorem State.storeByte_a3 (s : State) (a : Nat) (b : Byte) : (s.storeByte a b).a3 = s.a3 := rfl
@[simp] theorem State.storeByte_r0 (s : State) (a : Nat) (b : Byte) : (s.storeByte a b).r0 = s.r0 := rfl
@[simp] theorem State.storeByte_r1 (s : State) (a : Nat) (b : Byte) : (s.storeByte a b).r1 = s.r1 := rfl
@[simp] theorem State.storeByte_rc (s : State) (a : Nat) (b : Byte) : (s.storeByte a b).rc = s.rc := rfl
@[simp] theorem State.storeByte_eob (s : State) (a : Nat) (b : Byte) : (s.storeByte a b).eob = s.eob := rfl
@[simp] theorem State.storeByte_estky (s : State) (a : Nat) (b : Byte) : (s.storeByte a b).estky = s.estky := rfl
@[simp] theorem State.storeByte_cmd (s : State) (a : Nat) (b : Byte) : (s.storeByte a b).cmd = s.cmd := rfl
@[simp] theorem State.storeByte_bs0 (s : State) (a : Nat) (b : Byte) : (s.storeByte a b).bs0 = s.bs0 := rfl
@[simp] theorem State.storeByte_bs1 (s : State) (a : Nat) (b : Byte) : (s.storeByte a b).bs1 = s.bs1 := rfl
@[simp] theorem State.storeByte_ovl (s : State) (a : Nat) (b : Byte) : (s.storeByte a b).ovl = s.ovl := rfl
@[simp] theorem State.storeByte_prevWin (s : State) (a : Nat) (b : Byte) : (s.storeByte a b).prevWin = s.prevWin := rfl
@[simp] theorem State.storeByte_vbuf (s : State) (a : Nat) (b : Byte) : (s.storeByte a b).vbuf = s.vbuf := rfl
@[simp] theorem State.storeByte_vidx (s : State) (a : Nat) (b : Byte) : (s.storeByte a b).vidx = s.vidx := rfl
@[simp] theorem State.storeByte_mem (s : State) (a : Nat) (b : Byte) : (s.storeByte a b).mem = Memory.insert a b s.mem := rfl
@[simp] theorem State.storeByte_stale0 (s : State) (a : Nat) (b : Byte) : (s.storeByte a b).stale0 = noteChange s.bs0 s.stale0 a (s.readByte a ^^^ b) := rfl
@[simp] theorem State.storeByte_stale1 (s : State) (a : Nat) (b : Byte) : (s.storeByte a b).stale1 = noteChange s.bs1 s.stale1 a (s.readByte a ^^^ b) := rfl
@[simp] theorem State.storeByte_draws (s : State) (a : Nat) (b : Byte) : (s.storeByte a b).draws = s.draws := rfl
@[simp] theorem State.storeByte_cfg (s : State) (a : Nat) (b : Byte) : (s.storeByte a b).cfg = s.cfg := rfl
@[simp] theorem State.storeByte_host (s : State) (a : Nat) (b : Byte) : (s.storeByte a b).host = s.host := rfl
@[simp] theorem State.storeByte_hostData (s : State) (a : Nat) (b : Byte) : (s.storeByte a b).hostData = s.hostData := rfl

@[simp] theorem State.storeBytes_a0 (s : State) (a : Nat) (bs : List Byte) : (s.storeBytes a bs).a0 = s.a0 := by
  induction bs generalizing s a with
  | nil => rfl
  | cons b bs ih => simp [State.storeBytes, ih]
@[simp] theorem State.storeBytes_a1 (s : State) (a : Nat) (bs : List Byte) : (s.storeBytes a bs).a1 = s.a1 := by
  induction bs generalizing s a with
  | nil => rfl
  | cons b bs ih => simp [State.storeBytes, ih]
@[simp] theorem State.storeBytes_a2 (s : State) (a : Nat) (bs : List Byte) : (s.storeBytes a bs).a2 = s.a2 := by
  induction bs generalizing s a with
  | nil => rfl
  | cons b bs ih => simp [State.storeBytes, ih]
@[simp] theorem State.storeBytes_a3 (s : State) (a : Nat) (bs : List Byte) : (s.storeBytes a bs).a3 = s.a3 := by
  induction bs generalizing s a with
  | nil => rfl
  | cons b bs ih => simp [State.storeBytes, ih]
@[simp] theorem State.storeBytes_r0 (s : State) (a : Nat) (bs : List Byte) : (s.storeBytes a bs).r0 = s.r0 := by
  induction bs generalizing s a with
  | nil => rfl
  | cons b bs ih => simp [State.storeBytes, ih]
@[simp] theorem State.storeBytes_r1 (s : State) (a : Nat) (bs : List Byte) : (s.storeBytes a bs).r1 = s.r1 := by
  induction bs generalizing s a with
  | nil => rfl
  | cons b bs ih => simp [State.storeBytes, ih]
@[simp] theorem State.storeBytes_rc (s : State) (a : Nat) (bs : List Byte) : (s.storeBytes a bs).rc = s.rc := by
  induction bs generalizing s a with
  | nil => rfl
  | cons b bs ih => simp [State.storeBytes, ih]
@[simp] theorem State.storeBytes_eob (s : State) (a : Nat) (bs : List Byte) : (s.storeBytes a bs).eob = s.eob := by
  induction bs generalizing s a with
  | nil => rfl
  | cons b bs ih => simp [State.storeBytes, ih]
@[simp] theorem State.storeBytes_estky (s : State) (a : Nat) (bs : List Byte) : (s.storeBytes a bs).estky = s.estky := by
  induction bs generalizing s a with
  | nil => rfl
  | cons b bs ih => simp [State.storeBytes, ih]
@[simp] theorem State.storeBytes_cmd (s : State) (a : Nat) (bs : List Byte) : (s.storeBytes a bs).cmd = s.cmd := by
  induction bs generalizing s a with
  | nil => rfl
  | cons b bs ih => simp [State.storeBytes, ih]
@[simp] theorem State.storeBytes_bs0 (s : State) (a : Nat) (bs : List Byte) : (s.storeBytes a bs).bs0 = s.bs0 := by
  induction bs generalizing s a with
  | nil => rfl
  | cons b bs ih => simp [State.storeBytes, ih]
@[simp] theorem State.storeBytes_bs1 (s : State) (a : Nat) (bs : List Byte) : (s.storeBytes a bs).bs1 = s.bs1 := by
  induction bs generalizing s a with
  | nil => rfl
  | cons b bs ih => simp [State.storeBytes, ih]
@[simp] theorem State.storeBytes_ovl (s : State) (a : Nat) (bs : List Byte) : (s.storeBytes a bs).ovl = s.ovl := by
  induction bs generalizing s a with
  | nil => rfl
  | cons b bs ih => simp [State.storeBytes, ih]
@[simp] theorem State.storeBytes_prevWin (s : State) (a : Nat) (bs : List Byte) : (s.storeBytes a bs).prevWin = s.prevWin := by
  induction bs generalizing s a with
  | nil => rfl
  | cons b bs ih => simp [State.storeBytes, ih]
@[simp] theorem State.storeBytes_vbuf (s : State) (a : Nat) (bs : List Byte) : (s.storeBytes a bs).vbuf = s.vbuf := by
  induction bs generalizing s a with
  | nil => rfl
  | cons b bs ih => simp [State.storeBytes, ih]
@[simp] theorem State.storeBytes_vidx (s : State) (a : Nat) (bs : List Byte) : (s.storeBytes a bs).vidx = s.vidx := by
  induction bs generalizing s a with
  | nil => rfl
  | cons b bs ih => simp [State.storeBytes, ih]
@[simp] theorem State.storeBytes_draws (s : State) (a : Nat) (bs : List Byte) : (s.storeBytes a bs).draws = s.draws := by
  induction bs generalizing s a with
  | nil => rfl
  | cons b bs ih => simp [State.storeBytes, ih]
@[simp] theorem State.storeBytes_cfg (s : State) (a : Nat) (bs : List Byte) : (s.storeBytes a bs).cfg = s.cfg := by
  induction bs generalizing s a with
  | nil => rfl
  | cons b bs ih => simp [State.storeBytes, ih]
@[simp] theorem State.storeBytes_host (s : State) (a : Nat) (bs : List Byte) : (s.storeBytes a bs).host = s.host := by
  induction bs generalizing s a with
  | nil => rfl
  | cons b bs ih => simp [State.storeBytes, ih]
@[simp] theorem State.storeBytes_hostData (s : State) (a : Nat) (bs : List Byte) : (s.storeBytes a bs).hostData = s.hostData := by
  induction bs generalizing s a with
  | nil => rfl
  | cons b bs ih => simp [State.storeBytes, ih]

@[simp] theorem State.storeWords_a0 (s : State) (a : Nat) (ws : List Word) : (s.storeWords a ws).a0 = s.a0 := by simp [State.storeWords]
@[simp] theorem State.storeWords_a1 (s : State) (a : Nat) (ws : List Word) : (s.storeWords a ws).a1 = s.a1 := by simp [State.storeWords]
@[simp] theorem State.storeWords_a2 (s : State) (a : Nat) (ws : List Word) : (s.storeWords a ws).a2 = s.a2 := by simp [State.storeWords]
@[simp] theorem State.storeWords_a3 (s : State) (a : Nat) (ws : List Word) : (s.storeWords a ws).a3 = s.a3 := by simp [State.storeWords]
@[simp] theorem State.storeWords_r0 (s : State) (a : Nat) (ws : List Word) : (s.storeWords a ws).r0 = s.r0 := by simp [State.storeWords]
@[simp] theorem State.storeWords_r1 (s : State) (a : Nat) (ws : List Word) : (s.storeWords a ws).r1 = s.r1 := by simp [State.storeWords]
@[simp] theorem State.storeWords_rc (s : State) (a : Nat) (ws : List Word) : (s.storeWords a ws).rc = s.rc := by simp [State.storeWords]
@[simp] theorem State.storeWords_eob (s : State) (a : Nat) (ws : List Word) : (s.storeWords a ws).eob = s.eob := by simp [State.storeWords]
@[simp] theorem State.storeWords_estky (s : State) (a : Nat) (ws : List Word) : (s.storeWords a ws).estky = s.estky := by simp [State.storeWords]
@[simp] theorem State.storeWords_cmd (s : State) (a : Nat) (ws : List Word) : (s.storeWords a ws).cmd = s.cmd := by simp [State.storeWords]
@[simp] theorem State.storeWords_bs0 (s : State) (a : Nat) (ws : List Word) : (s.storeWords a ws).bs0 = s.bs0 := by simp [State.storeWords]
@[simp] theorem State.storeWords_bs1 (s : State) (a : Nat) (ws : List Word) : (s.storeWords a ws).bs1 = s.bs1 := by simp [State.storeWords]
@[simp] theorem State.storeWords_ovl (s : State) (a : Nat) (ws : List Word) : (s.storeWords a ws).ovl = s.ovl := by simp [State.storeWords]
@[simp] theorem State.storeWords_prevWin (s : State) (a : Nat) (ws : List Word) : (s.storeWords a ws).prevWin = s.prevWin := by simp [State.storeWords]
@[simp] theorem State.storeWords_vbuf (s : State) (a : Nat) (ws : List Word) : (s.storeWords a ws).vbuf = s.vbuf := by simp [State.storeWords]
@[simp] theorem State.storeWords_vidx (s : State) (a : Nat) (ws : List Word) : (s.storeWords a ws).vidx = s.vidx := by simp [State.storeWords]
@[simp] theorem State.storeWords_draws (s : State) (a : Nat) (ws : List Word) : (s.storeWords a ws).draws = s.draws := by simp [State.storeWords]
@[simp] theorem State.storeWords_cfg (s : State) (a : Nat) (ws : List Word) : (s.storeWords a ws).cfg = s.cfg := by simp [State.storeWords]
@[simp] theorem State.storeWords_host (s : State) (a : Nat) (ws : List Word) : (s.storeWords a ws).host = s.host := by simp [State.storeWords]
@[simp] theorem State.storeWords_hostData (s : State) (a : Nat) (ws : List Word) : (s.storeWords a ws).hostData = s.hostData := by simp [State.storeWords]

@[simp] theorem State.storeHalves_a0 (s : State) (a : Nat) (ws : List Half) : (s.storeHalves a ws).a0 = s.a0 := by simp [State.storeHalves]
@[simp] theorem State.storeHalves_a1 (s : State) (a : Nat) (ws : List Half) : (s.storeHalves a ws).a1 = s.a1 := by simp [State.storeHalves]
@[simp] theorem State.storeHalves_a2 (s : State) (a : Nat) (ws : List Half) : (s.storeHalves a ws).a2 = s.a2 := by simp [State.storeHalves]
@[simp] theorem State.storeHalves_a3 (s : State) (a : Nat) (ws : List Half) : (s.storeHalves a ws).a3 = s.a3 := by simp [State.storeHalves]
@[simp] theorem State.storeHalves_r0 (s : State) (a : Nat) (ws : List Half) : (s.storeHalves a ws).r0 = s.r0 := by simp [State.storeHalves]
@[simp] theorem State.storeHalves_r1 (s : State) (a : Nat) (ws : List Half) : (s.storeHalves a ws).r1 = s.r1 := by simp [State.storeHalves]
@[simp] theorem State.storeHalves_rc (s : State) (a : Nat) (ws : List Half) : (s.storeHalves a ws).rc = s.rc := by simp [State.storeHalves]
@[simp] theorem State.storeHalves_eob (s : State) (a : Nat) (ws : List Half) : (s.storeHalves a ws).eob = s.eob := by simp [State.storeHalves]
@[simp] theorem State.storeHalves_estky (s : State) (a : Nat) (ws : List Half) : (s.storeHalves a ws).estky = s.estky := by simp [State.storeHalves]
@[simp] theorem State.storeHalves_cmd (s : State) (a : Nat) (ws : List Half) : (s.storeHalves a ws).cmd = s.cmd := by simp [State.storeHalves]
@[simp] theorem State.storeHalves_bs0 (s : State) (a : Nat) (ws : List Half) : (s.storeHalves a ws).bs0 = s.bs0 := by simp [State.storeHalves]
@[simp] theorem State.storeHalves_bs1 (s : State) (a : Nat) (ws : List Half) : (s.storeHalves a ws).bs1 = s.bs1 := by simp [State.storeHalves]
@[simp] theorem State.storeHalves_ovl (s : State) (a : Nat) (ws : List Half) : (s.storeHalves a ws).ovl = s.ovl := by simp [State.storeHalves]
@[simp] theorem State.storeHalves_prevWin (s : State) (a : Nat) (ws : List Half) : (s.storeHalves a ws).prevWin = s.prevWin := by simp [State.storeHalves]
@[simp] theorem State.storeHalves_vbuf (s : State) (a : Nat) (ws : List Half) : (s.storeHalves a ws).vbuf = s.vbuf := by simp [State.storeHalves]
@[simp] theorem State.storeHalves_vidx (s : State) (a : Nat) (ws : List Half) : (s.storeHalves a ws).vidx = s.vidx := by simp [State.storeHalves]
@[simp] theorem State.storeHalves_draws (s : State) (a : Nat) (ws : List Half) : (s.storeHalves a ws).draws = s.draws := by simp [State.storeHalves]
@[simp] theorem State.storeHalves_cfg (s : State) (a : Nat) (ws : List Half) : (s.storeHalves a ws).cfg = s.cfg := by simp [State.storeHalves]
@[simp] theorem State.storeHalves_host (s : State) (a : Nat) (ws : List Half) : (s.storeHalves a ws).host = s.host := by simp [State.storeHalves]
@[simp] theorem State.storeHalves_hostData (s : State) (a : Nat) (ws : List Half) : (s.storeHalves a ws).hostData = s.hostData := by simp [State.storeHalves]

/-! ## Contexts -/

@[simp] theorem State.setPos_a0 (s : State) (c : CtxId) (p : Nat) : (s.setPos c p).a0 = s.a0 := by cases c <;> rfl
@[simp] theorem State.setPos_a1 (s : State) (c : CtxId) (p : Nat) : (s.setPos c p).a1 = s.a1 := by cases c <;> rfl
@[simp] theorem State.setPos_a2 (s : State) (c : CtxId) (p : Nat) : (s.setPos c p).a2 = s.a2 := by cases c <;> rfl
@[simp] theorem State.setPos_a3 (s : State) (c : CtxId) (p : Nat) : (s.setPos c p).a3 = s.a3 := by cases c <;> rfl
@[simp] theorem State.setPos_r0 (s : State) (c : CtxId) (p : Nat) : (s.setPos c p).r0 = s.r0 := by cases c <;> rfl
@[simp] theorem State.setPos_r1 (s : State) (c : CtxId) (p : Nat) : (s.setPos c p).r1 = s.r1 := by cases c <;> rfl
@[simp] theorem State.setPos_rc (s : State) (c : CtxId) (p : Nat) : (s.setPos c p).rc = s.rc := by cases c <;> rfl
@[simp] theorem State.setPos_eob (s : State) (c : CtxId) (p : Nat) : (s.setPos c p).eob = s.eob := by cases c <;> rfl
@[simp] theorem State.setPos_estky (s : State) (c : CtxId) (p : Nat) : (s.setPos c p).estky = s.estky := by cases c <;> rfl
@[simp] theorem State.setPos_cmd (s : State) (c : CtxId) (p : Nat) : (s.setPos c p).cmd = s.cmd := by cases c <;> rfl
@[simp] theorem State.setPos_ovl (s : State) (c : CtxId) (p : Nat) : (s.setPos c p).ovl = s.ovl := by cases c <;> rfl
@[simp] theorem State.setPos_prevWin (s : State) (c : CtxId) (p : Nat) : (s.setPos c p).prevWin = s.prevWin := by cases c <;> rfl
@[simp] theorem State.setPos_vbuf (s : State) (c : CtxId) (p : Nat) : (s.setPos c p).vbuf = s.vbuf := by cases c <;> rfl
@[simp] theorem State.setPos_vidx (s : State) (c : CtxId) (p : Nat) : (s.setPos c p).vidx = s.vidx := by cases c <;> rfl
@[simp] theorem State.setPos_mem (s : State) (c : CtxId) (p : Nat) : (s.setPos c p).mem = s.mem := by cases c <;> rfl
@[simp] theorem State.setPos_stale0 (s : State) (c : CtxId) (p : Nat) : (s.setPos c p).stale0 = s.stale0 := by cases c <;> rfl
@[simp] theorem State.setPos_stale1 (s : State) (c : CtxId) (p : Nat) : (s.setPos c p).stale1 = s.stale1 := by cases c <;> rfl
@[simp] theorem State.setPos_draws (s : State) (c : CtxId) (p : Nat) : (s.setPos c p).draws = s.draws := by cases c <;> rfl
@[simp] theorem State.setPos_cfg (s : State) (c : CtxId) (p : Nat) : (s.setPos c p).cfg = s.cfg := by cases c <;> rfl
@[simp] theorem State.setPos_host (s : State) (c : CtxId) (p : Nat) : (s.setPos c p).host = s.host := by cases c <;> rfl
@[simp] theorem State.setPos_hostData (s : State) (c : CtxId) (p : Nat) : (s.setPos c p).hostData = s.hostData := by cases c <;> rfl

@[simp] theorem State.setOrigin_a0 (s : State) (c : CtxId) (x : BitCtx) : (s.setOrigin c x).a0 = s.a0 := by cases c <;> rfl
@[simp] theorem State.setOrigin_a1 (s : State) (c : CtxId) (x : BitCtx) : (s.setOrigin c x).a1 = s.a1 := by cases c <;> rfl
@[simp] theorem State.setOrigin_a2 (s : State) (c : CtxId) (x : BitCtx) : (s.setOrigin c x).a2 = s.a2 := by cases c <;> rfl
@[simp] theorem State.setOrigin_a3 (s : State) (c : CtxId) (x : BitCtx) : (s.setOrigin c x).a3 = s.a3 := by cases c <;> rfl
@[simp] theorem State.setOrigin_r0 (s : State) (c : CtxId) (x : BitCtx) : (s.setOrigin c x).r0 = s.r0 := by cases c <;> rfl
@[simp] theorem State.setOrigin_r1 (s : State) (c : CtxId) (x : BitCtx) : (s.setOrigin c x).r1 = s.r1 := by cases c <;> rfl
@[simp] theorem State.setOrigin_rc (s : State) (c : CtxId) (x : BitCtx) : (s.setOrigin c x).rc = s.rc := by cases c <;> rfl
@[simp] theorem State.setOrigin_eob (s : State) (c : CtxId) (x : BitCtx) : (s.setOrigin c x).eob = s.eob := by cases c <;> rfl
@[simp] theorem State.setOrigin_estky (s : State) (c : CtxId) (x : BitCtx) : (s.setOrigin c x).estky = s.estky := by cases c <;> rfl
@[simp] theorem State.setOrigin_cmd (s : State) (c : CtxId) (x : BitCtx) : (s.setOrigin c x).cmd = s.cmd := by cases c <;> rfl
@[simp] theorem State.setOrigin_ovl (s : State) (c : CtxId) (x : BitCtx) : (s.setOrigin c x).ovl = s.ovl := by cases c <;> rfl
@[simp] theorem State.setOrigin_prevWin (s : State) (c : CtxId) (x : BitCtx) : (s.setOrigin c x).prevWin = s.prevWin := by cases c <;> rfl
@[simp] theorem State.setOrigin_vbuf (s : State) (c : CtxId) (x : BitCtx) : (s.setOrigin c x).vbuf = s.vbuf := by cases c <;> rfl
@[simp] theorem State.setOrigin_vidx (s : State) (c : CtxId) (x : BitCtx) : (s.setOrigin c x).vidx = s.vidx := by cases c <;> rfl
@[simp] theorem State.setOrigin_mem (s : State) (c : CtxId) (x : BitCtx) : (s.setOrigin c x).mem = s.mem := by cases c <;> rfl
@[simp] theorem State.setOrigin_draws (s : State) (c : CtxId) (x : BitCtx) : (s.setOrigin c x).draws = s.draws := by cases c <;> rfl
@[simp] theorem State.setOrigin_cfg (s : State) (c : CtxId) (x : BitCtx) : (s.setOrigin c x).cfg = s.cfg := by cases c <;> rfl
@[simp] theorem State.setOrigin_host (s : State) (c : CtxId) (x : BitCtx) : (s.setOrigin c x).host = s.host := by cases c <;> rfl
@[simp] theorem State.setOrigin_hostData (s : State) (c : CtxId) (x : BitCtx) : (s.setOrigin c x).hostData = s.hostData := by cases c <;> rfl

/-! ## Reset -/

@[simp] theorem State.resetBlock_a0 (s : State) (w : Word) : (s.resetBlock w).a0 = 0#32 := rfl
@[simp] theorem State.resetBlock_a1 (s : State) (w : Word) : (s.resetBlock w).a1 = 0#32 := rfl
@[simp] theorem State.resetBlock_a2 (s : State) (w : Word) : (s.resetBlock w).a2 = 0#32 := rfl
@[simp] theorem State.resetBlock_a3 (s : State) (w : Word) : (s.resetBlock w).a3 = 0#32 := rfl
@[simp] theorem State.resetBlock_r0 (s : State) (w : Word) : (s.resetBlock w).r0 = 0#32 := rfl
@[simp] theorem State.resetBlock_r1 (s : State) (w : Word) : (s.resetBlock w).r1 = 0#32 := rfl
@[simp] theorem State.resetBlock_rc (s : State) (w : Word) : (s.resetBlock w).rc = 0#32 := rfl
@[simp] theorem State.resetBlock_eob (s : State) (w : Word) : (s.resetBlock w).eob = false := rfl
@[simp] theorem State.resetBlock_estky (s : State) (w : Word) : (s.resetBlock w).estky = false := rfl
@[simp] theorem State.resetBlock_cmd (s : State) (w : Word) : (s.resetBlock w).cmd = w := rfl
@[simp] theorem State.resetBlock_bs0 (s : State) (w : Word) : (s.resetBlock w).bs0 = BitCtx.reset := rfl
@[simp] theorem State.resetBlock_bs1 (s : State) (w : Word) : (s.resetBlock w).bs1 = BitCtx.reset := rfl
@[simp] theorem State.resetBlock_ovl (s : State) (w : Word) : (s.resetBlock w).ovl = Vector.replicate 2 (Vector.replicate 32 (zeros 9)) := rfl
@[simp] theorem State.resetBlock_prevWin (s : State) (w : Word) : (s.resetBlock w).prevWin = Vector.replicate 2 (Vector.replicate 32 WindowClass.normal) := rfl
@[simp] theorem State.resetBlock_vbuf (s : State) (w : Word) : (s.resetBlock w).vbuf = Vector.replicate 2 (Vector.replicate 8 (zeros 64)) := rfl
@[simp] theorem State.resetBlock_vidx (s : State) (w : Word) : (s.resetBlock w).vidx = 0#3 := rfl
@[simp] theorem State.resetBlock_mem (s : State) (w : Word) : (s.resetBlock w).mem = s.mem := rfl
@[simp] theorem State.resetBlock_stale0 (s : State) (w : Word) : (s.resetBlock w).stale0 = [] := rfl
@[simp] theorem State.resetBlock_stale1 (s : State) (w : Word) : (s.resetBlock w).stale1 = [] := rfl
@[simp] theorem State.resetBlock_draws (s : State) (w : Word) : (s.resetBlock w).draws = s.draws := rfl
@[simp] theorem State.resetBlock_cfg (s : State) (w : Word) : (s.resetBlock w).cfg = s.cfg := rfl
@[simp] theorem State.resetBlock_host (s : State) (w : Word) : (s.resetBlock w).host = s.host := rfl
@[simp] theorem State.resetBlock_hostData (s : State) (w : Word) : (s.resetBlock w).hostData = s.hostData := rfl

/-! ## Contexts by name -/

@[simp] theorem State.finish_ctx (s : State) (code : ReturnCode) (r0 r1 : Nat) (e : Bool) (c : CtxId) :
    (s.finish code r0 r1 e).ctx c = s.ctx c := by cases c <;> rfl

@[simp] theorem State.succeed_ctx (s : State) (r0 r1 : Nat) (c : CtxId) : (s.succeed r0 r1).ctx c = s.ctx c := by
  cases c <;> rfl

@[simp] theorem State.fail_ctx (s : State) (code : ReturnCode) (r1 : Nat) (c : CtxId) : (s.fail code r1).ctx c = s.ctx c := by
  cases c <;> rfl

@[simp] theorem State.storeByte_ctx (s : State) (a : Nat) (b : Byte) (c : CtxId) : (s.storeByte a b).ctx c = s.ctx c := by
  cases c <;> rfl

@[simp] theorem State.storeBytes_ctx (s : State) (a : Nat) (bs : List Byte) (c : CtxId) :
    (s.storeBytes a bs).ctx c = s.ctx c := by cases c <;> simp [State.ctx]

@[simp] theorem State.storeWords_ctx (s : State) (a : Nat) (ws : List Word) (c : CtxId) :
    (s.storeWords a ws).ctx c = s.ctx c := by simp [State.storeWords]

@[simp] theorem State.setPos_ctx_same (s : State) (c : CtxId) (p : Nat) :
    (s.setPos c p).ctx c = { s.ctx c with pos := BitVec.ofNat 32 p } := by cases c <;> rfl

theorem State.setPos_ctx_other (s : State) (c d : CtxId) (p : Nat) (h : d ≠ c) : (s.setPos c p).ctx d = s.ctx d := by
  cases c <;> cases d <;> first | rfl | exact absurd rfl h

@[simp] theorem State.setOrigin_ctx_same (s : State) (c : CtxId) (x : BitCtx) : (s.setOrigin c x).ctx c = x := by
  cases c <;> rfl

theorem State.setOrigin_ctx_other (s : State) (c d : CtxId) (x : BitCtx) (h : d ≠ c) : (s.setOrigin c x).ctx d = s.ctx d := by
  cases c <;> cases d <;> first | rfl | exact absurd rfl h

@[simp] theorem State.setOrigin_stale_same (s : State) (c : CtxId) (x : BitCtx) : (s.setOrigin c x).stale c = [] := by
  cases c <;> rfl

/-! ## Return codes -/

@[simp] theorem estkyAfter_none (b : Bool) : estkyAfter b .none = b := by
  simp [estkyAfter, ReturnCode.isFailure, ReturnCode.toInt]

theorem estkyAfter_failure (b : Bool) (code : ReturnCode) (h : code.isFailure = true) : estkyAfter b code = true := by
  simp [estkyAfter, h]

/-- Every code but `NONE` is a failure (60_exceptions.md R330). -/
theorem ReturnCode.isFailure_iff (code : ReturnCode) : code.isFailure = true ↔ code ≠ .none := by cases code <;> decide

/-- Distinct codes have distinct words. -/
theorem ReturnCode.word_injective (c d : ReturnCode) (h : c.word = d.word) : c = d := by
  revert h; cases c <;> cases d <;> decide

/-- A code's word is negative exactly when the code is a failure. -/
theorem ReturnCode.msb_word (code : ReturnCode) : code.word.msb = code.isFailure := by cases code <;> decide

end Sys2Proof.Machine
end

