-- ==== Sys2Proof/Laws/Memory.lean ====
section
/-! SUPPORT. Reading after writing, and that every memory operation keeps the canonical form (log entry 6). -/

namespace Sys2Proof.Machine

/-! ## Cells -/

theorem Memory.lookup_insert_same (a : Nat) (b : Byte) (m : Memory) : Memory.lookup (Memory.insert a b m) a = some b := by
  induction m with
  | nil => simp [Memory.insert, Memory.lookup]
  | cons p m ih =>
    obtain ⟨k, v⟩ := p
    simp only [Memory.insert]
    split
    · simp [Memory.lookup]
    · split
      · simp [Memory.lookup]
      · rename_i h
        simp [Memory.lookup, ih, Ne.symm h]

theorem Memory.lookup_insert_other {a a' : Nat} (b : Byte) (m : Memory) (h : a' ≠ a) :
    Memory.lookup (Memory.insert a b m) a' = Memory.lookup m a' := by
  induction m with
  | nil => simp [Memory.insert, Memory.lookup, Ne.symm h]
  | cons p m ih =>
    obtain ⟨k, v⟩ := p
    simp only [Memory.insert]
    split
    · simp [Memory.lookup, Ne.symm h]
    · split
      · subst k; simp [Memory.lookup, Ne.symm h]
      · simp [Memory.lookup, ih]

/-- The addresses of a memory with one byte written. -/
theorem Memory.mem_keys_insert {a k : Nat} {b : Byte} {m : Memory} (h : k ∈ (Memory.insert a b m).map Prod.fst) :
    k = a ∨ k ∈ m.map Prod.fst := by
  induction m with
  | nil => simpa [Memory.insert] using h
  | cons p m ih =>
    obtain ⟨k', v⟩ := p
    simp only [Memory.insert] at h
    split at h
    · simpa using h
    · split at h
      · simp only [List.map_cons, List.mem_cons] at h ⊢
        tauto
      · simp only [List.map_cons, List.mem_cons] at h ⊢
        rcases h with h | h
        · exact .inr (.inl h)
        · rcases ih h with h | h
          · exact .inl h
          · exact .inr (.inr h)

theorem Memory.insert_wf (a : Nat) (b : Byte) {m : Memory} (h : m.wf) : (Memory.insert a b m).wf := by
  induction m with
  | nil => simp [Memory.insert, Memory.wf]
  | cons p m ih =>
    obtain ⟨k, v⟩ := p
    simp only [Memory.wf, List.map_cons, List.pairwise_cons] at h
    simp only [Memory.insert]
    split
    · rename_i hlt
      simp only [Memory.wf, List.map_cons, List.pairwise_cons, List.mem_cons]
      refine ⟨?_, h⟩
      rintro x (rfl | hx)
      · exact hlt
      · exact lt_trans hlt (h.1 x hx)
    · split
      · rename_i heq
        subst heq
        exact List.pairwise_cons.mpr h
      · rename_i hnlt hne
        refine List.pairwise_cons.mpr ⟨?_, ih h.2⟩
        intro x hx
        rcases Memory.mem_keys_insert hx with rfl | hx
        · show k < x
          omega
        · exact h.1 x hx

/-- Every cell after a write is the one written or was there before. -/
theorem Memory.mem_insert {a : Nat} {b : Byte} {m : Memory} {p : Host.Cell} (h : p ∈ Memory.insert a b m) :
    p = (a, b) ∨ p ∈ m := by
  induction m with
  | nil => simpa [Memory.insert] using h
  | cons q m ih =>
    obtain ⟨k, v⟩ := q
    simp only [Memory.insert] at h
    split at h
    · simpa using h
    · split at h
      · simp only [List.mem_cons] at h ⊢
        tauto
      · simp only [List.mem_cons] at h ⊢
        rcases h with h | h
        · exact .inr (.inl h)
        · rcases ih h with h | h
          · exact .inl h
          · exact .inr (.inr h)

/-- A run of cells with one value. -/
def Memory.fill (base n : Nat) (v : Byte) : Memory := (List.range n).map fun i => (base + i, v)

theorem Memory.lookup_fill_range (base : Nat) (v : Byte) (is : List Nat) (a : Nat) :
    Memory.lookup (is.map fun i => (base + i, v)) a = if ∃ i ∈ is, base + i = a then some v else none := by
  induction is with
  | nil => simp [Memory.lookup]
  | cons i is ih =>
    simp only [List.map_cons, Memory.lookup, ih, List.mem_cons]
    by_cases h : base + i = a
    · simp [h]
    · simp [h]

theorem Memory.lookup_fill (base n : Nat) (v : Byte) (a : Nat) (h : base ≤ a ∧ a < base + n) :
    Memory.lookup (Memory.fill base n v) a = some v := by
  rw [Memory.fill, Memory.lookup_fill_range, if_pos]
  exact ⟨a - base, List.mem_range.mpr (by omega), by omega⟩

/-! ## Maps of changed bits -/

theorem StaleMap.note_wf {m : StaleMap} (a : Nat) (diff : Byte) (h : m.wf) : (m.note a diff).wf := by
  unfold StaleMap.note
  split
  · exact h
  · rename_i hd
    refine ⟨Memory.insert_wf _ _ h.1, fun p hp => ?_⟩
    rcases Memory.mem_insert hp with rfl | hp
    · intro h0
      exact hd (by
        have := congrArg (fun x => x &&& diff) h0
        exact (by simpa [BitVec.and_or_distrib_right] using this : _ ∧ _).2)
    · exact h.2 p hp

theorem noteChange_wf {x : BitCtx} {m : StaleMap} (a : Nat) (diff : Byte) (h : m.wf) : (noteChange x m a diff).wf := by
  unfold noteChange
  split
  · exact StaleMap.note_wf a diff h
  · exact h

theorem noteChange_covered {x : BitCtx} {m : StaleMap} (a : Nat) (diff : Byte) (h : ∀ p ∈ m, x.covers p.1 = true) :
    ∀ p ∈ noteChange x m a diff, x.covers p.1 = true := by
  unfold noteChange
  split
  · rename_i hc
    unfold StaleMap.note
    split
    · exact h
    · intro p hp
      rcases Memory.mem_insert hp with rfl | hp
      · exact hc
      · exact h p hp
  · exact h

theorem StaleMap.mask_note_other {m : StaleMap} {a a' : Nat} (diff : Byte) (h : a' ≠ a) :
    (m.note a diff).mask a' = m.mask a' := by
  unfold StaleMap.note
  split
  · rfl
  · simp [StaleMap.mask, Memory.lookup_insert_other _ _ h]

theorem StaleMap.mask_note_same (m : StaleMap) (a : Nat) (diff : Byte) : (m.note a diff).mask a = m.mask a ||| diff := by
  unfold StaleMap.note
  split
  · rename_i h
    simp [h]
  · simp [StaleMap.mask, Memory.lookup_insert_same]

/-! ## Bytes -/

/-- A byte reads the same in states with the same memory. -/
theorem State.readByte_congr {s t : State} (h : t.mem = s.mem) (a : Nat) : t.readByte a = s.readByte a := by
  rw [State.readByte, State.readByte, h]

/-- A word reads the same in states with the same memory. -/
theorem State.readWord_congr {s t : State} (h : t.mem = s.mem) (a : Nat) : t.readWord a = s.readWord a := by
  simp only [State.readWord, State.readByte_congr h]

@[simp] theorem State.readByte_storeByte_same (s : State) (a : Nat) (b : Byte) : (s.storeByte a b).readByte a = b := by
  simp [State.readByte, Memory.lookup_insert_same]

theorem State.readByte_storeByte_other (s : State) {a a' : Nat} (b : Byte) (h : a' ≠ a) :
    (s.storeByte a b).readByte a' = s.readByte a' := by
  simp [State.readByte, Memory.lookup_insert_other _ _ h]

/-- A byte outside the bytes stored reads as before. -/
theorem State.readByte_storeBytes_outside (s : State) (a : Nat) (bs : List Byte) (x : Nat)
    (h : x < a ∨ a + bs.length ≤ x) : (s.storeBytes a bs).readByte x = s.readByte x := by
  induction bs generalizing s a with
  | nil => rfl
  | cons b bs ih =>
    simp only [List.length_cons] at h
    rw [State.storeBytes, ih _ _ (by omega), State.readByte_storeByte_other _ _ (by omega)]

/-- A byte stored reads as stored. -/
theorem State.readByte_storeBytes_inside (s : State) (a : Nat) (bs : List Byte) (i : Nat) (h : i < bs.length) :
    (s.storeBytes a bs).readByte (a + i) = bs[i] := by
  induction bs generalizing s a i with
  | nil => simp at h
  | cons b bs ih =>
    cases i with
    | zero =>
      rw [State.storeBytes, State.readByte_storeBytes_outside _ _ _ _ (by omega)]
      simp
    | succ i =>
      have := ih (s.storeByte a b) (a + 1) i (by simpa using h)
      rw [State.storeBytes, show a + (i + 1) = a + 1 + i by omega, this]
      simp

theorem State.storeBytes_append (s : State) (a : Nat) (xs ys : List Byte) :
    s.storeBytes a (xs ++ ys) = (s.storeBytes a xs).storeBytes (a + xs.length) ys := by
  induction xs generalizing s a with
  | nil => rfl
  | cons x xs ih =>
    simp only [List.cons_append, State.storeBytes, ih, List.length_cons]
    congr 1
    omega

/-! ## Words and halfwords -/

@[simp] theorem wordBytes_length (w : Word) : (wordBytes w).length = 4 := rfl

@[simp] theorem halfBytes_length (h : Half) : (halfBytes h).length = 2 := rfl

theorem flatMap_wordBytes_length (ws : List Word) : (ws.flatMap wordBytes).length = 4 * ws.length := by
  induction ws with
  | nil => rfl
  | cons w ws ih => simp [ih]; omega

theorem flatMap_halfBytes_length (hs : List Half) : (hs.flatMap halfBytes).length = 2 * hs.length := by
  induction hs with
  | nil => rfl
  | cons w ws ih => simp [ih]; omega

/-- The four bytes of a word, put together, are the word. -/
theorem word_of_bytes (w : Word) :
    w.extractLsb' 24 8 ++ w.extractLsb' 16 8 ++ w.extractLsb' 8 8 ++ w.extractLsb' 0 8 = w := by
  ext i hi
  simp only [BitVec.getElem_append, BitVec.getElem_extractLsb']
  split
  · simp [← BitVec.getLsbD_eq_getElem]
  · split
    · rw [BitVec.getLsbD_eq_getElem (by omega)]; congr 1; omega
    · split
      · rw [BitVec.getLsbD_eq_getElem (by omega)]; congr 1; omega
      · rw [BitVec.getLsbD_eq_getElem (by omega)]; congr 1; omega

/-- The two bytes of a halfword, put together, are the halfword. -/
theorem half_of_bytes (h : Half) : h.extractLsb' 8 8 ++ h.extractLsb' 0 8 = h := by
  ext i hi
  simp only [BitVec.getElem_append, BitVec.getElem_extractLsb']
  split
  · simp [← BitVec.getLsbD_eq_getElem]
  · rw [BitVec.getLsbD_eq_getElem (by omega)]; congr 1; omega

theorem flatMap_wordBytes_get (ws : List Word) (i : Nat) (h : i < ws.length) (k : Nat) (hk : k < 4) :
    (ws.flatMap wordBytes)[4 * i + k]'(by rw [flatMap_wordBytes_length]; omega) = (wordBytes ws[i])[k] := by
  induction ws generalizing i with
  | nil => simp at h
  | cons w ws ih =>
    cases i with
    | zero => simp [List.getElem_append, hk]
    | succ i =>
      have := ih i (by simpa using h)
      simp only [List.flatMap_cons, List.getElem_cons_succ]
      rw [List.getElem_append_right (by rw [wordBytes_length]; omega)]
      simp only [wordBytes_length, show 4 * (i + 1) + k - 4 = 4 * i + k by omega]
      exact this

theorem flatMap_halfBytes_get (hs : List Half) (i : Nat) (h : i < hs.length) (k : Nat) (hk : k < 2) :
    (hs.flatMap halfBytes)[2 * i + k]'(by rw [flatMap_halfBytes_length]; omega) = (halfBytes hs[i])[k] := by
  induction hs generalizing i with
  | nil => simp at h
  | cons w ws ih =>
    cases i with
    | zero => simp [List.getElem_append, hk]
    | succ i =>
      have := ih i (by simpa using h)
      simp only [List.flatMap_cons, List.getElem_cons_succ]
      rw [List.getElem_append_right (by rw [halfBytes_length]; omega)]
      simp only [halfBytes_length, show 2 * (i + 1) + k - 2 = 2 * i + k by omega]
      exact this

/-- Word `i` of the words stored reads as stored. -/
theorem State.readWord_storeBytes_words (s : State) (a : Nat) (ws : List Word) (i : Nat) (h : i < ws.length) :
    (s.storeBytes a (ws.flatMap wordBytes)).readWord (a + 4 * i) = ws[i] := by
  have hb : ∀ k (hk : k < 4), (s.storeBytes a (ws.flatMap wordBytes)).readByte (a + 4 * i + k) = (wordBytes ws[i])[k] := by
    intro k hk
    rw [Nat.add_assoc, State.readByte_storeBytes_inside _ _ _ _ (by rw [flatMap_wordBytes_length]; omega),
      flatMap_wordBytes_get ws i h k hk]
  rw [State.readWord, hb 3 (by omega), hb 2 (by omega), hb 1 (by omega),
    show (s.storeBytes a (ws.flatMap wordBytes)).readByte (a + 4 * i) = _ from hb 0 (by omega)]
  exact word_of_bytes ws[i]

theorem State.readWord_storeWords (s : State) (a : Nat) (ws : List Word) (i : Nat) (h : i < ws.length) :
    (s.storeWords a ws).readWord (a + 4 * i) = ws[i] := State.readWord_storeBytes_words s a ws i h

/-- Halfword `i` of the halfwords stored reads as stored. -/
theorem State.readHalf_storeBytes_halves (s : State) (a : Nat) (hs : List Half) (i : Nat) (h : i < hs.length) :
    (s.storeBytes a (hs.flatMap halfBytes)).readHalf (a + 2 * i) = hs[i] := by
  have hb : ∀ k (hk : k < 2), (s.storeBytes a (hs.flatMap halfBytes)).readByte (a + 2 * i + k) = (halfBytes hs[i])[k] := by
    intro k hk
    rw [Nat.add_assoc, State.readByte_storeBytes_inside _ _ _ _ (by rw [flatMap_halfBytes_length]; omega),
      flatMap_halfBytes_get hs i h k hk]
  rw [State.readHalf, hb 1 (by omega),
    show (s.storeBytes a (hs.flatMap halfBytes)).readByte (a + 2 * i) = _ from hb 0 (by omega)]
  exact half_of_bytes hs[i]

theorem State.readByte_storeWords_outside (s : State) (a : Nat) (ws : List Word) (x : Nat)
    (h : x < a ∨ a + 4 * ws.length ≤ x) : (s.storeWords a ws).readByte x = s.readByte x :=
  State.readByte_storeBytes_outside _ _ _ _ (by rw [flatMap_wordBytes_length]; exact h)

/-! ## Soundness of memory -/

theorem State.storeByte_sound {s : State} (a : Nat) (b : Byte) (ha : a < addressSpace) (h : s.MemorySound) :
    (s.storeByte a b).MemorySound := by
  obtain ⟨h1, h2, h3, h4, h5, h6⟩ := h
  refine ⟨Memory.insert_wf _ _ h1, fun p hp => ?_, noteChange_wf _ _ h3, noteChange_covered _ _ h4,
    noteChange_wf _ _ h5, noteChange_covered _ _ h6⟩
  rcases Memory.mem_insert hp with rfl | hp
  · exact ha
  · exact h2 p hp

theorem State.storeBytes_sound {s : State} (a : Nat) (bs : List Byte) (ha : a + bs.length ≤ addressSpace)
    (h : s.MemorySound) : (s.storeBytes a bs).MemorySound := by
  induction bs generalizing s a with
  | nil => exact h
  | cons b bs ih =>
    simp only [List.length_cons] at ha
    exact ih (a + 1) (by omega) (State.storeByte_sound a b (by omega) h)

theorem State.storeWords_sound {s : State} (a : Nat) (ws : List Word) (ha : a + 4 * ws.length ≤ addressSpace)
    (h : s.MemorySound) : (s.storeWords a ws).MemorySound :=
  State.storeBytes_sound a _ (by rw [flatMap_wordBytes_length]; exact ha) h

/-- The memory of the reset state is in canonical form. -/
theorem State.reset_mem_wf : State.reset.mem.wf := List.Pairwise.nil

end Sys2Proof.Machine
end

