-- ==== Sys2Proof/Laws/Operands.lean ====
section
/-! SUPPORT. What the region checks of 20_memory.md R85 and R86 answer, what a stream bit depends on and which bits a store frees
(70_reset_and_hazards.md R375), and the lengths of what a command stores. -/

namespace Sys2Proof.Machine

/-- The region check passes exactly when every region fits, none clash, and all are reachable. -/
theorem regionError_eq_none_iff (cfg : Config) (rs : List Region) :
    regionError cfg rs = none ↔ rs.all Region.fits = true ∧ anyClash rs = false ∧ rs.all (fun r => r.reachable cfg) = true := by
  unfold regionError
  cases rs.all Region.fits <;> cases anyClash rs <;> cases rs.all (fun r => r.reachable cfg) <;> simp

/-- The region check answers an operand error exactly when a region does not fit or two clash. -/
theorem regionError_eq_operand_iff (cfg : Config) (rs : List Region) :
    regionError cfg rs = some .errOperand ↔ ¬(rs.all Region.fits = true ∧ anyClash rs = false) := by
  unfold regionError
  cases rs.all Region.fits <;> cases anyClash rs <;> cases rs.all (fun r => r.reachable cfg) <;> simp

/-- The region check answers a bus error exactly when the operands are right and a region is not reachable. -/
theorem regionError_eq_bus_iff (cfg : Config) (rs : List Region) :
    regionError cfg rs = some .errBus
      ↔ rs.all Region.fits = true ∧ anyClash rs = false ∧ rs.all (fun r => r.reachable cfg) = false := by
  unfold regionError
  cases rs.all Region.fits <;> cases anyClash rs <;> cases rs.all (fun r => r.reachable cfg) <;> simp

/-- The region check answers no other code. -/
theorem regionError_cases (cfg : Config) (rs : List Region) :
    regionError cfg rs = none ∨ regionError cfg rs = some .errOperand ∨ regionError cfg rs = some .errBus := by
  unfold regionError
  split
  · split <;> simp
  · simp

/-- The parts of a region that fits. -/
theorem Region.fits_iff (r : Region) : r.fits = true ↔ r.len = 0 ∨ r.base % r.align = 0 ∧ r.base + r.len ≤ addressSpace := by
  simp [Region.fits]

/-- A region with no bytes passes all checks (R85). -/
theorem Region.empty_passes {r : Region} (h : r.len = 0) :
    r.fits = true ∧ (∀ cfg, r.reachable cfg = true) ∧ ∀ q, r.clashes q = false ∧ q.clashes r = false := by
  simp [Region.fits, Region.reachable, Region.clashes, rangesOverlap, h]

/-- A region with bytes fits exactly when it is aligned and ends in the address space. -/
theorem Region.fits_iff_of_pos {r : Region} (h : 0 < r.len) :
    r.fits = true ↔ r.base % r.align = 0 ∧ r.base + r.len ≤ addressSpace := by
  rw [Region.fits_iff]
  exact or_iff_right (by omega)

/-- A region with bytes is reachable exactly when each way it is used is accessible. -/
theorem Region.reachable_of_pos {r : Region} (h : 0 < r.len) (cfg : Config) :
    r.reachable cfg = ((!r.reads || accessible cfg r.base r.len .read) && (!r.writes || accessible cfg r.base r.len .write)) := by
  rw [Region.reachable, decide_eq_false (by omega), Bool.false_or]

theorem anyClash_pair (r q : Region) : anyClash [r, q] = r.clashes q := by simp [anyClash]

/-- Overlap as a fact on addresses (R86): some byte lies in both ranges. -/
theorem rangesOverlap_iff (b1 n1 b2 n2 : Nat) :
    rangesOverlap b1 n1 b2 n2 = true ↔ ∃ a, (b1 ≤ a ∧ a < b1 + n1) ∧ (b2 ≤ a ∧ a < b2 + n2) := by
  rw [rangesOverlap, decide_eq_true_iff]
  constructor
  · intro h
    exact ⟨max b1 b2, by omega⟩
  · rintro ⟨a, h⟩
    omega

theorem rangesOverlap_comm (b1 n1 b2 n2 : Nat) : rangesOverlap b1 n1 b2 n2 = rangesOverlap b2 n2 b1 n1 := by
  rw [Bool.eq_iff_iff, rangesOverlap_iff, rangesOverlap_iff]
  simp only [and_comm]

/-! ## The regions of a command that is ready -/

/-- The regions of `IMDCT.RUN` pass their check exactly when the command is ready. -/
theorem regionError_imdct_iff (s : State) : regionError s.cfg (imdctRegions s) = none ↔ ImdctReady s := by
  rw [regionError_eq_none_iff]
  simp only [imdctRegions, anyClash_pair, Region.clashes, Region.reachable, List.all_cons, List.all_nil, Region.fits_iff,
    Bool.and_true, Bool.and_eq_true, Bool.not_true, Bool.not_false, Bool.true_or, Bool.false_or, Bool.or_true, Bool.true_and,
    OfNat.ofNat_ne_zero, false_or, decide_false]
  exact ⟨fun h => ⟨⟨h.1.1.1, h.1.2.1⟩, ⟨h.1.1.2, h.1.2.2⟩, h.2.1, h.2.2.1, h.2.2.2⟩,
    fun h => ⟨⟨⟨h.aligned.1, h.fits.1⟩, h.aligned.2, h.fits.2⟩, h.apart, h.readable, h.writable⟩⟩

/-- The regions of a ready `SYN.RUN` pass their check. -/
theorem regionError_syn {stereo : Bool} {fmt : PcmFormat} {s : State} (h : SynReady stereo fmt s) :
    regionError s.cfg (synRegions s stereo fmt) = none := by
  rw [regionError_eq_none_iff]
  have hw := h.writable
  cases stereo
  · simp [synRegions, anyClash, Region.clashes, Region.reachable, Region.fits_iff, h.left, h.output, h.apartLeft,
      h.readableLeft, hw]
  · simp [synRegions, anyClash, Region.clashes, Region.reachable, Region.fits_iff, h.left, h.right rfl, h.output, h.apartLeft,
      h.apartRight rfl, h.readableLeft, h.readableRight rfl, hw]

/-- The region of `VMDCT.RUN` passes its check exactly when the command is ready. -/
theorem regionError_vmdct_iff (lg : BitVec 4) (s : State) : regionError s.cfg (vmdctRegions s lg) = none ↔ VmdctReady lg s := by
  have h0 : 4 * vmdctWords lg ≠ 0 := by
    rw [vmdctWords]
    positivity
  rw [regionError_eq_none_iff]
  simp only [vmdctRegions, anyClash, Region.reachable, List.all_cons, List.all_nil, List.any_nil, Region.fits_iff, h0, false_or,
    decide_false, Bool.and_true, Bool.and_eq_true, Bool.not_true, Bool.or_false, Bool.false_or, true_and]
  exact ⟨fun h => ⟨h.1.1, h.1.2, h.2.1, h.2.2⟩, fun h => ⟨⟨h.aligned, h.fits⟩, h.readable, h.writable⟩⟩

/-! ## Streams -/

theorem bitInByte_eq (ord : BitOrder) (j : Nat) : bitInByte ord j = if ord = .msb then 7 - j % 8 else j % 8 := by
  cases ord <;> rfl

/-- Where no bit of the buffer has changed, a stream bit is the bit of memory (20_memory.md R82). -/
theorem State.sbit_of_unchanged {s : State} {c : CtxId} (h : s.stale c = []) (j : Nat) :
    s.sbit c j = (s.readByte ((s.ctx c).base.toNat + j / 8)).getLsbD (bitInByte (s.ctx c).ord j) := by
  simp [State.sbit, State.freed, State.memoryBit, h, StaleMap.mask, Memory.lookup]

/-- A stream bit of memory depends on memory and on the context's origin and order alone. -/
theorem State.memoryBit_congr {s t : State} {c : CtxId} (hm : t.mem = s.mem) (hb : (t.ctx c).base = (s.ctx c).base)
    (ho : (t.ctx c).ord = (s.ctx c).ord) (j : Nat) : t.memoryBit c j = s.memoryBit c j := by
  rw [State.memoryBit, State.memoryBit, State.readByte_congr hm, hb, ho]

/-- Whether a stream bit has changed depends on the map of changed bits and on the context's origin and order alone. -/
theorem State.freed_congr {s t : State} {c : CtxId} (hs : t.stale c = s.stale c) (hb : (t.ctx c).base = (s.ctx c).base)
    (ho : (t.ctx c).ord = (s.ctx c).ord) (j : Nat) : t.freed c j = s.freed c j := by
  rw [State.freed, State.freed, hs, hb, ho]

/-- A bit of the stream lies in the buffer. -/
theorem BitCtx.covers_bit (x : BitCtx) (j : Nat) : x.covers (x.base.toNat + j / 8) = true ↔ j < 8 * x.len.toNat := by
  rw [BitCtx.covers, decide_eq_true_iff]
  omega

/-- Storing a byte frees the bits of the buffer whose value it changes, and no other. -/
theorem State.freed_storeByte (s : State) (a : Nat) (b : Byte) (c : CtxId) (j : Nat) :
    (s.storeByte a b).freed c j = true ↔ s.freed c j = true
      ∨ (j < 8 * (s.ctx c).len.toNat ∧ (s.storeByte a b).memoryBit c j ≠ s.memoryBit c j) := by
  have hs : (s.storeByte a b).stale c = noteChange (s.ctx c) (s.stale c) a (s.readByte a ^^^ b) := by cases c <;> rfl
  rw [← BitCtx.covers_bit, State.freed, State.freed, State.memoryBit, State.memoryBit, hs, State.storeByte_ctx]
  generalize (s.ctx c).base.toNat + j / 8 = x
  by_cases hx : x = a
  · subst hx
    unfold noteChange
    cases (s.ctx c).covers x
    · simp
    · simp only [if_true, StaleMap.mask_note_same, BitVec.getLsbD_or, BitVec.getLsbD_xor, State.readByte_storeByte_same,
        Bool.or_eq_true, bne_iff_ne, true_and, ne_comm]
  · rw [State.readByte_storeByte_other _ _ hx]
    unfold noteChange
    split <;> simp [StaleMap.mask_note_other _ hx]

/-- All that a store does to the changed bits of a stream: it frees the bits of the buffer whose value it changes, and no other. -/
theorem State.freed_storeBytes (s : State) (a : Nat) (bs : List Byte) (c : CtxId) (j : Nat) :
    (s.storeBytes a bs).freed c j = true ↔ s.freed c j = true
      ∨ (j < 8 * (s.ctx c).len.toNat ∧ (s.storeBytes a bs).memoryBit c j ≠ s.memoryBit c j) := by
  induction bs generalizing s a with
  | nil => simp [State.storeBytes]
  | cons b bs ih =>
    rw [State.storeBytes, ih, State.freed_storeByte, State.storeByte_ctx]
    have hb : ((s.storeByte a b).storeBytes (a + 1) bs).memoryBit c j = (s.storeByte a b).memoryBit c j
        ∨ (s.storeByte a b).memoryBit c j = s.memoryBit c j := by
      simp only [State.memoryBit, State.storeBytes_ctx, State.storeByte_ctx]
      by_cases hx : (s.ctx c).base.toNat + j / 8 = a
      · rw [hx, State.readByte_storeBytes_outside _ _ _ _ (by omega)]
        exact .inl rfl
      · rw [State.readByte_storeByte_other _ _ hx]
        exact .inr rfl
    rcases hb with hb | hb <;> rw [hb] <;> tauto

/-- A value of `a + b` bits is one of `a` bits followed by one of `b` bits, most significant bit first. -/
theorem takeMsb_add (bit : Nat → Bool) (p a b : Nat) :
    takeMsb bit p (a + b) = takeMsb bit p a * 2 ^ b + takeMsb bit (p + a) b := by
  induction b with
  | zero => simp [takeMsb]
  | succ b ih =>
    rw [← Nat.add_assoc, takeMsb, ih, takeMsb, pow_succ, Nat.add_assoc p a b]
    ring

/-- A value of `a + b` bits is one of `a` bits followed by one of `b` bits, least significant bit first. -/
theorem takeLsb_add (bit : Nat → Bool) (p a b : Nat) :
    takeLsb bit p (a + b) = takeLsb bit p a + takeLsb bit (p + a) b * 2 ^ a := by
  induction b with
  | zero => simp [takeLsb]
  | succ b ih =>
    rw [← Nat.add_assoc, takeLsb, ih, takeLsb, pow_add, Nat.add_assoc p a b]
    ring

/-- A value of `k` bits is below `2^k`, most significant bit first. -/
theorem takeMsb_lt (bit : Nat → Bool) (p k : Nat) : takeMsb bit p k < 2 ^ k := by
  induction k with
  | zero => simp [takeMsb]
  | succ k ih =>
    have := Bool.toNat_le (bit (p + k))
    rw [takeMsb, pow_succ]
    omega

/-- A value of `k` bits is below `2^k`, least significant bit first. -/
theorem takeLsb_lt (bit : Nat → Bool) (p k : Nat) : takeLsb bit p k < 2 ^ k := by
  induction k with
  | zero => simp [takeLsb]
  | succ k ih =>
    have hb := Bool.toNat_le (bit (p + k))
    have : (bit (p + k)).toNat * 2 ^ k ≤ 1 * 2 ^ k := Nat.mul_le_mul_right _ hb
    rw [takeLsb, pow_succ]
    omega

theorem State.take_lt (s : State) (c : CtxId) (p k : Nat) : s.take c p k < 2 ^ k := by
  unfold State.take
  split
  · exact takeMsb_lt _ _ _
  · exact takeLsb_lt _ _ _

/-- A value depends on its own bits alone. -/
theorem takeMsb_congr (bit bit' : Nat → Bool) (p k : Nat) (h : ∀ i, p ≤ i → i < p + k → bit' i = bit i) :
    takeMsb bit' p k = takeMsb bit p k := by
  induction k with
  | zero => rfl
  | succ k ih =>
    rw [takeMsb, takeMsb, ih fun i h1 h2 => h i h1 (by omega), h (p + k) (by omega) (by omega)]

/-! ## Lengths of outputs -/

@[simp] theorem granuleOutput_length (rows : Vector (Block × Overlap) 32) : (granuleOutput rows).length = 576 := by
  unfold granuleOutput
  exact List.length_ofFn

@[simp] theorem imdctResult_length (s : State) (ch : Channel) (bt : WindowClass) (mix : Bool) (x : Granule) :
    (imdctResult s ch bt mix x).1.length = 576 := by
  rw [imdctResult]
  cases x.guarded
  · rw [if_neg Bool.false_ne_true]
    dsimp only
    rw [List.length_ofFn]
  · rw [if_pos rfl]
    dsimp only
    rw [granuleOutput_length]

@[simp] theorem interleave_length (p0 p1 : Vector Half 32) : (interleave p0 p1).length = 64 := by
  unfold interleave
  exact List.length_ofFn

@[simp] theorem pcmOutput_length (stereo : Bool) (fmt : PcmFormat) (p0 p1 : Vector Half 32) :
    (pcmOutput stereo fmt p0 p1).length = pcmBytes stereo fmt := by
  cases stereo <;> cases fmt <;>
    simp only [pcmOutput, flatMap_halfBytes_length, flatMap_wordBytes_length, List.length_map, interleave_length,
      Vector.length_toList, pcmBytes, synChannels] <;> simp

@[simp] theorem vmdctOutput_length (s : State) (lg : BitVec 4) : (vmdctOutput s lg).length = vmdctWords lg := by
  simp [vmdctOutput, vmdctWords]

end Sys2Proof.Machine
end

