-- ==== Sys2Proof/Laws/Huffman.lean ====
section
/-! SUPPORT. The Huffman decoding loops: how far they move, how much they write, how they can end (41_huffman.md R191 to R195). -/

namespace Sys2Proof.Machine

/-! ## One value, one codeword -/

/-- A value's tail moves on and stays within the bits available. -/
theorem tail_bounds {bit : Nat → Bool} {avail m linbits maxv used : Nat} {w : Word} {u : Nat} (hu : used ≤ avail)
    (h : tail bit avail m linbits maxv used = some (w, u)) : used ≤ u ∧ u ≤ avail := by
  unfold tail at h
  by_cases he : 0 < linbits ∧ m = maxv
  · simp only [he, and_self, decide_true, true_and, if_true] at h
    split at h
    · cases h
    · split at h
      · cases h; omega
      · split at h
        · cases h
        · cases h; omega
  · simp only [he, decide_false, Bool.false_eq_true, false_and, if_false] at h
    split at h
    · cases h; omega
    · split at h
      · cases h
      · cases h; omega

/-- A codeword found lies within the bits available. -/
theorem matchCode_found {ε : Type} {str : ε → List Bool} {entries : List ε} {bit : Nat → Bool} {avail used : Nat} {e : ε}
    (h : matchCode str entries bit avail used = .found e) : e ∈ entries ∧ (str e).length ≤ avail - used := by
  unfold matchCode at h
  split at h
  · rename_i e' hf
    cases h
    have h1 := List.find?_some hf
    have h2 := List.mem_of_find?_eq_some hf
    simp only [fullMatch, Bool.and_eq_true, decide_eq_true_eq] at h1
    exact ⟨h2, h1.1⟩
  · split at h <;> cases h

/-- The codewords of a well-formed code have 1 to 32 bits (R190). -/
theorem codeWellFormed_length {codes : List (List Bool)} (h : codeWellFormed codes = true) {c : List Bool} (hc : c ∈ codes) :
    1 ≤ c.length ∧ c.length ≤ 32 := by
  simp only [codeWellFormed, Bool.and_eq_true, List.all_eq_true, decide_eq_true_eq] at h
  exact h.1.2 c hc

/-! ## One element -/

/-- A pair decoded moves on and stays within the bits available. -/
theorem decodePair_bounds {t : PairTable} {bit : Nat → Bool} {avail used : Nat} {wx wy : Word} {u : Nat} (hu : used ≤ avail)
    (h : decodePair t bit avail used = .ok (wx, wy, u)) : used ≤ u ∧ u ≤ avail := by
  unfold decodePair at h
  split at h
  · cases h
  · cases h; omega
  · split at h
    · cases h
    · cases h
    · rename_i e hm
      have := (matchCode_found hm).2
      split at h
      · cases h
      · rename_i w1 u1 h1
        have b1 := tail_bounds (by omega) h1
        split at h
        · cases h
        · rename_i w2 u2 h2
          have b2 := tail_bounds b1.2 h2
          cases h
          omega

/-- A pair that is not decoded is an overrun, a missing codeword, or a missing table. -/
theorem decodePair_error {t : PairTable} {bit : Nat → Bool} {avail used : Nat} {code : ReturnCode}
    (h : decodePair t bit avail used = .error code) :
    code = .errHuffOverrun ∨ code = .errHuffCode ∨ (code = .errHuffTable ∧ t = .absent) := by
  unfold decodePair at h
  split at h
  · cases h; simp
  · cases h
  · split at h
    · cases h; simp
    · cases h; simp
    · split at h
      · cases h; simp
      · split at h
        · cases h; simp
        · cases h

/-- The signs of a quad move on and stay within the bits available; there is one word for each magnitude. -/
theorem signTails_bounds {bit : Nat → Bool} {avail : Nat} {ms : List Bool} {used : Nat} {ws : List Word} {u : Nat}
    (hu : used ≤ avail) (h : signTails bit avail ms used = some (ws, u)) :
    used ≤ u ∧ u ≤ avail ∧ ws.length = ms.length := by
  induction ms generalizing used ws u with
  | nil => simp only [signTails] at h; cases h; exact ⟨le_refl _, hu, rfl⟩
  | cons m ms ih =>
    simp only [signTails] at h
    split at h
    · cases h
    · rename_i w u1 h1
      have b1 := tail_bounds hu h1
      split at h
      · cases h
      · rename_i ws' u2 h2
        have b2 := ih b1.2 h2
        cases h
        simp only [List.length_cons]
        omega

/-- A quad decoded moves on, stays within the bits available, and has four words. -/
theorem decodeQuad_bounds {t : QuadCode} {bit : Nat → Bool} {avail used : Nat} {ws : List Word} {u : Nat} (hu : used ≤ avail)
    (h : decodeQuad t bit avail used = .ok (ws, u)) : used < u ∧ u ≤ avail ∧ ws.length = 4 := by
  unfold decodeQuad at h
  split at h
  · cases h
  · cases h
  · rename_i e hm
    have hf := matchCode_found hm
    have hl := codeWellFormed_length t.wf (List.mem_map_of_mem hf.1)
    split at h
    · cases h
    · rename_i r hr
      obtain ⟨ws', u'⟩ := r
      have b := signTails_bounds (by omega) hr
      cases h
      refine ⟨by omega, b.2.1, ?_⟩
      rw [b.2.2]
      rfl

/-- A quad that is not decoded is an overrun or a missing codeword. -/
theorem decodeQuad_error {t : QuadCode} {bit : Nat → Bool} {avail used : Nat} {code : ReturnCode}
    (h : decodeQuad t bit avail used = .error code) : code = .errHuffOverrun ∨ code = .errHuffCode := by
  unfold decodeQuad at h
  split at h
  · cases h; simp
  · cases h; simp
  · split at h
    · cases h; simp
    · cases h

/-! ## The loops -/

/-- All that `decodePairs` can do: it moves on within the bits available and writes two words a pair; it ends well having written all,
or with a data error having written fewer. -/
theorem decodePairs_spec (t : PairTable) (bit : Nat → Bool) (avail n used : Nat) (hu : used ≤ avail) (ht : t ≠ .absent) :
    let d := decodePairs t bit avail n used
    used ≤ d.used ∧ d.used ≤ avail
      ∧ ((d.code = .none ∧ d.words.length = 2 * n)
        ∨ ((d.code = .errHuffOverrun ∨ d.code = .errHuffCode) ∧ d.words.length < 2 * n ∧ d.words.length % 2 = 0)) := by
  induction n generalizing used with
  | zero => simp [decodePairs, hu]
  | succ n ih =>
    simp only [decodePairs]
    split
    · rename_i code hc
      have := decodePair_error hc
      refine ⟨le_refl _, hu, .inr ⟨?_, by simp, by simp⟩⟩
      tauto
    · rename_i wx wy u hp
      have b := decodePair_bounds hu hp
      obtain ⟨h1, h2, h3⟩ := ih u b.2
      refine ⟨le_trans b.1 h1, h2, ?_⟩
      simp only [List.length_cons]
      rcases h3 with ⟨hc, hl⟩ | ⟨hc, hl, hm⟩
      · exact .inl ⟨hc, by omega⟩
      · exact .inr ⟨hc, by omega, by omega⟩

/-- All that `decodeQuads` can do: it moves on within the bits available and writes four words a quad; it ends well, or with a data error
having written fewer words than there was room for. -/
theorem decodeQuads_spec (t : QuadCode) (bit : Nat → Bool) (avail n used : Nat) (hu : used ≤ avail) :
    let d := decodeQuads t bit avail n used
    used ≤ d.used ∧ d.used ≤ avail ∧ d.words.length ≤ 4 * n ∧ d.words.length % 4 = 0
      ∧ (d.code = .none ∨ ((d.code = .errHuffOverrun ∨ d.code = .errHuffCode) ∧ d.words.length < 4 * n)) := by
  induction n generalizing used with
  | zero => simp [decodeQuads, hu]
  | succ n ih =>
    simp only [decodeQuads]
    split
    · split
      · rename_i code hc
        have := decodeQuad_error hc
        refine ⟨le_refl _, hu, by simp, by simp, .inr ⟨this, by simp⟩⟩
      · rename_i ws u hq
        have b := decodeQuad_bounds hu hq
        obtain ⟨h1, h2, h3, h4, h5⟩ := ih u b.2.1
        refine ⟨le_trans b.1.le h1, h2, ?_⟩
        simp only [List.length_append, b.2.2]
        refine ⟨by omega, by omega, ?_⟩
        rcases h5 with hc | ⟨hc, hl⟩
        · exact .inl hc
        · exact .inr ⟨hc, by omega⟩
    · simp [hu]

/-! ## The checks -/

/-- The checks of R192 pass exactly under the preconditions of the command and with the table there. -/
theorem huffmanError_eq_none_iff (c : CtxId) (nv : Nat) (present : Bool) (s : State) :
    huffmanError c nv present s = none ↔ HuffmanReady c nv s ∧ present = true := by
  have hf : (huffmanTarget nv s).fits = true ↔ nv = 0 ∨ s.a0.toNat % 4 = 0 ∧ s.a0.toNat + 4 * nv ≤ addressSpace := by
    simp [Region.fits_iff, huffmanTarget]
  have hc : (huffmanTarget nv s).clashes (huffmanSource (s.ctx c))
      = rangesOverlap s.a0.toNat (4 * nv) (s.ctx c).base.toNat (s.ctx c).len.toNat := by
    simp [Region.clashes, huffmanTarget, huffmanSource]
  have hr : (huffmanTarget nv s).reachable s.cfg = true ↔ (0 < nv → accessible s.cfg s.a0.toNat (4 * nv) .write = true) := by
    simp [Region.reachable, huffmanTarget, or_iff_not_imp_left, Nat.pos_iff_ne_zero]
  have ha : s.a0.toNat ≤ addressSpace := s.a0.isLt.le
  unfold huffmanError
  dsimp only
  rw [hc]
  constructor
  · intro h
    split at h; · cases h
    split at h; · cases h
    split at h; · cases h
    split at h; · cases h
    split at h; · cases h
    split at h; · cases h
    split at h; · cases h
    rename_i h1 h2 h3 h4 h5 h6 h7
    rw [Bool.not_eq_false] at h1 h5 h7
    rw [Bool.not_eq_true] at h4
    simp only [not_or, not_not, Bool.not_eq_false, hf] at h3
    exact ⟨⟨h1, not_not.mp h2, h3.1, by omega, h4, hr.mp h5, by omega⟩, h7⟩
  · rintro ⟨⟨h1, h2, h3, h4, h5, h6, h7⟩, h8⟩
    simp [h1, h2, h3, h5, h8, hf.mpr (.inr ⟨h3, h4⟩), hr.mpr h6, h7]

/-- The checks of R192 answer failures only. -/
theorem huffmanError_failure {c : CtxId} {nv : Nat} {present : Bool} {s : State} {code : ReturnCode} {r1 : Nat}
    (h : huffmanError c nv present s = some (code, r1)) :
    code = .errOperand ∨ code = .errBus ∨ code = .needMoreData ∨ code = .errHuffTable := by
  unfold huffmanError at h
  simp only at h
  split at h; · cases h; simp
  split at h; · cases h; simp
  split at h; · cases h; simp
  split at h; · cases h; simp
  split at h; · cases h; simp
  split at h; · cases h; simp
  split at h; · cases h; simp
  cases h

end Sys2Proof.Machine
end

