-- ==== Sys2Proof/Laws/Exec.lean ====
section
/-! SUPPORT. All that a command can do, said once: `exec_effect`. Proofs over all commands go by cases on `Effect`, eleven of them, and
never unfold a meaning. -/

namespace Sys2Proof.Machine

/-- The ways a command can end: `Effect i s t` says that `t` is one of the states command `i` may lead to from `s`. -/
inductive Effect (i : Instr) (s : State) : State → Prop
  /-- a failure before any change -/
  | rejected (code : ReturnCode) (r1 : Nat)
      (hc : code = .errOperand ∨ code = .errBus ∨ code = .needMoreData ∨ code = .errHuffTable) : Effect i s (s.fail code r1)
  /-- `SYS.NOP` -/
  | nop (hi : i = .sysNop) : Effect i s (s.succeed 0 0)
  /-- `SYS.RESET` -/
  | reset (hi : i = .sysReset) : Effect i s (s.resetBlock 0x01000000#32)
  /-- `BSR.INIT` opened a buffer -/
  | opened (c : CtxId) (ord : BitOrder) (hi : i = .bsrInit c ord) (hl : s.a1.toNat ≤ lenMax)
      (hw : s.a0.toNat + s.a1.toNat ≤ addressSpace) :
      Effect i s ((s.setOrigin c ⟨true, ord, s.a0, s.a1, 0#32⟩).succeed 0 (8 * s.a1.toNat))
  /-- `BSR.PEEK` looked -/
  | peeked (c : CtxId) (n : BitVec 6) (r0 : Nat) (hi : i = .bsrPeek c n) (hv : (s.ctx c).valid = true) :
      Effect i s (s.finish .none r0 (min n.toNat (s.ctx c).avail) (eobAfterPeek (min n.toNat (s.ctx c).avail) n.toNat))
  /-- `BSR.GET`, `BSR.SKIP` or `BSR.SKIPR` moved a cursor -/
  | moved (c : CtxId) (n r0 : Nat) (hi : namedContext i = some c) (ho : ∀ d ord, i ≠ .bsrInit d ord)
      (hv : (s.ctx c).valid = true) (hn : n ≤ (s.ctx c).avail) :
      Effect i s ((s.setPos c ((s.ctx c).pos.toNat + n)).succeed r0 n)
  /-- `HUF.PAIRS` or `HUF.QUADS` decoded to its end -/
  | decoded (c : CtxId) (ws : List Word) (used r1 : Nat) (hi : namedContext i = some c) (ho : ∀ d ord, i ≠ .bsrInit d ord)
      (hv : (s.ctx c).valid = true) (hu : used ≤ (s.ctx c).avail) (hr : (writtenRegion i s).1 = s.a0.toNat)
      (hl : 4 * ws.length ≤ (writtenRegion i s).2) (hf : s.a0.toNat + 4 * ws.length ≤ addressSpace) :
      Effect i s (((s.storeWords s.a0.toNat ws).setPos c ((s.ctx c).pos.toNat + used)).succeed used r1)
  /-- `HUF.PAIRS` or `HUF.QUADS` stopped at a data error, having written what was complete -/
  | broken (c : CtxId) (ws : List Word) (code : ReturnCode) (hi : namedContext i = some c) (ho : ∀ d ord, i ≠ .bsrInit d ord)
      (hc : code = .errHuffOverrun ∨ code = .errHuffCode) (hr : (writtenRegion i s).1 = s.a0.toNat)
      (hl : 4 * ws.length ≤ (writtenRegion i s).2) (hf : s.a0.toNat + 4 * ws.length ≤ addressSpace) (hs : ws.length < 1024) :
      Effect i s ((s.storeWords s.a0.toNat ws).fail code ws.length)
  /-- `IMDCT.RUN` transformed a granule -/
  | transformed (ch : Channel) (bt : WindowClass) (mix : Bool) (hi : i = .imdctRun ch bt mix) (ws : List Word)
      (ovl : Vector Overlap 32) (hl : ws.length = 576) (hf : s.a1.toNat + 4 * ws.length ≤ addressSpace) :
      Effect i s ({ s.storeWords s.a1.toNat ws with
        ovl := s.ovl.set ch ovl
        prevWin := s.prevWin.set ch (Vector.ofFn fun sb => windowClass bt mix sb.val) }.succeed 0 0)
  /-- `SYN.RUN` synthesized 32 samples a channel -/
  | synthesized (stereo : Bool) (fmt : PcmFormat) (hi : i = .synRun stereo fmt) (bs : List Byte) (rings : Vector (Vector Slot 8) 2)
      (hl : bs.length = pcmBytes stereo fmt) (hf : s.a2.toNat + bs.length ≤ addressSpace)
      (hm : stereo = false → rings[1] = s.vbuf[1]) :
      Effect i s ({ s.storeBytes s.a2.toNat bs with
        vbuf := rings
        vidx := s.vidx + 7#3 }.succeed (32 * synChannels stereo) 0)
  /-- `VMDCT.RUN` replaced its buffer -/
  | replaced (lg : BitVec 4) (hi : i = .vmdctRun lg) (ws : List Word) (hl : ws.length = vmdctWords lg)
      (hf : s.a0.toNat + 4 * ws.length ≤ addressSpace) :
      Effect i s ((s.storeWords s.a0.toNat ws).succeed (vmdctWords lg) 0)

/-- A region check that answers a code answers an operand error or a bus error. -/
theorem regionError_some {cfg : Config} {rs : List Region} {code : ReturnCode} (h : regionError cfg rs = some code) :
    code = .errOperand ∨ code = .errBus := by
  rcases regionError_cases cfg rs with h' | h' | h' <;> rw [h'] at h <;> cases h <;> simp

/-- Every region of a command whose check passes lies in the address space. -/
theorem regionError_none_fits {cfg : Config} {rs : List Region} (h : regionError cfg rs = none) {r : Region} (hr : r ∈ rs)
    (hb : r.base ≤ addressSpace) : r.base + r.len ≤ addressSpace := by
  rcases r.fits_iff.mp (List.all_eq_true.mp ((regionError_eq_none_iff cfg rs).mp h).1 r hr) with h0 | h0
  · omega
  · exact h0.2

/-! ## One lemma a command -/

theorem initError_none {s : State} (h : initError s = none) :
    s.a1.toNat ≤ lenMax ∧ s.a0.toNat + s.a1.toNat ≤ addressSpace := by
  unfold initError at h
  split at h; · cases h
  exact ⟨by omega, regionError_none_fits h (r := ⟨s.a0.toNat, s.a1.toNat, 1, true, false⟩) (by simp [initRegions]) s.a0.isLt.le⟩

theorem initError_some {s : State} {code : ReturnCode} (h : initError s = some code) : code = .errOperand ∨ code = .errBus := by
  unfold initError at h
  split at h
  · cases h; simp
  · exact regionError_some h

theorem execBsrInit_effect {c : CtxId} {ord : BitOrder} {s t : State} (h : execBsrInit c ord s = .next t) :
    Effect (.bsrInit c ord) s t := by
  simp only [execBsrInit, Host.Outcome.next.injEq] at h
  subst h
  split
  · rename_i hc
    have := initError_some hc
    exact .rejected _ _ (by tauto)
  · rename_i hc
    exact .opened c ord rfl (initError_none hc).1 (initError_none hc).2

theorem execBsrPeek_effect {c : CtxId} {n : BitVec 6} {s t : State} (h : execBsrPeek c n s = .next t) :
    Effect (.bsrPeek c n) s t := by
  simp only [execBsrPeek, Host.Outcome.next.injEq] at h
  subst h
  split
  · exact .peeked c n _ rfl ‹_›
  · exact .rejected _ _ (.inl rfl)

/-- All that `advance` can do, for any command that names the context and opens no buffer. -/
theorem advance_effect {i : Instr} {c : CtxId} (hi : namedContext i = some c) (ho : ∀ d ord, i ≠ .bsrInit d ord) (n r0 : Nat)
    (s : State) : Effect i s (advance c n r0 s) := by
  unfold advance
  dsimp only
  split
  · split
    · exact .rejected _ _ (by simp)
    · exact .moved c n r0 hi ho ‹_› (by omega)
  · exact .rejected _ _ (.inl rfl)

/-- All that the end of a Huffman command can do, given what its loop can do. -/
theorem huffmanEnd_effect {i : Instr} {c : CtxId} {nv : Nat} (hi : namedContext i = some c) (ho : ∀ d ord, i ≠ .bsrInit d ord)
    {s : State} (hr : writtenRegion i s = (s.a0.toNat, 4 * nv)) (hw : HuffmanReady c nv s) (hn : nv < 1024) (d : Decoded)
    (fill r1 : Nat) (hl : d.words.length + fill ≤ nv) (hu : d.used ≤ s.a1.toNat)
    (hc : d.code = .none ∨ d.code = .errHuffOverrun ∨ d.code = .errHuffCode) : Effect i s (huffmanEnd c d fill r1 s) := by
  have hf := hw.fits
  have he := hw.enough
  unfold huffmanEnd
  dsimp only
  split
  · refine .decoded c _ _ _ hi ho hw.valid (by omega) (by rw [hr]) ?_ ?_ <;>
      simp only [hr, List.length_append, List.length_replicate] <;> omega
  · refine .broken c _ _ hi ho (by tauto) (by rw [hr]) (by simp only [hr]; omega) (by omega) (by omega)

theorem execHufPairs_effect {c : CtxId} {tab : BitVec 5} {nv : BitVec 10} {s t : State} (h : execHufPairs c tab nv s = .next t) :
    Effect (.hufPairs c tab nv) s t := by
  simp only [execHufPairs, Host.Outcome.next.injEq] at h
  subst h
  split
  · rename_i code r1 hc
    exact .rejected _ _ (huffmanError_failure hc)
  · rename_i hc
    obtain ⟨hw, hp⟩ := (huffmanError_eq_none_iff _ _ _ _).mp hc
    obtain ⟨-, h2, h3⟩ := decodePairs_spec (pairTable s.cfg tab) (s.commandBit c) s.a1.toNat (nv.toNat / 2) 0 (by omega)
      (by simpa using hp)
    refine huffmanEnd_effect rfl (by simp) rfl hw nv.isLt _ _ _ ?_ h2 ?_
    · rcases h3 with ⟨-, hl⟩ | ⟨-, hl, -⟩ <;> simp only [pairsDecoded] <;> omega
    · rcases h3 with ⟨hc, -⟩ | ⟨hc, -⟩
      · exact .inl hc
      · exact .inr hc

theorem execHufQuads_effect {c : CtxId} {tab : BitVec 5} {nv : BitVec 10} {s t : State} (h : execHufQuads c tab nv s = .next t) :
    Effect (.hufQuads c tab nv) s t := by
  simp only [execHufQuads, Host.Outcome.next.injEq] at h
  subst h
  split
  · rename_i code r1 hc
    exact .rejected _ _ (huffmanError_failure hc)
  · exact .rejected _ _ (by simp)
  · rename_i q hc hq
    obtain ⟨hw, -⟩ := (huffmanError_eq_none_iff _ _ _ _).mp hc
    obtain ⟨-, h2, h3, -, h5⟩ := decodeQuads_spec q (s.commandBit c) s.a1.toNat (nv.toNat / 4) 0 (by omega)
    refine huffmanEnd_effect rfl (by simp) rfl hw nv.isLt _ _ _ ?_ h2 ?_
    · simp only [quadsDecoded]; omega
    · exact h5.imp id And.left

theorem execImdctRun_effect {ch : Channel} {bt : WindowClass} {mix : Bool} {s t : State}
    (h : execImdctRun ch bt mix s = .next t) : Effect (.imdctRun ch bt mix) s t := by
  simp only [execImdctRun, Host.Outcome.next.injEq] at h
  subst h
  split
  · rename_i hc
    have := regionError_some hc
    exact .rejected _ _ (by tauto)
  · rename_i hc
    refine .transformed ch bt mix rfl _ _ (imdctResult_length _ _ _ _ _) ?_
    rw [imdctResult_length]
    exact regionError_none_fits hc (r := ⟨s.a1.toNat, 2304, 4, false, true⟩) (by simp [imdctRegions]) s.a1.isLt.le

theorem synthRings_mono (s : State) : (synthRings s false)[1] = s.vbuf[1] := by
  simp [synthRings]

theorem execSynRun_effect {stereo : Bool} {fmt : PcmFormat} {s t : State} (h : execSynRun stereo fmt s = .next t) :
    Effect (.synRun stereo fmt) s t := by
  simp only [execSynRun, Host.Outcome.next.injEq] at h
  subst h
  split
  · rename_i hc
    have := regionError_some hc
    exact .rejected _ _ (by tauto)
  · rename_i hc
    refine .synthesized stereo fmt rfl _ _ (pcmOutput_length _ _ _ _) ?_ ?_
    · rw [pcmOutput_length]
      exact regionError_none_fits hc (r := ⟨s.a2.toNat, pcmBytes stereo fmt, pcmAlign fmt, false, true⟩) (by simp [synRegions]) s.a2.isLt.le
    · rintro rfl
      exact synthRings_mono s

theorem execVmdctRun_effect {lg : BitVec 4} {s t : State} (h : execVmdctRun lg s = .next t) : Effect (.vmdctRun lg) s t := by
  simp only [execVmdctRun, Host.Outcome.next.injEq] at h
  subst h
  split
  · rename_i hc
    have := regionError_some hc
    exact .rejected _ _ (by tauto)
  · rename_i hc
    refine .replaced lg rfl _ (vmdctOutput_length _ _) ?_
    rw [vmdctOutput_length]
    exact regionError_none_fits hc (r := ⟨s.a0.toNat, 4 * vmdctWords lg, 4, true, true⟩) (by simp [vmdctRegions]) s.a0.isLt.le

/-- All that a command can do. -/
theorem exec_effect {i : Instr} {s t : State} (h : exec i s = .next t) : Effect i s t := by
  cases i with
  | sysNop => cases h; exact .nop rfl
  | sysReset => cases h; exact .reset rfl
  | bsrInit c ord => exact execBsrInit_effect h
  | bsrPeek c n => exact execBsrPeek_effect h
  | bsrGet c n => cases h; exact advance_effect rfl (by simp) _ _ _
  | bsrSkip c n => cases h; exact advance_effect rfl (by simp) _ _ _
  | bsrSkipr c => cases h; exact advance_effect rfl (by simp) _ _ _
  | hufPairs c tab nv => exact execHufPairs_effect h
  | hufQuads c tab nv => exact execHufQuads_effect h
  | imdctRun ch bt mix => exact execImdctRun_effect h
  | synRun stereo fmt => exact execSynRun_effect h
  | vmdctRun lg => exact execVmdctRun_effect h

/-! ## All that a step can do -/

/-- All that one host action can do: a command, an illegal word, a register written or read, memory written or read, or reset. -/
theorem hostAct_cases {act : HostAction} {s t : State} (h : hostAct act s = .next t) :
    (∃ w i, act = .regWrite 0 .word w ∧ decode w = .ok i ∧ exec i { s with cmd := w, draws := s.draws + 1 } = .next t)
      ∨ (∃ w e, act = .regWrite 0 .word w ∧ decode w = .error e
        ∧ t = State.illegal { s with cmd := w, draws := s.draws + 1 })
      ∨ (∃ off v, act = .regWrite off .word v ∧ off ≠ 0 ∧ t = s.writeReg off v)
      ∨ (∃ v, t = { s with hostData := v })
      ∨ (∃ a w v, act = .memWrite a w v ∧ a + w.bytes ≤ addressSpace ∧ t = s.storeBytes a (valueBytes w v))
      ∨ (act = .hardReset ∧ t = s.resetBlock 0#32) := by
  cases act with
  | regWrite off w v =>
    simp only [hostAct, hostRegWrite] at h
    split at h
    · rename_i hl
      obtain ⟨hw, -⟩ := of_decide_eq_true hl
      subst hw
      split at h
      · rename_i ho
        subst ho
        unfold runCommand at h
        dsimp only at h
        split at h
        · rename_i i hd
          exact .inl ⟨v, i, rfl, hd, h⟩
        · rename_i e hd
          cases h
          exact .inr (.inl ⟨v, e, rfl, hd, rfl⟩)
      · rename_i ho
        cases h
        exact .inr (.inr (.inl ⟨off, v, rfl, ho, rfl⟩))
    · cases h
  | regRead off w =>
    simp only [hostAct, hostRegRead] at h
    split at h
    · cases h
      exact .inr (.inr (.inr (.inl ⟨_, rfl⟩)))
    · cases h
  | memWrite a w v =>
    simp only [hostAct, hostMemWrite] at h
    split at h
    · cases h
    · split at h
      · cases h
      · cases h
        exact .inr (.inr (.inr (.inr (.inl ⟨a, w, v, rfl, by omega, rfl⟩))))
  | memRead a w =>
    simp only [hostAct, hostMemRead] at h
    split at h
    · cases h
    · split at h
      · cases h
      · cases h
        exact .inr (.inr (.inr (.inl ⟨_, rfl⟩)))
  | hardReset => cases h; exact .inr (.inr (.inr (.inr (.inr ⟨rfl, rfl⟩))))

/-- A step with no action pending changes nothing; else it does what the action does. -/
theorem step_cases {s t : State} (h : step s = .next t) :
    (s.host = [] ∧ t = s) ∨ ∃ act rest, s.host = act :: rest ∧ hostAct act { s with host := rest } = .next t := by
  unfold step at h
  split at h
  · rename_i hh
    cases h
    exact .inl ⟨hh, rfl⟩
  · rename_i act rest hh
    exact .inr ⟨act, rest, hh, h⟩

end Sys2Proof.Machine
end

