-- ==== Sys2Proof/Laws/Kernels.lean ====
section
/-! SUPPORT. The data a configuration gives for the kernels and for `Accessible` leaves nothing out: every family of kernels with the
properties KP1 and KP2 (42_imdct.md R231, 43_synthesis.md R261, 44_vorbis_mdct.md R291), and every predicate that is false on the
register block, is that of some configuration. So a statement about every configuration is about all of them (log entries 3, 4). -/

namespace Sys2Proof.Machine

/-! ## Tables -/

theorem tableApply_map {ι α β : Type} [DecidableEq α] (key : ι → α) (hkey : key.Injective) (f : ι → β) (other : β) (l : List ι)
    (x : ι) (hx : x ∈ l) : tableApply (l.map fun y => (key y, f y)) other (key x) = f x := by
  induction l with
  | nil => cases hx
  | cons y l ih =>
    rw [List.map_cons, tableApply]
    split
    · rename_i h
      rw [hkey h]
    · rename_i h
      exact ih ((List.mem_cons.mp hx).resolve_left fun e => h (by rw [e]))

/-- Every function on finitely many arguments is the function of some table. -/
theorem exists_table {ι α β : Type} [DecidableEq α] [Finite ι] (key : ι → α) (hkey : key.Injective) (f : ι → β) (other : β) :
    ∃ table : List (α × β), ∀ x, tableApply table other (key x) = f x := by
  obtain ⟨_⟩ := nonempty_fintype ι
  exact ⟨_, fun x => tableApply_map key hkey f other Finset.univ.toList x (by simp)⟩

/-! ## The arguments are finitely many -/

theorem finite_bitVec (n : Nat) : Finite (BitVec n) := Finite.of_injective BitVec.toFin fun _ _ => BitVec.eq_of_toFin_eq

theorem finite_vector (α : Type) [Finite α] (n : Nat) : Finite (Vector α n) :=
  Finite.of_injective (fun (v : Vector α n) (i : Fin n) => v[i]) fun _ _ h => Vector.ext fun i hi => congrFun h ⟨i, hi⟩

theorem finite_windowClass : Finite WindowClass := by
  refine Set.finite_univ_iff.mp (Set.Finite.subset (Set.toFinite {.normal, .start, .short, .stop}) fun w _ => ?_)
  cases w <;> simp

/-! ## Nothing is left out -/

/-- Every family of kernels that map all-zero arrays to zero (KP2) is the one some configuration gives. -/
theorem exists_kernels (butterfly : Block → Block → Block × Block)
    (long : Block → Overlap → WindowClass → WindowClass → Block × Overlap) (short : Block → Overlap → WindowClass → Block × Overlap)
    (dct32 : Vector Word 32 → Slot) (poly : Vector Slot 8 → Accumulators)
    (vmdct : (lg : Fin 16) → Vector Word (2 ^ (lg.val - 1)) → Vector Word (2 ^ (lg.val - 1)))
    (hbutterfly : butterfly (zeros 18) (zeros 18) = (zeros 18, zeros 18))
    (hlong : ∀ wc wp, long (zeros 18) (zeros 9) wc wp = (zeros 18, zeros 9))
    (hshort : ∀ wp, short (zeros 18) (zeros 9) wp = (zeros 18, zeros 9)) (hdct32 : dct32 (zeros 32) = zeros 64)
    (hpoly : poly (Vector.replicate 8 (zeros 64)) = Vector.replicate 32 0#64) (hvmdct : ∀ lg, vmdct lg (zeros _) = zeros _) :
    ∃ k : Kernels, ∀ cfg : Config, cfg.kernels = k →
      aliasK cfg = butterfly ∧ imdctLongK cfg = long ∧ imdctShortK cfg = short ∧ dct32K cfg = dct32 ∧ polyK cfg = poly
        ∧ ∀ lg : Fin 16, vmdctK cfg lg = vmdct lg := by
  have := finite_bitVec 32
  have := finite_windowClass
  have : ∀ n, Finite (Vector Word n) := finite_vector Word
  have : Finite (Vector Slot 8) := finite_vector Slot 8
  obtain ⟨tb, htb⟩ := exists_table id Function.injective_id (fun x : Block × Block => butterfly x.1 x.2) (zeros 18, zeros 18)
  obtain ⟨tl, htl⟩ := exists_table id Function.injective_id
    (fun x : Block × Overlap × WindowClass × WindowClass => long x.1 x.2.1 x.2.2.1 x.2.2.2) (zeros 18, zeros 9)
  obtain ⟨ts, hts⟩ := exists_table id Function.injective_id (fun x : Block × Overlap × WindowClass => short x.1 x.2.1 x.2.2)
    (zeros 18, zeros 9)
  obtain ⟨td, htd⟩ := exists_table id Function.injective_id dct32 (zeros 64)
  obtain ⟨tp, htp⟩ := exists_table id Function.injective_id poly (Vector.replicate 32 0#64)
  have hkey : Function.Injective fun x : (lg : Fin 16) × Vector Word (2 ^ (lg.val - 1)) => (x.1.val, x.2.toList) := by
    rintro ⟨lg, x⟩ ⟨lg', x'⟩ h
    obtain ⟨h1, h2⟩ := Prod.mk.inj h
    cases Fin.ext h1
    cases Vector.toList_inj.mp h2
    rfl
  obtain ⟨tv, htv⟩ := exists_table _ hkey (fun x => (vmdct x.1 x.2).toList) []
  refine ⟨⟨tb, tl, ts, td, tp, tv⟩, fun cfg h => ?_⟩
  refine ⟨?_, ?_, ?_, ?_, ?_, fun lg => ?_⟩
  · funext lo hi
    unfold aliasK
    split
    · rename_i hz
      rw [hz.1, hz.2, hbutterfly]
    · rw [h]
      exact htb (lo, hi)
  · funext x ovl wc wp
    unfold imdctLongK
    split
    · rename_i hz
      rw [hz.1, hz.2, hlong]
    · rw [h]
      exact htl (x, ovl, wc, wp)
  · funext x ovl wp
    unfold imdctShortK
    split
    · rename_i hz
      rw [hz.1, hz.2, hshort]
    · rw [h]
      exact hts (x, ovl, wp)
  · funext x
    unfold dct32K
    split
    · rename_i hz
      rw [hz, hdct32]
    · rw [h]
      exact htd x
  · funext x
    unfold polyK
    split
    · rename_i hz
      rw [hz, hpoly]
    · rw [h]
      exact htp x
  · funext x
    unfold vmdctK
    split
    · rename_i hz
      rw [hz, hvmdct]
    · rw [h]
      dsimp only
      rw [htv ⟨lg, x⟩]
      ext j hj
      simp

/-- Some list holds, of the accesses that end by address `n`, exactly those of which a predicate is true. -/
theorem exists_denied (n : Nat) (P : Access → Bool) :
    ∃ l : List Access, ∀ a : Access, a.base + a.len ≤ n → (l.contains a = true ↔ P a = true) := by
  refine ⟨((List.range (n + 1)).flatMap fun b => (List.range (n + 1)).flatMap fun k => [⟨b, k, .read⟩, ⟨b, k, .write⟩]).filter P,
    fun ⟨b, k, kind⟩ h => ?_⟩
  simp only at h
  cases kind <;> simp <;> omega

/-- Every predicate on the ranges of the address space that is false on the register block is the `Accessible` of some configuration. -/
theorem exists_accessible (regBase : Word) (P : Nat → Nat → AccessKind → Bool)
    (hP : ∀ b n kind, rangesOverlap b n regBase.toNat regBlockSize = true → P b n kind = false) :
    ∃ (windows : List Window) (denied : List Access), ∀ cfg : Config, cfg.regBase = regBase → cfg.windows = windows →
      cfg.denied = denied → ∀ b n kind, b + n ≤ addressSpace → accessible cfg b n kind = P b n kind := by
  obtain ⟨l, hl⟩ := exists_denied addressSpace fun a => !P a.base a.len a.kind
  refine ⟨[⟨0#32, addressSpace, true, true⟩], l, fun cfg hr hw hd b n kind hb => ?_⟩
  have hc : l.contains ⟨b, n, kind⟩ = !P b n kind := Bool.eq_iff_iff.mpr (hl ⟨b, n, kind⟩ hb)
  have ho := hP b n kind
  have hk : permits ⟨0#32, addressSpace, true, true⟩ kind = true := by cases kind <;> rfl
  rw [accessible, hr, hw, hd, hc, List.any_cons, hk]
  revert ho
  cases rangesOverlap b n regBase.toNat regBlockSize <;> cases P b n kind <;> simp; omega

end Sys2Proof.Machine
end

