-- ==== Sys2Proof/Laws/PerInstr.lean ====
section
/-! SUPPORT. A statement about every command as syntax: the word R127 gives it lies in its own row of the opcode map (R123),
whatever its fields. -/

namespace Sys2Proof.Laws.EncodeSelectsRow

/-- The encoded word is selected by a row of the map that bears the command's name. -/
def Statement (i : Instr) : Prop := ∃ r ∈ opcodeMap, r.op = i.opName ∧ r.selects (encode i) = true

theorem sysNop : Statement .sysNop := by unfold Statement; decide

theorem sysReset : Statement .sysReset := by unfold Statement; decide

theorem bsrInit (c : CtxId) (ord : BitOrder) : Statement (.bsrInit c ord) := by cases c <;> cases ord <;> (unfold Statement; decide)

theorem bsrPeek (c : CtxId) (n : BitVec 6) : Statement (.bsrPeek c n) := by
  refine ⟨⟨.bsrPeek, 0x11000000#32, 0xFFFFFF80#32⟩, by decide, rfl, ?_⟩
  rw [OpRow.selects_iff _ (by decide), encode, toNat_formatB _ _ _ (by decide)]
  have := c.toNat_word
  have := n.isLt
  simp only [OpName.fieldBits, BitVec.toNat_ofNat]
  omega

theorem bsrGet (c : CtxId) (n : BitVec 6) : Statement (.bsrGet c n) := by
  refine ⟨⟨.bsrGet, 0x12000000#32, 0xFFFFFF80#32⟩, by decide, rfl, ?_⟩
  rw [OpRow.selects_iff _ (by decide), encode, toNat_formatB _ _ _ (by decide)]
  have := c.toNat_word
  have := n.isLt
  simp only [OpName.fieldBits, BitVec.toNat_ofNat]
  omega

theorem bsrSkip (c : CtxId) (n : BitVec 6) : Statement (.bsrSkip c n) := by
  refine ⟨⟨.bsrSkip, 0x13000000#32, 0xFFFFFF80#32⟩, by decide, rfl, ?_⟩
  rw [OpRow.selects_iff _ (by decide), encode, toNat_formatB _ _ _ (by decide)]
  have := c.toNat_word
  have := n.isLt
  simp only [OpName.fieldBits, BitVec.toNat_ofNat]
  omega

theorem bsrSkipr (c : CtxId) : Statement (.bsrSkipr c) := by cases c <;> (unfold Statement; decide)

theorem hufPairs (c : CtxId) (tab : BitVec 5) (nv : BitVec 10) : Statement (.hufPairs c tab nv) := by
  refine ⟨⟨.hufPairs, 0x20000000#32, 0xFFFF0000#32⟩, by decide, rfl, ?_⟩
  rw [OpRow.selects_iff _ (by decide), encode, toNat_formatH _ _ _ _ (by decide)]
  have := c.toNat_word
  have := tab.isLt
  have := nv.isLt
  simp only [OpName.fieldBits, BitVec.toNat_ofNat]
  omega

theorem hufQuads (c : CtxId) (tab : BitVec 5) (nv : BitVec 10) : Statement (.hufQuads c tab nv) := by
  refine ⟨⟨.hufQuads, 0x21000000#32, 0xFFFF0000#32⟩, by decide, rfl, ?_⟩
  rw [OpRow.selects_iff _ (by decide), encode, toNat_formatH _ _ _ _ (by decide)]
  have := c.toNat_word
  have := tab.isLt
  have := nv.isLt
  simp only [OpName.fieldBits, BitVec.toNat_ofNat]
  omega

theorem imdctRun (ch : Channel) (bt : WindowClass) (mix : Bool) : Statement (.imdctRun ch bt mix) := by
  cases bt <;> cases mix <;> (unfold Statement; revert ch; decide)

theorem synRun (stereo : Bool) (fmt : PcmFormat) : Statement (.synRun stereo fmt) := by
  cases stereo <;> cases fmt <;> (unfold Statement; decide)

theorem vmdctRun (lg : BitVec 4) : Statement (.vmdctRun lg) := by
  refine ⟨⟨.vmdctRun, 0x50000000#32, 0xFFFFFFF0#32⟩, by decide, rfl, ?_⟩
  rw [OpRow.selects_iff _ (by decide), encode, toNat_formatV _ _ (by decide)]
  have := lg.isLt
  simp only [OpName.fieldBits, BitVec.toNat_ofNat]
  omega

end Sys2Proof.Laws.EncodeSelectsRow
end

