-- ==== Sys2Proof/Tests/Slice0.lean ====
section
/-! SUPPORT. Tests. Each expected value is the spec's own, from 95_test_vectors.md; the vector is named in the comment. Then, for every
statement with hypotheses, a witness that meets them. -/

namespace Sys2Proof.Tests

open Sys2Proof Sys2Proof.Machine

/-! ## The bench: ROM TR of 95_test_vectors.md part 2, `REGBASE` at 0xF0000000, every other address accessible -/

/-- `pair[1]` of TR. -/
def pairOne : PairCode where
  entries := [⟨[true], 0, 0⟩, ⟨[false, false, true], 0, 1⟩, ⟨[false, true], 1, 0⟩, ⟨[false, false, false], 1, 1⟩]

/-- `pair[2]` of TR, an incomplete code. -/
def pairTwo : PairCode where
  entries := [⟨[true], 0, 0⟩, ⟨[false, true], 1, 0⟩]

/-- `pair[16]` of TR, with three linbits. -/
def pairSixteen : PairCode where
  entries := [⟨[true], 0, 0⟩, ⟨[false, true], 15, 0⟩, ⟨[false, false, true], 0, 15⟩, ⟨[false, false, false], 15, 15⟩]
  linbits := 3

/-- `quad[0]` of TR, table A. -/
def quadA : QuadCode where
  entries :=
    [⟨[true], false, false, false, false⟩, ⟨[false, true, false, true], false, false, false, true⟩,
      ⟨[false, true, false, false], false, false, true, false⟩, ⟨[false, false, true, false, true], false, false, true, true⟩,
      ⟨[false, true, true, false], false, true, false, false⟩,
      ⟨[false, false, false, true, false, true], false, true, false, true⟩,
      ⟨[false, false, true, false, false], false, true, true, false⟩,
      ⟨[false, false, false, true, false, false], false, true, true, true⟩]
    ++ [⟨[false, true, true, true], true, false, false, false⟩, ⟨[false, false, false, true, true], true, false, false, true⟩,
      ⟨[false, false, true, true, false], true, false, true, false⟩,
      ⟨[false, false, false, false, false, false], true, false, true, true⟩,
      ⟨[false, false, true, true, true], true, true, false, false⟩,
      ⟨[false, false, false, false, true, false], true, true, false, true⟩,
      ⟨[false, false, false, false, true, true], true, true, true, false⟩,
      ⟨[false, false, false, false, false, true], true, true, true, true⟩]

/-- The entry of `quad[1]` of TR for four magnitudes: its codeword is their complement. -/
def quadBEntry (v w x y : Bool) : QuadEntry := ⟨[!v, !w, !x, !y], v, w, x, y⟩

/-- `quad[1]` of TR, table B. -/
def quadB : QuadCode where
  entries := [false, true].flatMap fun v => [false, true].flatMap fun w => [false, true].flatMap fun x =>
    [false, true].map fun y => quadBEntry v w x y

/-- The configuration of the bench. -/
def benchConfig : Config where
  regBase := 0xF0000000#32
  windows := [⟨0#32, 2 ^ 32, true, true⟩]
  denied := []
  kernels := default
  huffPair := (((Vector.replicate 32 PairTable.absent).set 0 .zero).set 1 (.code pairOne)).set 2 (.code pairTwo) |>.set 16 (.code pairSixteen)
  huffQuad := #v[quadA, quadB]
  synFracPred := 3

/-- The bench after reset. -/
def bench : State := { State.reset with cfg := benchConfig }

/-- Bytes in memory from an address. -/
def memoryAt (a : Nat) (bs : List Byte) : Memory := bs.zipIdx.map fun p => (a + p.2, p.1)

/-- A context with a buffer of these bytes at 0x1000. -/
def reading (ord : BitOrder) (bs : List Byte) (pos : Nat) : State :=
  { bench with
    bs0 := ⟨true, ord, 0x1000#32, BitVec.ofNat 32 bs.length, BitVec.ofNat 32 pos⟩
    mem := memoryAt 0x1000 bs }

/-- The bench about to run a Huffman command: destination 0x2000, `B` bits available. -/
def huffing (bs : List Byte) (pos b : Nat) : State :=
  { reading .msb bs pos with a0 := 0x2000#32, a1 := BitVec.ofNat 32 b }

/-- The state after a command. -/
def run (i : Instr) (s : State) : State :=
  match exec i s with
  | .next t => t
  | .fault _ => s
  | .refused _ => s

/-- Every command answers a next state. -/
theorem exec_run (i : Instr) (s : State) : exec i s = .next (run i s) := by cases i <;> rfl

/-- The state after a step. -/
def after (s : State) : State :=
  match step s with
  | .next t => t
  | .fault _ => s
  | .refused _ => s

/-- `RC`, `R0`, `R1`. -/
def report (t : State) : Int × Nat × Nat := (t.rc.toInt, t.r0.toNat, t.r1.toNat)

/-- The first `n` output words of a Huffman command. -/
def out (t : State) (n : Nat) : List Nat := (List.range n).map fun j => (t.readWord (0x2000 + 4 * j)).toNat

/-- The 32 bytes of scenario 1 (vector B1). -/
def b1 : List Byte := [0xFF#8, 0xFB#8, 0x90#8, 0x64#8]

/-- The bytes of vector B2. -/
def b2 : List Byte := [0xB5#8, 0x3C#8, 0x01#8]

/-- The bytes of vectors H1 to H3. -/
def h1 : List Byte := [0x0C#8, 0x98#8]

/-- The bytes of vectors H4 to H6. -/
def h4 : List Byte := [0x6C#8, 0x80#8, 0xE3#8]

/-- The bytes of vectors H14 to H20. -/
def h14 : List Byte := [0x8B#8, 0x02#8, 0xA0#8]

/-! ## Well-formedness: an ill-formed term for each check (30_encoding.md R122) -/

theorem test_wf_count : (Instr.bsrGet .bs0 33#6).wellFormed = false ∧ (Instr.bsrPeek .bs0 33#6).wellFormed = false
    ∧ (Instr.bsrSkip .bs0 33#6).wellFormed = false ∧ (Instr.bsrGet .bs0 32#6).wellFormed = true := by decide

theorem test_wf_pairs : (Instr.hufPairs .bs0 1#5 1#10).wellFormed = false ∧ (Instr.hufPairs .bs0 1#5 578#10).wellFormed = false
    ∧ (Instr.hufPairs .bs0 31#5 576#10).wellFormed = true := by decide

theorem test_wf_quads : (Instr.hufQuads .bs0 2#5 0#10).wellFormed = false ∧ (Instr.hufQuads .bs0 1#5 577#10).wellFormed = false
    ∧ (Instr.hufQuads .bs0 1#5 3#10).wellFormed = true := by decide

theorem test_wf_mix : (Instr.imdctRun 0 .normal true).wellFormed = false ∧ (Instr.imdctRun 0 .start true).wellFormed = false
    ∧ (Instr.imdctRun 0 .stop true).wellFormed = false ∧ (Instr.imdctRun 0 .short true).wellFormed = true := by decide

theorem test_wf_log : (Instr.vmdctRun 5#4).wellFormed = false ∧ (Instr.vmdctRun 14#4).wellFormed = false
    ∧ (Instr.vmdctRun 6#4).wellFormed = true ∧ (Instr.vmdctRun 13#4).wellFormed = true := by decide

/-! ## Decoding: the words of vectors E1 to E23 -/

/-- E1, E2: the system commands. -/
theorem test_decode_system : decode 0x00000000#32 = .ok .sysNop ∧ decode 0x01000000#32 = .ok .sysReset := by decide

/-- E3 to E7: the bit reader. -/
theorem test_decode_bitreader :
    decode 0x10000003#32 = .ok (.bsrInit .bs1 .lsb) ∧ decode 0x12000016#32 = .ok (.bsrGet .bs0 11#6)
      ∧ decode 0x11000041#32 = .ok (.bsrPeek .bs1 32#6) ∧ decode 0x13000040#32 = .ok (.bsrSkip .bs0 32#6)
      ∧ decode 0x14000001#32 = .ok (.bsrSkipr .bs1) := by decide

/-- E8 to E11: the Huffman decoder. -/
theorem test_decode_huffman :
    decode 0x20000202#32 = .ok (.hufPairs .bs0 1#5 8#10) ∧ decode 0x2000903F#32 = .ok (.hufPairs .bs1 31#5 576#10)
      ∧ decode 0x21009002#32 = .ok (.hufQuads .bs0 1#5 576#10) ∧ decode 0x21000400#32 = .ok (.hufQuads .bs0 0#5 16#10) := by
  decide

/-- E12 to E15: the transforms. -/
theorem test_decode_transforms :
    decode 0x3000000D#32 = .ok (.imdctRun 1 .short true) ∧ decode 0x30000006#32 = .ok (.imdctRun 0 .stop false)
      ∧ decode 0x40000003#32 = .ok (.synRun true .pcm32) ∧ decode 0x5000000D#32 = .ok (.vmdctRun 13#4) := by decide

/-- Words written out from R121 and R122: `BSR.INIT 0, LSB` = 0x10000002, `IMDCT.RUN 0, START, 0` = 0x30000002,
`SYN.RUN MONO, PCM32` = 0x40000002, `SYN.RUN STEREO, PCM16` = 0x40000001. -/
theorem test_decode_fields :
    decode 0x10000002#32 = .ok (.bsrInit .bs0 .lsb) ∧ decode 0x30000002#32 = .ok (.imdctRun 0 .start false)
      ∧ decode 0x40000002#32 = .ok (.synRun false .pcm32) ∧ decode 0x40000001#32 = .ok (.synRun true .pcm16) := by decide

/-- E16 to E21: fields out of range. -/
theorem test_decode_fieldOutOfRange :
    [0x12000042#32, 0x20000042#32, 0x20009042#32, 0x21000004#32, 0x30000008#32, 0x50000005#32, 0x5000000E#32].all
      (fun w => match decode w with
        | .error (.fieldOutOfRange _) => true
        | _ => false) = true := by decide

/-- E22: unassigned opcodes. -/
theorem test_decode_unassigned :
    decode 0x02000000#32 = .error (.unassignedOpcode 0x02#8) ∧ decode 0xFF000000#32 = .error (.unassignedOpcode 0xFF#8)
      ∧ decode 0x15000000#32 = .error (.unassignedOpcode 0x15#8) := by decide

/-- E23: reserved bits. -/
theorem test_decode_reserved :
    [0x00000001#32, 0x01800000#32, 0x10000004#32, 0x14000002#32, 0x20010000#32, 0x40000004#32].all
      (fun w => match decode w with
        | .error (.reservedBit _) => true
        | _ => false) = true := by decide

/-- The assembler text of R130's first example. -/
theorem test_asm : (Instr.bsrGet .bs0 11#6).asm = "BSR.GET 0, 11" := by decide

/-! ## The bit reader -/

/-- B1: `BSR.INIT 0, MSB` on four bytes. -/
theorem test_bsrInit_b1 : report (run (.bsrInit .bs0 .msb) { bench with a0 := 0x1000#32, a1 := 4#32 }) = (0, 0, 32)
    ∧ (run (.bsrInit .bs0 .msb) { bench with a0 := 0x1000#32, a1 := 4#32 }).bs0 = ⟨true, .msb, 0x1000#32, 4#32, 0#32⟩ := by decide

/-- B9: `BSR.INIT` beyond `LENMAX`, wrapping, up to 2^32 exactly, and on the register block (20_memory.md R87). -/
theorem test_bsrInit_b9 :
    (report (run (.bsrInit .bs0 .msb) { bench with a1 := 0x20000000#32 })).1 = -5
      ∧ (report (run (.bsrInit .bs0 .msb) { bench with a0 := 0xFFFFFFFE#32, a1 := 4#32 })).1 = -5
      ∧ (report (run (.bsrInit .bs0 .msb) { bench with a0 := 0xFFFFFFFC#32, a1 := 4#32 })).1 = 0
      ∧ (report (run (.bsrInit .bs0 .msb) { bench with a0 := 0xF0000000#32, a1 := 4#32 })).1 = -7 := by decide

/-- B1, B4: `BSR.PEEK`, whole and short, MSB-first. -/
theorem test_bsrPeek_msb :
    report (run (.bsrPeek .bs0 32#6) (reading .msb b1 0)) = (0, 0xFFFB9064, 32)
      ∧ report (run (.bsrPeek .bs0 8#6) (reading .msb b1 28)) = (0, 0x40, 4)
      ∧ (run (.bsrPeek .bs0 8#6) (reading .msb b1 28)).eob = true
      ∧ report (run (.bsrPeek .bs0 8#6) (reading .msb b1 26)) = (0, 0x90, 6) := by decide

/-- B2: `BSR.PEEK`, short, LSB-first. -/
theorem test_bsrPeek_lsb :
    report (run (.bsrPeek .bs0 32#6) (reading .lsb b2 0)) = (0, 0x13CB5, 24)
      ∧ (run (.bsrPeek .bs0 32#6) (reading .lsb b2 0)).eob = true
      ∧ report (run (.bsrPeek .bs0 16#6) (reading .lsb b2 16)) = (0, 1, 8) := by decide

/-- B1, B3: `BSR.GET` MSB-first and LSB-first on the same bytes, and at the end. -/
theorem test_bsrGet_order :
    report (run (.bsrGet .bs0 11#6) (reading .msb b1 0)) = (0, 0x7FF, 11)
      ∧ report (run (.bsrGet .bs0 11#6) (reading .lsb b1 0)) = (0, 0x3FF, 11)
      ∧ report (run (.bsrGet .bs0 4#6) (reading .msb b1 16)) = (0, 9, 4)
      ∧ report (run (.bsrGet .bs0 1#6) (reading .msb b1 32)) = (-4, 0, 0) := by decide

/-- B2: `BSR.GET` LSB-first across a byte, and starved with the cursor kept. -/
theorem test_bsrGet_lsb :
    report (run (.bsrGet .bs0 8#6) (reading .lsb b2 4)) = (0, 0xCB, 8)
      ∧ (run (.bsrGet .bs0 8#6) (reading .lsb b2 4)).bs0.pos = 12#32
      ∧ report (run (.bsrGet .bs0 16#6) (reading .lsb b2 16)) = (-4, 0, 8)
      ∧ (run (.bsrGet .bs0 16#6) (reading .lsb b2 16)).bs0.pos = 16#32 := by decide

/-- B5, B7: `BSR.SKIP` of 0 at the end and of 32. -/
theorem test_bsrSkip :
    report (run (.bsrSkip .bs0 0#6) (reading .msb b1 32)) = (0, 0, 0)
      ∧ (run (.bsrSkip .bs0 32#6) (reading .msb b1 0)).bs0.pos = 32#32 := by decide

/-- B7: `BSR.SKIPR`, the last bit there is, one more, and a count that would wrap. -/
theorem test_bsrSkipr :
    report (run (.bsrSkipr .bs0) { reading .msb b1 11 with a1 := 21#32 }) = (0, 0, 21)
      ∧ (run (.bsrSkipr .bs0) { reading .msb b1 11 with a1 := 21#32 }).bs0.pos = 32#32
      ∧ report (run (.bsrSkipr .bs0) { reading .msb b1 11 with a1 := 22#32 }) = (-4, 0, 21)
      ∧ report (run (.bsrSkipr .bs0) { reading .msb b1 11 with a1 := 0xFFFFFFFF#32 }) = (-4, 0, 21) := by decide

/-- B8: a context that is not valid. -/
theorem test_bsr_invalid : report (run (.bsrGet .bs1 4#6) bench) = (-5, 0, 0) ∧ (run (.bsrGet .bs1 4#6) bench).estky = true := by
  decide

/-! ## The Huffman decoder -/

/-- H1: four pairs of table 1. -/
theorem test_hufPairs_h1 :
    report (run (.hufPairs .bs0 1#5 8#10) (huffing h1 0 13)) = (0, 13, 8)
      ∧ out (run (.hufPairs .bs0 1#5 8#10) (huffing h1 0 13)) 8 = [1, 0x80000001, 0, 0, 0, 1, 0x80000001, 0]
      ∧ (run (.hufPairs .bs0 1#5 8#10) (huffing h1 0 13)).bs0.pos = 13#32 := by decide

/-- H4, H5, H12, H9: escapes, an overrun at the last sign, a missing codeword, starvation. -/
theorem test_hufPairs_escape :
    report (run (.hufPairs .bs0 16#5 6#10) (huffing h4 0 24)) = (0, 24, 6)
      ∧ out (run (.hufPairs .bs0 16#5 6#10) (huffing h4 0 24)) 6 = [0x80000014, 0, 0, 0xF, 0x16, 0x80000010]
      ∧ report (run (.hufPairs .bs0 16#5 6#10) (huffing h4 0 23)) = (-1, 0, 4)
      ∧ report (run (.hufPairs .bs0 2#5 4#10) (huffing [0x90#8] 0 8)) = (-2, 0, 2)
      ∧ report (run (.hufPairs .bs0 1#5 8#10) (huffing h1 0 17)) = (-4, 0, 16) := by decide

/-- R85: a region with no bytes passes all checks, misaligned and in the register block; H11 with such a destination, word-aligned. -/
theorem test_empty_region :
    regionError benchConfig [⟨0xF0000001, 0, 4, true, true⟩] = none
      ∧ regionError benchConfig [⟨0xF0000001, 4, 4, true, true⟩] = some .errOperand
      ∧ regionError benchConfig [⟨0xF0000004, 4, 4, true, true⟩] = some .errBus
      ∧ report (run (.hufPairs .bs0 1#5 0#10) { huffing h1 0 13 with a0 := 0xF0000004#32 }) = (0, 0, 0) := by decide

/-- H14: three quads of table A, then zero fill. -/
theorem test_hufQuads_h14 :
    report (run (.hufQuads .bs0 0#5 16#10) (huffing h14 0 19)) = (0, 19, 12)
      ∧ out (run (.hufQuads .bs0 0#5 16#10) (huffing h14 0 19)) 16 =
        [0, 0, 0, 0, 0, 0x80000001, 0, 1, 1, 0x80000001, 1, 0x80000001, 0, 0, 0, 0] := by decide

/-- H15, H17, H18, H20, H22: overruns keep the cursor and fill nothing; room for two quads, then for none; table B. -/
theorem test_hufQuads_ends :
    report (run (.hufQuads .bs0 0#5 16#10) (huffing h14 0 18)) = (-1, 0, 8)
      ∧ report (run (.hufQuads .bs0 0#5 10#10) (huffing h14 0 19)) = (0, 9, 8)
      ∧ report (run (.hufQuads .bs0 0#5 3#10) (huffing h14 0 19)) = (0, 0, 0)
      ∧ report (run (.hufQuads .bs0 0#5 16#10) (huffing h14 0 24)) = (-1, 0, 12)
      ∧ report (run (.hufQuads .bs0 1#5 8#10) (huffing [0x6B#8, 0xC0#8] 0 9)) = (-1, 0, 4) := by decide

/-! ## The transforms -/

/-- M1: `IMDCT.RUN 1, SHORT, 1` records the window classes. -/
theorem test_imdctRun_m1 :
    let t := run (.imdctRun 1 .short true) { bench with a0 := 0x3000#32, a1 := 0x4000#32 }
    report t = (0, 0, 0) ∧ t.prevWin[1][0] = .normal ∧ t.prevWin[1][1] = .normal ∧ t.prevWin[1][2] = .short
      ∧ t.prevWin[1][31] = .short ∧ t.prevWin[0][2] = .normal := by decide

/-- M5: misaligned, overlapping, just apart, past the top. -/
theorem test_imdctRun_m5 :
    (report (run (.imdctRun 0 .normal false) { bench with a0 := 0x3002#32, a1 := 0x8000#32 })).1 = -5
      ∧ (report (run (.imdctRun 0 .normal false) { bench with a0 := 0x3000#32, a1 := 0x38FC#32 })).1 = -5
      ∧ (report (run (.imdctRun 0 .normal false) { bench with a0 := 0x3000#32, a1 := 0x3900#32 })).1 = 0
      ∧ (report (run (.imdctRun 0 .normal false) { bench with a0 := 0xFFFFF800#32, a1 := 0x3900#32 })).1 = -5 := by decide

/-- Y1: `SYN.RUN` reports and moves `VIDX`. -/
theorem test_synRun_y1 :
    let t := run (.synRun true .pcm16) { bench with a0 := 0x4000#32, a1 := 0x4000#32, a2 := 0x5002#32 }
    let u := run (.synRun false .pcm32) { bench with a0 := 0x4000#32, a1 := 1#32, a2 := 0x5000#32, vidx := 7#3 }
    report t = (0, 64, 0) ∧ t.vidx = 7#3 ∧ report u = (0, 32, 0) ∧ u.vidx = 6#3 := by decide

/-- Y2: the output layouts, on `p0[j]` = 8 * (j + 1) and `p1[j]` = -8 * (j + 1). -/
theorem test_pcm_layout :
    let p0 : Vector Half 32 := Vector.ofFn fun j => BitVec.ofNat 16 (8 * (j.val + 1))
    let p1 : Vector Half 32 := Vector.ofFn fun j => BitVec.ofInt 16 (-8 * (j.val + 1))
    (pcmOutput true .pcm16 p0 p1).take 6 = [0x08#8, 0x00#8, 0xF8#8, 0xFF#8, 0x10#8, 0x00#8]
      ∧ (pcmOutput true .pcm32 p0 p1).take 8 = [0x00#8, 0x00#8, 0x08#8, 0x00#8, 0x00#8, 0x00#8, 0xF8#8, 0xFF#8]
      ∧ (pcmOutput false .pcm32 p0 p1).take 8 = [0x00#8, 0x00#8, 0x08#8, 0x00#8, 0x00#8, 0x00#8, 0x08#8, 0x00#8] := by decide

/-- Y6: misaligned input and outputs, overlap, the unused `A1` of mono. -/
theorem test_synRun_y6 :
    (report (run (.synRun true .pcm16) { bench with a0 := 0x4002#32, a1 := 0x4000#32, a2 := 0x5000#32 })).1 = -5
      ∧ (report (run (.synRun true .pcm32) { bench with a0 := 0x4000#32, a1 := 0x4000#32, a2 := 0x5002#32 })).1 = -5
      ∧ (report (run (.synRun true .pcm16) { bench with a0 := 0x4000#32, a1 := 0x4000#32, a2 := 0x407E#32 })).1 = -5
      ∧ (report (run (.synRun false .pcm16) { bench with a0 := 0x4000#32, a1 := 0x0001#32, a2 := 0x5000#32 })).1 = 0 := by decide

/-- Words in memory from an address. -/
def wordsAt (a : Nat) (ws : List Word) : Memory := memoryAt a (ws.flatMap wordBytes)

/-- The input of V2: `x[j] = j`. -/
def v2Input : List Word := (List.range 32).map fun j => BitVec.ofNat 32 j

/-- The bench before V2, with the value of the toy kernel `VMDCT_T` on its input. -/
def benchV2 : State :=
  { bench with
    a0 := 0x3000#32
    mem := wordsAt 0x3000 v2Input
    cfg := { benchConfig with kernels := { benchConfig.kernels with
      vmdct := [((6, v2Input), (List.range 32).map fun j => BitVec.ofNat 32 (31 - j + 6 * j))] } } }

/-- V1, V2: what `VMDCT.RUN` reports for its smallest and largest transform, and what it leaves in the buffer. -/
theorem test_vmdctRun_v2 :
    report (run (.vmdctRun 6#4) benchV2) = (0, 32, 0) ∧ report (run (.vmdctRun 13#4) benchV2) = (0, 4096, 0)
      ∧ [0, 1, 2, 3, 31].map (fun j => ((run (.vmdctRun 6#4) benchV2).readWord (0x3000 + 4 * j)).toNat) = [31, 36, 41, 46, 186] := by
  decide

/-- V3: misaligned, ending exactly at 2^32, past it. -/
theorem test_vmdctRun_v3 :
    (report (run (.vmdctRun 6#4) { bench with a0 := 0x6002#32 })).1 = -5
      ∧ (report (run (.vmdctRun 7#4) { bench with a0 := 0xFFFFFF00#32 })).1 = 0
      ∧ (report (run (.vmdctRun 8#4) { bench with a0 := 0xFFFFFF00#32 })).1 = -5 := by decide

/-- The input of Y4. -/
def y4Input : Vector Word 32 := Vector.ofFn fun j => ([3, 5, -3, -5].map (BitVec.ofInt 32)).getD j.val 0#32

/-- `DCT32_T` of the input of Y4. -/
def y4Slot : Slot := Vector.ofFn fun i => if h : i.val < 32 then y4Input[i.val] else 2 * y4Input[i.val - 32]

/-- The bench before Y4, with the values of the toy kernels `DCT32_T` and `POLY_T` on its arguments, and `SYN_FRACBITS` = 4. -/
def benchY4 : State :=
  { bench with
    a0 := 0x4000#32
    mem := wordsAt 0x4000 y4Input.toList
    cfg := { benchConfig with kernels := { benchConfig.kernels with
      dct32 := [(y4Input, y4Slot)]
      poly := [((Vector.replicate 8 (zeros 64)).set 0 y4Slot, Vector.ofFn fun j => 8 * y4Input[j].signExtend 64)] } } }

/-- Y4: the samples of the accumulators 24, 40, -24, -40, 0. -/
theorem test_synthChannel_y4 : [0, 1, 2, 3, 4].map (fun j : Fin 32 => (synthChannel benchY4 0).2[j].toInt) = [2, 3, -1, -2, 0] := by
  decide +kernel

/-! ## System commands and the host -/

/-- X1: `SYS.NOP` clears the results and keeps `ESTKY`. -/
theorem test_sysNop_x1 :
    let t := run .sysNop { bench with rc := 0xFFFFFFFF#32, estky := true, r0 := 5#32 }
    report t = (0, 0, 0) ∧ t.eob = false ∧ t.estky = true := by decide

/-- X2: `SYS.RESET` clears state, holds its own word in `CMD` and leaves memory. -/
theorem test_sysReset_x2 :
    let t := run .sysReset { reading .msb b1 5 with estky := true, vidx := 3#3 }
    t.bs0 = BitCtx.reset ∧ t.estky = false ∧ t.vidx = 0#3 ∧ t.cmd = 0x01000000#32 ∧ t.mem = memoryAt 0x1000 b1 := by decide

/-- X4: an illegal word is refused before the context is looked at. -/
theorem test_illegal_x4 : report (after { bench with host := [.regWrite 0 .word 0x12000042#32] }) = (-6, 0, 0) := by decide

/-- X8, X9: writes to read-only and reserved registers are ignored; `A3` holds what was written. -/
theorem test_host_registers :
    (after { bench with host := [.regWrite 0x04 .word 0x1234#32] }).rc = 0#32
      ∧ (after { bench with host := [.regWrite 0x48 .word 0x1234#32] }).bs0.pos = 0#32
      ∧ (after { bench with host := [.regRead 0x14 .word], hostData := 1#32 }).hostData = 0#32
      ∧ (after { bench with host := [.regWrite 0x2C .word 0xDEADBEEF#32] }).a3 = 0xDEADBEEF#32 := by decide

/-- The fetch helper runs exactly the command it is given: `BSR.GET 0, 11` (E4, B1). -/
theorem test_fetch : report (after ((reading .msb b1 0).withFetchWord 32 0x12000016)) = (0, 0x7FF, 11)
    ∧ decodeTableWord 32 0x12000016 = some (.bsrGet .bs0 11#6) := by decide

/-! ## Witnesses: for each statement with hypotheses, a state and operands that meet them all; where it has several clauses, one for each,
at the edge of its range -/

/-- `DecodeOfEncode`. -/
theorem witness_decodeOfEncode : (Instr.hufPairs .bs1 31#5 576#10).WellFormed ∧ (Instr.bsrGet .bs0 32#6).WellFormed
    ∧ (Instr.vmdctRun 13#4).WellFormed ∧ (Instr.imdctRun 1 .short true).WellFormed := by decide

/-- `EncodeOfDecode`. -/
theorem witness_encodeOfDecode : decode 0x2000903F#32 = .ok (.hufPairs .bs1 31#5 576#10) := by decide

/-- `OpcodeRowsDisjoint`. -/
theorem witness_opcodeRowsDisjoint : ∃ r ∈ opcodeMap, r.op = .bsrGet ∧ r.selects 0x12000016#32 = true := by decide

/-- `IllegalWordsExactly`, its second clause. -/
theorem witness_illegalWordsExactly : { bench with host := [.regWrite 0 .word 0x12000042#32] }.host = .regWrite 0 .word 0x12000042#32 :: []
    ∧ illegalNumber (0x12000042#32).toNat := ⟨rfl, .inr (by decide)⟩

/-- `StepRunsDecodedCommand`. -/
theorem witness_stepRunsDecodedCommand : { bench with host := [.regWrite 0 .word 0x5000000D#32] }.host = .regWrite 0 .word 0x5000000D#32 :: []
    ∧ decode 0x5000000D#32 = .ok (.vmdctRun 13#4) := by decide

/-- `StepIdlesWithoutActions`. -/
theorem witness_stepIdles : State.reset.host = [] := rfl

/-- `HostRegisterAccess`: the first and last offset read, a reserved one, a write to `A0`, to `CMD`, an ignored one at each edge, and the
accesses outside the spec. -/
theorem witness_hostRegisterAccess :
    (0x7C % 4 = 0 ∧ 0x7C ≤ 0x7F)
      ∧ 0x7C ∉ [0x00, 0x04, 0x08, 0x0C, 0x10, 0x20, 0x24, 0x28, 0x2C, 0x40, 0x44, 0x48, 0x4C, 0x50, 0x54, 0x58, 0x5C, 0x60]
      ∧ (0x04 % 4 = 0 ∧ 0x04 ∉ [0x00, 0x20, 0x24, 0x28, 0x2C]) ∧ (0x30 % 4 = 0 ∧ 0x30 ∉ [0x00, 0x20, 0x24, 0x28, 0x2C])
      ∧ (Width.half ≠ .word ∧ 0x02 % 4 ≠ 0 ∧ 0x7F < 0x80)
      ∧ [HostAction.regWrite 0x20 .word 1#32, .regWrite 0x24 .word 1#32, .regWrite 0x28 .word 1#32, .regWrite 0x2C .word 1#32,
          .regWrite 0x00 .word 1#32, .regWrite 0x30 .word 1#32, .regRead 0x7C .word, .regRead 0x80 .word, .regWrite 0x02 .half 1#32].all
        (fun act => decide ({ bench with host := [act] }.host = act :: [])) = true := by decide

/-- `HostMemoryAccess`, reads and writes of each width: the last unit of the space, the one before the register block and the one after it,
and one at an odd address. -/
theorem witness_hostMemoryAccess :
    [(0xFFFFFFFF, Width.byte), (0xEFFFFFFF, .byte), (0xF0000080, .byte), (1, .byte), (0xFFFFFFFE, .half), (0xEFFFFFFE, .half),
      (0xF0000080, .half), (1, .half), (0xFFFFFFFC, .word), (0xEFFFFFFC, .word), (0xF0000080, .word), (1, .word)].all
      (fun p : Nat × Width =>
        decide (p.1 + p.2.bytes ≤ 2 ^ 32 ∧ rangesOverlap p.1 p.2.bytes bench.cfg.regBase.toNat 0x80 = false
          ∧ { bench with host := [.memWrite p.1 p.2 0x12345678#32] }.host = .memWrite p.1 p.2 0x12345678#32 :: []
          ∧ { bench with host := [.memRead p.1 p.2] }.host = .memRead p.1 p.2 :: [])) = true := by decide

/-- `HostMemoryAccess`, its stops for each width: one byte too far; the first and the last byte of the register block. -/
theorem witness_hostMemoryAccess_stops :
    (2 ^ 32 < 0x100000000 + Width.byte.bytes ∧ 2 ^ 32 < 0xFFFFFFFF + Width.half.bytes ∧ 2 ^ 32 < 0xFFFFFFFD + Width.word.bytes)
      ∧ [(0xF0000000, Width.byte), (0xF000007F, .byte), (0xEFFFFFFF, .half), (0xF000007F, .half), (0xEFFFFFFD, .word), (0xF000007F, .word)].all
        (fun p : Nat × Width =>
          decide (p.1 + p.2.bytes ≤ 2 ^ 32 ∧ rangesOverlap p.1 p.2.bytes bench.cfg.regBase.toNat 0x80 = true)) = true := by decide

/-- `ResetValues`, its second clause. -/
theorem witness_resetValues : { bench with host := [.hardReset] }.host = .hardReset :: [] := rfl

/-- `SysNopResult`, its third clause: the first and the last such word. -/
theorem witness_sysNopResult : ((1#32 : Word).toNat / 2 ^ 24 = 0 ∧ (1#32 : Word) ≠ 0#32)
    ∧ ((0x00FFFFFF#32 : Word).toNat / 2 ^ 24 = 0 ∧ (0x00FFFFFF#32 : Word) ≠ 0#32) := by decide

/-- `InvalidContextRejected`. -/
theorem witness_invalidContextRejected : (bench.ctx .bs0).valid = false ∧ (bench.ctx .bs1).valid = false
    ∧ Instr.hufQuads .bs1 0#5 4#10 ∈ [Instr.bsrPeek .bs1 0#6, .bsrGet .bs1 0#6, .bsrSkip .bs1 0#6, .bsrSkipr .bs1,
      .hufPairs .bs1 0#5 4#10, .hufQuads .bs1 0#5 4#10] := by decide

/-- `BsrInitResult`, first clause: the longest buffer, the last bytes of the space, the empty buffer. -/
theorem witness_bsrInit_accepted :
    [(0#32, 0x1FFFFFFF#32), (0xFFFFFFFC#32, 4#32), (0xF0000000#32, 0#32)].all (fun p : Word × Word =>
      decide (p.2.toNat ≤ 2 ^ 29 - 1 ∧ p.1.toNat + p.2.toNat ≤ 2 ^ 32)
        && (decide (p.2.toNat = 0) || accessible benchConfig p.1.toNat p.2.toNat .read)) = true := by decide

/-- `BsrInitResult`, second and third clauses: one byte too long, one byte past the end; one byte of the register block. -/
theorem witness_bsrInit_refused :
    (2 ^ 29 - 1 < (0x20000000#32 : Word).toNat) ∧ (2 ^ 32 < (0xFFFFFFFD#32 : Word).toNat + (4#32 : Word).toNat)
      ∧ ((1#32 : Word).toNat ≤ 2 ^ 29 - 1 ∧ (0xF000007F#32 : Word).toNat + (1#32 : Word).toNat ≤ 2 ^ 32 ∧ 0 < (1#32 : Word).toNat
        ∧ accessible benchConfig (0xF000007F#32 : Word).toNat (1#32 : Word).toNat .read = false) := by decide

/-- `BsrPeekResult`: the widest look, both orders. -/
theorem witness_bsrPeekResult : (32#6).toNat ≤ 32 ∧ ((reading .msb b1 28).ctx .bs0).valid = true
    ∧ ((reading .msb b1 28).ctx .bs0).ord = .msb ∧ ((reading .lsb b2 0).ctx .bs0).ord = .lsb := by decide

/-- The context of the bench's streams is sound, at its start and at its end. -/
theorem witness_sound : ((reading .msb b1 0).ctx .bs0).Sound ∧ ((reading .msb b1 32).ctx .bs0).Sound :=
  ⟨⟨by decide, by decide, by decide, by decide⟩, ⟨by decide, by decide, by decide, by decide⟩⟩

/-- `BsrGetResult`, `BsrSkipResult`: exactly as many bits as there are, and one more. -/
theorem witness_bsrGetResult : (((reading .msb b1 0).ctx .bs0).Sound ∧ ((reading .msb b1 32).ctx .bs0).Sound) ∧ (32#6).toNat ≤ 32 ∧ ((reading .msb b1 0).ctx .bs0).valid = true
    ∧ (32#6).toNat ≤ 8 * ((reading .msb b1 0).ctx .bs0).len.toNat - ((reading .msb b1 0).ctx .bs0).pos.toNat
    ∧ ((reading .msb b1 32).ctx .bs0).valid = true
    ∧ 8 * ((reading .msb b1 32).ctx .bs0).len.toNat - ((reading .msb b1 32).ctx .bs0).pos.toNat < (1#6).toNat :=
  ⟨witness_sound, by decide⟩

/-- `BsrSkiprResult`: exactly as many bits as there are, and one more. -/
theorem witness_bsrSkiprResult : ((reading .msb b1 0).ctx .bs0).Sound ∧ ((reading .msb b1 0).ctx .bs0).valid = true
    ∧ (32#32).toNat ≤ 8 * ((reading .msb b1 0).ctx .bs0).len.toNat - ((reading .msb b1 0).ctx .bs0).pos.toNat
    ∧ 8 * ((reading .msb b1 0).ctx .bs0).len.toNat - ((reading .msb b1 0).ctx .bs0).pos.toNat < (33#32).toNat :=
  ⟨witness_sound.1, by decide⟩

/-- `StreamBitOrder`. -/
theorem witness_streamBitOrder : (reading .msb b1 0).stale .bs0 = [] ∧ ((reading .msb b1 0).ctx .bs0).ord = .msb
    ∧ ((reading .lsb b1 0).ctx .bs0).ord = .lsb := by decide

/-- `GetComposition`: 3 and 5 bits of B10; and 16 and 16, all there are. -/
theorem witness_getComposition : ((reading .msb b1 0).ctx .bs0).Sound ∧ ((reading .msb b1 0).ctx .bs0).valid = true ∧ (reading .msb b1 0).stale .bs0 = []
    ∧ (8#6).toNat = (3#6).toNat + (5#6).toNat ∧ (8#6).toNat ≤ 32 ∧ (8#6).toNat ≤ ((reading .msb b1 0).ctx .bs0).avail
    ∧ (32#6).toNat = (16#6).toNat + (16#6).toNat ∧ (32#6).toNat ≤ ((reading .msb b1 0).ctx .bs0).avail
    ∧ ((reading .lsb b1 0).ctx .bs0).ord = .lsb := ⟨witness_sound.1, by decide⟩

/-- `HuffmanChecksInOrder`: a state for each check, at its edge, the checks before it passed; then all passed. -/
theorem witness_huffmanChecksInOrder :
    huffmanError .bs0 8 true bench = some (.errOperand, 0)
      ∧ huffmanError .bs0 8 true { reading .lsb h1 0 with a0 := 0x2001#32 } = some (.errOperand, 0)
      ∧ huffmanError .bs0 8 true { huffing h1 0 13 with a0 := 0x2002#32 } = some (.errOperand, 0)
      ∧ huffmanError .bs0 8 true { huffing h1 0 13 with a0 := 0xFFFFFFE4#32 } = some (.errOperand, 0)
      ∧ huffmanError .bs0 8 true { huffing h1 0 13 with a0 := 0x0FE4#32 } = some (.errOperand, 0)
      ∧ huffmanError .bs0 8 true { huffing h1 0 13 with a0 := 0xF000007C#32 } = some (.errBus, 0)
      ∧ huffmanError .bs0 8 false (huffing h1 0 17) = some (.needMoreData, 16)
      ∧ huffmanError .bs0 8 false (huffing h1 0 16) = some (.errHuffTable, 0)
      ∧ huffmanError .bs0 8 true { huffing h1 0 16 with a0 := 0xFFFFFFE0#32 } = none
      ∧ huffmanError .bs0 8 true { huffing h1 0 16 with a0 := 0x0FE0#32 } = none := by decide

/-- `CodewordMatching`: a well-formed code, and a stream for each of the three answers (H1, H10, H12). -/
theorem witness_codewordMatching :
    codeWellFormed (pairTwo.entries.map PairEntry.bits) = true
      ∧ matchCode PairEntry.bits pairTwo.entries (fun i => decide (i = 1)) 2 0 = .found ⟨[false, true], 1, 0⟩
      ∧ matchCode PairEntry.bits pairTwo.entries (fun _ => false) 1 0 = .overrun
      ∧ matchCode PairEntry.bits pairTwo.entries (fun _ => false) 2 0 = .noCode := by decide

/-- `TailOfCoefficient`: pair 0 of H4, magnitude 15 with linbits '101' and sign '1', at the largest linbits value; and the bound's edge. -/
theorem witness_tailOfCoefficient :
    (5 < 2 ^ 3 ∧ 2 ≤ 6 ∧ Coefficient.bits ⟨15, 5, true⟩ 3 15 = [true, false, true, true]
        ∧ tail (fun i => decide (i ≠ 3)) 6 15 3 15 2 = some (0x80000014#32, 6))
      ∧ (15 ≤ 15 ∧ 13 ≤ 13 ∧ 8191 < 2 ^ 13 ∧ Coefficient.value ⟨15, 8191, false⟩ 13 15 = 8206) := by decide

/-- The bench's Huffman states are ready. -/
theorem ready_h1 : HuffmanReady .bs0 8 (huffing h1 0 13) ∧ HuffmanReady .bs0 8 (huffing h1 0 12) :=
  ⟨⟨by decide, by decide, by decide, by decide, by decide, by decide, by decide⟩,
    ⟨by decide, by decide, by decide, by decide, by decide, by decide, by decide⟩⟩

/-- The four pairs of H1. -/
def itemsH1 : List PairItem :=
  [⟨⟨[false, false, false], 1, 1⟩, 0, false, 0, true⟩, ⟨⟨[true], 0, 0⟩, 0, false, 0, false⟩,
    ⟨⟨[false, false, true], 0, 1⟩, 0, false, 0, false⟩, ⟨⟨[false, true], 1, 0⟩, 0, true, 0, false⟩]

/-- The next bits of the stream, listed. -/
theorem startsWith_of_all {s : State} {c : CtxId} {l : List Bool}
    (h : (l.zipIdx.all fun p => decide (s.commandBit c p.2 = p.1)) = true) : streamStartsWith s c l := by
  intro i b hb
  have hm : (b, i) ∈ l.zipIdx := List.mem_zipIdx_iff_getElem?.mpr hb
  simpa using List.all_eq_true.mp h _ hm

/-- `PairsDecodeEncodedStream`: H1, its bits exactly the ones available. -/
theorem witness_pairsDecode :
    HuffmanReady .bs0 (8#10).toNat (huffing h1 0 13) ∧ (8#10).toNat = 2 * itemsH1.length
      ∧ pairTable (huffing h1 0 13).cfg 1#5 = .code pairOne
      ∧ (∀ p ∈ itemsH1, p.ofTable pairOne) ∧ streamStartsWith (huffing h1 0 13) .bs0 (itemsH1.flatMap (PairItem.bits pairOne))
      ∧ (itemsH1.flatMap (PairItem.bits pairOne)).length = (huffing h1 0 13).a1.toNat
      ∧ ((huffing h1 0 13).ctx .bs0).Sound :=
  ⟨ready_h1.1, by decide, by decide, by unfold PairItem.ofTable; decide, startsWith_of_all (by decide), by decide, by decide, by decide,
    by decide, by decide⟩

/-- `PairsOfZeroTable`: H8. -/
theorem witness_pairsOfZeroTable : HuffmanReady .bs0 4 (huffing h1 0 0) ∧ pairTable (huffing h1 0 0).cfg 0#5 = .zero
    ∧ (Instr.hufPairs .bs0 0#5 4#10).WellFormed :=
  ⟨⟨by decide, by decide, by decide, by decide, by decide, by decide, by decide⟩, by decide, by decide⟩

/-- The three quads of H14. -/
def itemsH14 : List QuadItem :=
  [⟨⟨[true], false, false, false, false⟩, false, false, false, false⟩,
    ⟨⟨[false, false, false, true, false, true], false, true, false, true⟩, false, true, false, false⟩,
    ⟨⟨[false, false, false, false, false, true], true, true, true, true⟩, false, true, false, true⟩]

/-- `QuadsDecodeEncodedStream`: H14, ended by the bits. -/
theorem witness_quadsDecode_bits :
    HuffmanReady .bs0 16 (huffing h14 0 19) ∧ ((huffing h14 0 19).ctx .bs0).Sound
      ∧ quadTable (huffing h14 0 19).cfg 0#5 = some quadA ∧ (∀ q ∈ itemsH14, q.entry ∈ quadA.entries)
      ∧ 4 * itemsH14.length ≤ (16#10).toNat ∧ streamStartsWith (huffing h14 0 19) .bs0 (itemsH14.flatMap QuadItem.bits)
      ∧ (itemsH14.flatMap QuadItem.bits).length = (huffing h14 0 19).a1.toNat :=
  ⟨⟨by decide, by decide, by decide, by decide, by decide, by decide, by decide⟩, ⟨by decide, by decide, by decide, by decide⟩,
    by decide, by decide, by decide, startsWith_of_all (by decide), by decide⟩

/-- `QuadsDecodeEncodedStream`: H17, ended by the room. -/
theorem witness_quadsDecode_room :
    HuffmanReady .bs0 (10#10).toNat (huffing h14 0 19) ∧ ((huffing h14 0 19).ctx .bs0).Sound
      ∧ quadTable (huffing h14 0 19).cfg 0#5 = some quadA ∧ (∀ q ∈ itemsH14.take 2, q.entry ∈ quadA.entries)
      ∧ 4 * (itemsH14.take 2).length ≤ (10#10).toNat
      ∧ streamStartsWith (huffing h14 0 19) .bs0 ((itemsH14.take 2).flatMap QuadItem.bits)
      ∧ ((itemsH14.take 2).flatMap QuadItem.bits).length ≤ (huffing h14 0 19).a1.toNat
      ∧ (10#10).toNat < 4 * (itemsH14.take 2).length + 4 :=
  ⟨⟨by decide, by decide, by decide, by decide, by decide, by decide, by decide⟩, ⟨by decide, by decide, by decide, by decide⟩,
    by decide, by decide, by decide, startsWith_of_all (by decide), by decide, by decide⟩

/-- `TruncatedPairsOverrun`: H2, one bit short. -/
theorem witness_truncatedPairs :
    HuffmanReady .bs0 (8#10).toNat (huffing h1 0 12) ∧ pairTable (huffing h1 0 12).cfg 1#5 = .code pairOne
      ∧ (8#10).toNat = 2 * itemsH1.length ∧ (∀ p ∈ itemsH1, p.ofTable pairOne)
      ∧ (huffing h1 0 12).a1.toNat < (itemsH1.flatMap (PairItem.bits pairOne)).length
      ∧ streamStartsWith (huffing h1 0 12) .bs0 (itemsH1.flatMap (PairItem.bits pairOne)) :=
  ⟨ready_h1.2, by decide, by decide, by unfold PairItem.ofTable; decide, by decide, startsWith_of_all (by decide)⟩

/-- `TruncatedQuadsOverrun`: H15, one bit short of the third quad. -/
theorem witness_truncatedQuads :
    HuffmanReady .bs0 (16#10).toNat (huffing h14 0 18) ∧ quadTable (huffing h14 0 18).cfg 0#5 = some quadA
      ∧ (∀ q ∈ itemsH14, q.entry ∈ quadA.entries) ∧ 4 * itemsH14.length ≤ (16#10).toNat
      ∧ (huffing h14 0 18).a1.toNat < (itemsH14.flatMap QuadItem.bits).length
      ∧ (∀ k, ((itemsH14.take k).flatMap QuadItem.bits).length ≠ (huffing h14 0 18).a1.toNat)
      ∧ streamStartsWith (huffing h14 0 18) .bs0 (itemsH14.flatMap QuadItem.bits) := by
  refine ⟨⟨by decide, by decide, by decide, by decide, by decide, by decide, by decide⟩, by decide, by decide, by decide, by decide, fun k => ?_,
    startsWith_of_all (by decide)⟩
  match k with
  | 0 | 1 | 2 => decide
  | k + 3 => rw [List.take_of_length_le (by rw [show itemsH14.length = 3 from rfl]; omega)]; decide

/-- A table of quads with one codeword, `'1'`. -/
def quadOne : QuadCode where
  entries := [⟨[true], false, false, false, false⟩]

/-- The bench with that table. -/
def benchOneQuad : State := { huffing [0x80#8] 0 8 with cfg := { benchConfig with huffQuad := #v[quadOne, quadB] } }

/-- `InvalidCodewordStops`, pairs: H12, where the bits after the first pair fit no codeword of `pair[2]`. -/
theorem witness_invalidCodeword_pairs :
    let s := huffing [0x90#8] 0 8
    let items : List PairItem := [⟨⟨[true], 0, 0⟩, 0, false, 0, false⟩]
    HuffmanReady .bs0 (4#10).toNat s ∧ pairTable s.cfg 2#5 = .code pairTwo ∧ (∀ p ∈ items, p.ofTable pairTwo)
      ∧ 2 * items.length + 2 ≤ (4#10).toNat ∧ streamStartsWith s .bs0 (items.flatMap (PairItem.bits pairTwo))
      ∧ ∀ e ∈ pairTwo.entries, ∃ i b, e.bits[i]? = some b ∧ (items.flatMap (PairItem.bits pairTwo)).length + i < s.a1.toNat
        ∧ s.commandBit .bs0 ((items.flatMap (PairItem.bits pairTwo)).length + i) ≠ b := by
  refine ⟨⟨by decide, by decide, by decide, by decide, by decide, by decide, by decide⟩, by decide, by unfold PairItem.ofTable; decide,
    by decide, startsWith_of_all (by decide), fun e he => ?_⟩
  obtain rfl | rfl : e = ⟨[true], 0, 0⟩ ∨ e = ⟨[false, true], 1, 0⟩ := by simpa [pairTwo] using he
  · exact ⟨0, true, by decide, by decide, by decide⟩
  · exact ⟨1, true, by decide, by decide, by decide⟩

/-- `InvalidCodewordStops`, quads: after one quad, a bit that fits no codeword. -/
theorem witness_invalidCodeword_quads :
    let items : List QuadItem := [⟨⟨[true], false, false, false, false⟩, false, false, false, false⟩]
    HuffmanReady .bs0 (8#10).toNat benchOneQuad ∧ quadTable benchOneQuad.cfg 0#5 = some quadOne
      ∧ (∀ q ∈ items, q.entry ∈ quadOne.entries) ∧ 4 * items.length + 4 ≤ (8#10).toNat
      ∧ streamStartsWith benchOneQuad .bs0 (items.flatMap QuadItem.bits)
      ∧ ∀ e ∈ quadOne.entries, ∃ i b, e.bits[i]? = some b ∧ (items.flatMap QuadItem.bits).length + i < benchOneQuad.a1.toNat
        ∧ benchOneQuad.commandBit .bs0 ((items.flatMap QuadItem.bits).length + i) ≠ b := by
  refine ⟨⟨by decide, by decide, by decide, by decide, by decide, by decide, by decide⟩, by decide, by decide, by decide,
    startsWith_of_all (by decide), fun e he => ?_⟩
  obtain rfl : e = ⟨[true], false, false, false, false⟩ := by simpa [quadOne] using he
  exact ⟨0, true, by decide, by decide, by decide⟩

/-- `HuffmanOutputWords`: H1 writes its eighth word; H2 fails after its sixth; H14 fills its last. -/
theorem witness_huffmanOutputWords :
    exec (.hufPairs .bs0 1#5 8#10) (huffing h1 0 13) = .next (run (.hufPairs .bs0 1#5 8#10) (huffing h1 0 13))
      ∧ (Instr.hufPairs .bs0 1#5 8#10).WellFormed ∧ (run (.hufPairs .bs0 1#5 8#10) (huffing h1 0 13)).rc = 0#32 ∧ 7 < (8#10).toNat
      ∧ (run (.hufPairs .bs0 1#5 8#10) (huffing h1 0 12)).rc = 0xFFFFFFFF#32
      ∧ 5 < (run (.hufPairs .bs0 1#5 8#10) (huffing h1 0 12)).r1.toNat
      ∧ (run (.hufPairs .bs0 2#5 4#10) (huffing [0x90#8] 0 8)).rc = 0xFFFFFFFE#32
      ∧ (Instr.hufQuads .bs0 0#5 16#10).WellFormed ∧ (run (.hufQuads .bs0 0#5 16#10) (huffing h14 0 19)).rc = 0#32 :=
  ⟨exec_run _ _, by decide, by decide, by decide, by decide, by decide, by decide, by decide, by decide⟩

/-- `HuffmanReadsOnlyAvailableBits`: H1 with another byte of memory written and with its padding bits changed. -/
theorem witness_huffmanReads :
    let s := huffing h1 0 13
    (∀ i, i < s.a1.toNat → { s with mem := memoryAt 0x1000 [0x0C#8, 0x9F#8] }.commandBit .bs0 i = s.commandBit .bs0 i)
      ∧ ∀ a, (s.ctx .bs0).base.toNat ≤ a → a < (s.ctx .bs0).base.toNat + (s.ctx .bs0).len.toNat →
        { s with mem := memoryAt 0x1000 [0x0C#8, 0x98#8, 0xFF#8] }.readByte a = s.readByte a := by
  refine ⟨by decide, fun a h1 h2 => ?_⟩
  obtain rfl | rfl : a = 0x1000 ∨ a = 0x1001 := by
    have e1 : ((huffing Tests.h1 0 13).ctx .bs0).base.toNat = 0x1000 := by decide
    have e2 : ((huffing Tests.h1 0 13).ctx .bs0).len.toNat = 2 := by decide
    omega
  · decide
  · decide

/-- `MonotoneInAvailableBits`: H1 from 13 to 16 available bits (H3); the room case of quads, H17 from its 9 bits to all 24. -/
theorem witness_monotone :
    exec (.hufPairs .bs0 1#5 8#10) (huffing h1 0 13) = .next (run (.hufPairs .bs0 1#5 8#10) (huffing h1 0 13))
      ∧ exec (.hufQuads .bs0 0#5 10#10) (huffing h14 0 19) = .next (run (.hufQuads .bs0 0#5 10#10) (huffing h14 0 19))
      ∧ (run (.hufPairs .bs0 1#5 8#10) (huffing h1 0 13)).rc = 0#32
      ∧ (run (.hufPairs .bs0 1#5 8#10) (huffing h1 0 13)).r0.toNat ≤ (16#32).toNat
      ∧ (16#32).toNat ≤ ((huffing h1 0 13).ctx .bs0).avail
      ∧ (run (.hufQuads .bs0 0#5 10#10) (huffing h14 0 19)).rc = 0#32
      ∧ (10#10).toNat < (run (.hufQuads .bs0 0#5 10#10) (huffing h14 0 19)).r1.toNat + 4
      ∧ (run (.hufQuads .bs0 0#5 10#10) (huffing h14 0 19)).r0.toNat ≤ (9#32).toNat
      ∧ (24#32).toNat ≤ ((huffing h14 0 19).ctx .bs0).avail := ⟨exec_run _ _, exec_run _ _, by decide⟩

/-- `WindowClassTable`, its last clause. -/
theorem witness_windowClassTable : WindowClass.normal ≠ .short ∧ WindowClass.stop ≠ .short := by decide

/-- `AliasReductionOrder`: the first and the last boundary, and subbands on each side. -/
theorem witness_aliasReductionOrder : (0 + 1 < 32 ∧ 30 + 1 < 32) ∧ (2 < 32 ∧ 2 ≠ 0 ∧ 2 ≠ 0 + 1) ∧ (31 < 32 ∧ 30 < 31) := by decide

/-- The bench with source and destination of `IMDCT.RUN` apart by exactly 2304 bytes, the source zero. -/
def imdctBench : State := { bench with a0 := 0x3000#32, a1 := 0x3900#32, mem := Memory.fill 0x3000 2304 0#8 }

/-- A word of a zero-filled range is zero. -/
theorem readWord_fill {s : State} {base n a : Nat} (hm : s.mem = Memory.fill base n 0#8) (h1 : base ≤ a) (h2 : a + 4 ≤ base + n) :
    s.readWord a = 0#32 := by
  have hb : ∀ k < 4, s.readByte (a + k) = 0#8 := by
    intro k hk
    rw [State.readByte, hm, Memory.lookup_fill _ _ _ _ (by omega)]
    rfl
  rw [State.readWord, hb 1 (by decide), hb 2 (by decide), hb 3 (by decide)]
  have := hb 0 (by decide)
  rw [Nat.add_zero] at this
  rw [this]
  rfl

/-- `ImdctFailures`: each way of a wrong operand at its edge (M5), and each region on the register block. -/
theorem witness_imdctFailures :
    (0x3001#32 : Word).toNat % 4 ≠ 0 ∧ 2 ^ 32 < (0xFFFFF704#32 : Word).toNat + 2304
      ∧ rangesOverlap 0x3000 2304 (0x3000 + 2300) 2304 = true
      ∧ (rangesOverlap 0x3000 2304 0xF0000000 2304 = false ∧ 0xF0000000 % 4 = 0 ∧ 0xF0000000 + 2304 ≤ 2 ^ 32
        ∧ accessible benchConfig 0xF0000000 2304 .read = false ∧ accessible benchConfig 0xF0000000 2304 .write = false) := by decide

/-- `ImdctResult` and `ImdctSilence`: ready, and every word of the source zero, so guarded; overlap zero. -/
theorem witness_imdct : ImdctReady imdctBench ∧ (∀ j : Fin 576, imdctBench.readWord (imdctBench.a0.toNat + 4 * j.val) = 0#32)
    ∧ 1 ≤ gbits 0#32 ∧ ∀ sb : Fin 32, imdctBench.ovl[(0 : Channel)][sb] = zeros 9 := by
  refine ⟨⟨by decide, by decide, by decide, by decide, by decide⟩, fun j => ?_, by decide, fun sb => ?_⟩
  · have h0 : imdctBench.a0.toNat = 0x3000 := by decide
    have := j.isLt
    exact readWord_fill (base := 0x3000) (n := 2304) (by simp only [imdctBench]) (by omega) (by omega)
  · simp [imdctBench, bench, State.reset]

/-- `SynFailures`: each way of a wrong operand at its edge (Y6), and each region on the register block. -/
theorem witness_synFailures :
    (0x4002#32 : Word).toNat % 4 ≠ 0 ∧ (0x5001#32 : Word).toNat % 2 ≠ 0 ∧ (0x5002#32 : Word).toNat % 4 ≠ 0
      ∧ 2 ^ 32 < (0xFFFFFF84#32 : Word).toNat + 128 ∧ 2 ^ 32 < (0xFFFFFF04#32 : Word).toNat + 256
      ∧ rangesOverlap 0x407E 128 0x4000 128 = true ∧ rangesOverlap 0x4080 128 0x4000 128 = false
      ∧ (accessible benchConfig 0xF0000000 128 .read = false ∧ accessible benchConfig 0xF000007E 64 .write = false
        ∧ accessible benchConfig 0xF0000080 64 .write = true) := by decide

/-- The bench with both inputs of `SYN.RUN` zero and the output next to them. -/
def synBench : State := { bench with a0 := 0x4000#32, a1 := 0x4000#32, a2 := 0x4080#32, mem := Memory.fill 0x4000 128 0#8 }

/-- `SynResult` and `SynSilence`, mono and stereo. -/
theorem witness_syn : SynReady false .pcm32 synBench ∧ SynReady true .pcm16 synBench
    ∧ (∀ j : Fin 32, synBench.readWord (synBench.a0.toNat + 4 * j.val) = 0#32)
    ∧ (∀ j : Fin 32, synBench.readWord (synBench.a1.toNat + 4 * j.val) = 0#32)
    ∧ ∀ (ch : Channel) (slot : Fin 8), synBench.vbuf[ch][slot] = zeros 64 := by
  refine ⟨⟨by decide, by decide, by decide, by decide, by decide, by decide, by decide, by decide⟩,
    ⟨by decide, by decide, by decide, by decide, by decide, by decide, by decide, by decide⟩, fun j => ?_, fun j => ?_, fun ch slot => ?_⟩
  · have h0 : synBench.a0.toNat = 0x4000 := by decide
    have := j.isLt
    exact readWord_fill (base := 0x4000) (n := 128) (by simp only [synBench]) (by omega) (by omega)
  · have h0 : synBench.a1.toNat = 0x4000 := by decide
    have := j.isLt
    exact readWord_fill (base := 0x4000) (n := 128) (by simp only [synBench]) (by omega) (by omega)
  · simp [synBench, bench, State.reset]

/-- `PcmRounding`, its first clause: the smallest and the largest `SYN_FRACBITS`. -/
theorem witness_pcmRounding : 1 ≤ 1 ∧ 1 ≤ 62 := by decide

/-- `VmdctFailures`: misaligned, one word past the end (V3), on the register block. -/
theorem witness_vmdctFailures :
    (Instr.vmdctRun 7#4).WellFormed ∧ (0x6002#32 : Word).toNat % 4 ≠ 0
      ∧ 2 ^ 32 < (0xFFFFFF04#32 : Word).toNat + 2 ^ ((7#4).toNat + 1) ∧ (0xFFFFFF00#32 : Word).toNat + 2 ^ ((7#4).toNat + 1) ≤ 2 ^ 32
      ∧ accessible benchConfig 0xF0000000 256 .read = false ∧ accessible benchConfig 0xF0000000 256 .write = false := by decide

/-- The bench with 32 zero words for `VMDCT.RUN 6`. -/
def vmdctBench : State := { bench with a0 := 0x6000#32, mem := Memory.fill 0x6000 128 0#8 }

/-- `VmdctResult` and `VmdctSilence`: V1. -/
theorem witness_vmdct : (Instr.vmdctRun 6#4).WellFormed ∧ VmdctReady 6#4 vmdctBench
    ∧ ∀ j : Fin (2 ^ ((6#4).toNat - 1)), vmdctBench.readWord (vmdctBench.a0.toNat + 4 * j.val) = 0#32 := by
  refine ⟨by decide, ⟨by decide, by decide, by decide, by decide⟩, fun j => ?_⟩
  have h0 : vmdctBench.a0.toNat = 0x6000 := by decide
  have h1 : j.val < 32 := lt_of_lt_of_eq j.isLt (by decide)
  exact readWord_fill (base := 0x6000) (n := 128) (by simp only [vmdctBench]) (by omega) (by omega)

/-- `EveryCommandFinishes`, its second clause, on a word that is illegal. -/
theorem witness_everyCommandFinishes : { bench with host := [.regWrite 0 .word 0xFF000000#32] }.host = .regWrite 0 .word 0xFF000000#32 :: [] := rfl

/-- `FailuresArePrecise`: failures of both kinds (H2, B8) and a success. -/
theorem witness_failuresArePrecise :
    (exec (.hufPairs .bs0 1#5 8#10) (huffing h1 0 12) = .next (run (.hufPairs .bs0 1#5 8#10) (huffing h1 0 12))
        ∧ (run (.hufPairs .bs0 1#5 8#10) (huffing h1 0 12)).rc.toInt = -1)
      ∧ (run (.bsrGet .bs1 4#6) bench).rc.toInt = -5
      ∧ (run (.hufPairs .bs0 1#5 8#10) (huffing h1 0 13)).rc.toInt = 0 ∧ Instr.hufPairs .bs0 1#5 8#10 ≠ .sysReset :=
  ⟨⟨exec_run _ _, by decide⟩, by decide, by decide, by decide⟩

/-- `StickyErrorFlag`: a step from a state with `ESTKY` set, and one that resets it. -/
theorem witness_stickyErrorFlag :
    step { bench with estky := true, host := [.regRead 0 .word] } = .next (after { bench with estky := true, host := [.regRead 0 .word] })
      ∧ step { bench with estky := true, host := [.hardReset] } = .next (after { bench with estky := true, host := [.hardReset] })
      ∧ exec .sysNop bench = .next (run .sysNop bench) ∧ Instr.sysNop ≠ .sysReset :=
  ⟨rfl, rfl, rfl, by decide⟩

/-- `OperandRegistersKept`, `DspStateOnlyByItsCommand`, `CommandsWriteOnlyTheirRegion`: a command that runs, and its exceptions. -/
theorem witness_exec : exec (.synRun false .pcm16) synBench = .next (run (.synRun false .pcm16) synBench)
    ∧ Instr.synRun false .pcm16 ≠ .sysReset ∧ (∀ ch bt mix, Instr.synRun false .pcm16 ≠ .imdctRun ch bt mix)
    ∧ (∀ fmt, Instr.synRun false .pcm16 ≠ .synRun true fmt) ∧ (∀ stereo fmt, Instr.sysNop ≠ .synRun stereo fmt) :=
  ⟨exec_run _ _, by decide, by simp, by simp, by simp⟩

/-- `EobOnlyFromPeek`: a look past the end sets `EOB`. -/
theorem witness_eobOnlyFromPeek : exec (.bsrPeek .bs0 8#6) (reading .msb b1 28) = .next (run (.bsrPeek .bs0 8#6) (reading .msb b1 28))
    ∧ (run (.bsrPeek .bs0 8#6) (reading .msb b1 28)).eob = true ∧ ((reading .msb b1 28).ctx .bs0).valid = true
    ∧ (run (.bsrPeek .bs0 8#6) (reading .msb b1 28)).r1.toNat < (8#6).toNat :=
  ⟨exec_run _ _, by decide, by decide, by decide⟩

/-- `OriginChangesOnlyByInit`: `BSR.GET 0` and the two contexts, one named and sound, one not named; and one that fails. -/
theorem witness_originChanges : exec (.bsrGet .bs0 4#6) (reading .msb b1 0) = .next (run (.bsrGet .bs0 4#6) (reading .msb b1 0))
    ∧ Instr.bsrGet .bs0 4#6 ≠ .sysReset ∧ namedContext (.bsrGet .bs0 4#6) ≠ some .bs1
    ∧ (∀ ord, Instr.bsrGet .bs0 4#6 ≠ .bsrInit .bs0 ord)
    ∧ (run (.bsrGet .bs0 1#6) (reading .msb b1 32)).rc.toInt < 0 :=
  ⟨exec_run _ _, by decide, by decide, by simp, by decide⟩

/-- `CursorInvariantKept`, `MemoryInvariantKept`, `ReportInvariantKept`, `ConfigurationNeverChanges`: a step from a state with a stream, which
runs `BSR.GET 0, 11`. -/
theorem witness_invariants : (reading .msb b1 0).CursorsSound ∧ (reading .msb b1 0).MemorySound ∧ (reading .msb b1 0).ReportSound
    ∧ step ((reading .msb b1 0).withFetchWord 32 0x12000016) = .next (after ((reading .msb b1 0).withFetchWord 32 0x12000016)) := by
  refine ⟨⟨⟨by decide, by decide, by decide, by decide⟩, ⟨by decide, by decide, by decide, fun _ => rfl⟩⟩,
    ⟨by decide, by decide, by decide, by decide, by decide, by decide⟩, ⟨⟨.none, by decide⟩, fun _ => rfl⟩, rfl⟩

/-- A context's buffer of which the host is about to write the halfword at 0x1000: 0xFF becomes 0xFE, MSB-first stream bit 7, and 0xFB
becomes 0xFA, stream bit 15. -/
def changing : State := { reading .msb b1 0 with host := [.memWrite 0x1000 .half 0xFAFE#32] }

/-- The same buffer, about to be overwritten by the output of `VMDCT.RUN 6`. -/
def storing : State := { reading .msb b1 0 with a0 := 0x1000#32, host := [.regWrite 0 .word 0x50000006#32] }

/-- The buffer after the host's write, about to be opened again. -/
def reopening : State := { after changing with a0 := 0x1000#32, a1 := 4#32, host := [.regWrite 0 .word 0x10000000#32] }

/-- R375: the two bits are free after the write and the others are not; they stay so over a command; `BSR.INIT` ends it. -/
theorem test_changed_bits :
    (List.range 32).filter ((after changing).freed .bs0) = [7, 15]
      ∧ (List.range 32).filter ((run (.bsrGet .bs0 4#6) (after changing)).freed .bs0) = [7, 15]
      ∧ (List.range 32).filter ((after reopening).freed .bs0) = [] := by decide

/-- `ChangedBufferBits`, what frees a bit: a host's write and a command's store, neither a reset nor an opening. -/
theorem witness_changedBufferBits_step :
    (step changing = .next (after changing)
        ∧ ¬∃ rest, changing.host = .hardReset :: rest ∨ changing.host = .regWrite 0 .word 0x01000000#32 :: rest
          ∨ ∃ ord, changing.host = .regWrite 0 .word (encode (.bsrInit .bs0 ord)) :: rest)
      ∧ step storing = .next (after storing)
      ∧ ¬∃ rest, storing.host = .hardReset :: rest ∨ storing.host = .regWrite 0 .word 0x01000000#32 :: rest
        ∨ ∃ ord, storing.host = .regWrite 0 .word (encode (.bsrInit .bs0 ord)) :: rest := by
  refine ⟨⟨rfl, ?_⟩, rfl, ?_⟩
  · rintro ⟨rest, h | h | ⟨ord, h⟩⟩ <;> simp [changing] at h
  · rintro ⟨rest, h | h | ⟨ord, h⟩⟩
    · simp [storing] at h
    · simp [storing] at h
    · exact absurd (List.cons.inj h).1 (by cases ord <;> decide)

/-- `ChangedBufferBits`, what makes every bit defined: hardware reset, `SYS.RESET`, `BSR.INIT`. -/
theorem witness_changedBufferBits_reset :
    step { changing with host := [.hardReset] } = .next (after { changing with host := [.hardReset] })
      ∧ step { changing with host := [.regWrite 0 .word 0x01000000#32] }
        = .next (after { changing with host := [.regWrite 0 .word 0x01000000#32] })
      ∧ step reopening = .next (after reopening) ∧ (after reopening).rc = 0#32
      ∧ reopening.host = .regWrite 0 .word (encode (.bsrInit .bs0 .msb)) :: [] :=
  ⟨rfl, rfl, rfl, by decide, by decide⟩

/-- `ChangedBufferBits`, its last clause: the first and the last byte of a halfword written, and one of a word at an odd address. -/
theorem witness_changedBufferBits_write :
    (step changing = .next (after changing) ∧ changing.host = .memWrite 0x1000 .half 0xFAFE#32 :: [])
      ∧ (0 < Width.half.bytes ∧ (changing.ctx .bs0).base.toNat + 7 / 8 = 0x1000 + 0 ∧ 7 < 8 * (changing.ctx .bs0).len.toNat
        ∧ (0xFAFE#32 : Word).getLsbD (8 * 0 + (7 - 7 % 8)) ≠ changing.memoryBit .bs0 7)
      ∧ (1 < Width.half.bytes ∧ (changing.ctx .bs0).base.toNat + 15 / 8 = 0x1000 + 1 ∧ 15 < 8 * (changing.ctx .bs0).len.toNat
        ∧ (0xFAFE#32 : Word).getLsbD (8 * 1 + (7 - 15 % 8)) ≠ changing.memoryBit .bs0 15)
      ∧ (3 < Width.word.bytes ∧ (changing.ctx .bs0).base.toNat + 0 / 8 = 0xFFD + 3
        ∧ (0#32 : Word).getLsbD (8 * 3 + (7 - 0 % 8)) ≠ changing.memoryBit .bs0 0) :=
  ⟨⟨rfl, rfl⟩, by decide, by decide, by decide⟩

end Sys2Proof.Tests
end

section
/-! The obligations of 10_state.md: reset, the step that runs a command, the configuration, operand registers, results and flags, the
contexts, the persistent DSP state. Those over all commands go by cases on `Effect`; that a command reads neither `A3` nor an old
result is a commutation of each state operation with `State.withUnread`. -/

namespace Sys2Proof.Machine

/-! ## Reset (R47) -/

/-- Settles O10: each item is the field of `State.reset`, and both resets are `State.resetBlock`. -/
theorem resetValues : Obligations.ResetValues := by
  unfold Obligations.ResetValues
  refine ⟨⟨rfl, rfl, rfl, rfl, rfl, rfl, rfl, rfl, rfl, rfl, rfl, rfl, ?_, ?_, ?_, rfl⟩, ?_, ?_⟩
  · intro ch sb i
    simp [State.reset]
  · intro ch sb
    simp [State.reset]
  · intro ch slot i
    simp [State.reset]
  · intro s rest hh
    rw [step, hh]
    rfl
  · intro s
    rfl

/-- The reset context satisfies the cursor invariant: its buffer is empty (40_bitreader.md R167). -/
theorem BitCtx.reset_sound : BitCtx.reset.Sound := ⟨by decide, by decide, by decide, fun _ => rfl⟩

/-- Settles O57: both contexts are the reset context, memory and the maps of changed bits are empty, and `RC` is `NONE`. -/
theorem invariantsAtReset : Obligations.InvariantsAtReset := by
  unfold Obligations.InvariantsAtReset
  have hm : State.reset.MemorySound := by simp [State.MemorySound, State.reset, Memory.wf, StaleMap.wf]
  exact ⟨⟨BitCtx.reset_sound, BitCtx.reset_sound⟩, hm, ⟨.none, rfl⟩, fun _ => rfl⟩

/-! ## The step that runs a command (R36, 30_encoding.md R129) -/

/-- A step whose action writes a word to `CMD` runs the command the word encodes. -/
theorem step_cmdWrite {s : State} {rest : List HostAction} {w : Word} (hh : s.host = .regWrite 0 .word w :: rest) :
    step s = runCommand w { s with host := rest } := by
  rw [step, hh]
  rfl

theorem runCommand_of_decode {w : Word} {i : Instr} (hd : decode w = .ok i) (s : State) :
    runCommand w s = exec i { s with cmd := w, draws := s.draws + 1 } := by
  simp [runCommand, hd]

@[simp] theorem tableWord_toNat (w : Word) : tableWord 32 w.toNat = w := by
  rw [tableWord, Nat.mod_eq_of_lt w.isLt, BitVec.ofNat_toNat, BitVec.setWidth_eq]

/-- Settles O6: the host's write is a `runCommand`, and `withFetchWord` puts one in front of the pending actions. -/
theorem stepRunsDecodedCommand : Obligations.StepRunsDecodedCommand := by
  unfold Obligations.StepRunsDecodedCommand
  refine ⟨fun s rest w i hh hd => ?_, fun s w i hd => ?_⟩
  · rw [step_cmdWrite hh, runCommand_of_decode hd]
  · have hh : (s.withFetchWord 32 w.toNat).host = .regWrite 0 .word w :: s.host := by simp [State.withFetchWord]
    rw [step_cmdWrite hh, runCommand_of_decode hd]
    rfl

/-- Every command answers a next state (60_exceptions.md R330). -/
theorem exec_eq_next (i : Instr) (s : State) : ∃ t, exec i s = .next t := by
  cases i <;> exact ⟨_, rfl⟩

/-! ## Operand registers and what is outside ADB (R30, R31) -/

theorem exec_keepsOperands {i : Instr} {s t : State} (h : exec i s = .next t) (hi : i ≠ .sysReset) : keepsOperands s t := by
  cases exec_effect h with
  | reset hr => exact absurd hr hi
  | _ => simp [keepsOperands]

/-- No command, `SYS.RESET` among them, touches the configuration, the host's side or the draw number. -/
theorem exec_keepsOutside {i : Instr} {s t : State} (h : exec i s = .next t) : keepsOutside s t := by
  cases exec_effect h <;> simp [keepsOutside]

@[simp] theorem State.writeReg_cfg (s : State) (off : Nat) (v : Word) : (s.writeReg off v).cfg = s.cfg := by
  unfold State.writeReg
  split <;> rfl

theorem hostAct_keepsCfg {act : HostAction} {s t : State} (h : hostAct act s = .next t) : t.cfg = s.cfg := by
  obtain ⟨w, i, -, -, hx⟩ | ⟨w, e, -, -, rfl⟩ | ⟨off, v, -, -, rfl⟩ | ⟨v, rfl⟩ | ⟨a, w, v, -, -, rfl⟩ | ⟨-, rfl⟩ :=
    hostAct_cases h
  · exact (exec_keepsOutside hx).1
  all_goals simp

/-- Settles O58: no command and no other host action writes `cfg`. -/
theorem configurationNeverChanges : Obligations.ConfigurationNeverChanges := by
  unfold Obligations.ConfigurationNeverChanges
  intro s t h
  rcases step_cases h with ⟨-, rfl⟩ | ⟨act, rest, -, ha⟩
  · rfl
  · exact (hostAct_keepsCfg ha :)

/-! ## What no command reads: `A3`, the results and `EOB` (R31, R32, R35) -/

/-- The state with `A3` at another value. -/
def State.withA3 (s : State) (a3 : Word) : State := { s with a3 := a3 }

/-- The state with other values in what no command reads: `A3`, the results and `EOB` of the command before. -/
def State.withUnread (s : State) (a3 r0 r1 : Word) (e : Bool) : State := { s with a3 := a3, r0 := r0, r1 := r1, eob := e }

section
variable (s : State) (a3 r0 r1 : Word) (e : Bool)

@[simp] theorem State.cfg_withUnread : (s.withUnread a3 r0 r1 e).cfg = s.cfg := rfl
@[simp] theorem State.a0_withUnread : (s.withUnread a3 r0 r1 e).a0 = s.a0 := rfl
@[simp] theorem State.a1_withUnread : (s.withUnread a3 r0 r1 e).a1 = s.a1 := rfl
@[simp] theorem State.a2_withUnread : (s.withUnread a3 r0 r1 e).a2 = s.a2 := rfl

/-! Of these items the operations of a command keep all, and its end overwrites all but `A3`. -/

@[simp] theorem State.storeBytes_withUnread (a : Nat) (bs : List Byte) :
    (s.withUnread a3 r0 r1 e).storeBytes a bs = (s.storeBytes a bs).withUnread a3 r0 r1 e := by
  induction bs generalizing s a with
  | nil => rfl
  | cons b bs ih => exact ih (s.storeByte a b) (a + 1)

@[simp] theorem State.storeWords_withUnread (a : Nat) (ws : List Word) :
    (s.withUnread a3 r0 r1 e).storeWords a ws = (s.storeWords a ws).withUnread a3 r0 r1 e :=
  s.storeBytes_withUnread a3 r0 r1 e a _

@[simp] theorem State.setPos_withUnread (c : CtxId) (p : Nat) :
    (s.withUnread a3 r0 r1 e).setPos c p = (s.setPos c p).withUnread a3 r0 r1 e := by
  cases c <;> rfl

@[simp] theorem State.setOrigin_withUnread (c : CtxId) (x : BitCtx) :
    (s.withUnread a3 r0 r1 e).setOrigin c x = (s.setOrigin c x).withUnread a3 r0 r1 e := by
  cases c <;> rfl

@[simp] theorem State.finish_withUnread (code : ReturnCode) (x y : Nat) (b : Bool) :
    (s.withUnread a3 r0 r1 e).finish code x y b = (s.finish code x y b).withA3 a3 := rfl

@[simp] theorem State.succeed_withUnread (x y : Nat) :
    (s.withUnread a3 r0 r1 e).succeed x y = (s.succeed x y).withA3 a3 := rfl

@[simp] theorem State.fail_withUnread (code : ReturnCode) (x : Nat) :
    (s.withUnread a3 r0 r1 e).fail code x = (s.fail code x).withA3 a3 := rfl

/-! What a command reads is not among them. -/

@[simp] theorem State.ctx_withUnread (c : CtxId) : (s.withUnread a3 r0 r1 e).ctx c = s.ctx c := by
  cases c <;> rfl

@[simp] theorem State.sbit_withUnread (c : CtxId) : (s.withUnread a3 r0 r1 e).sbit c = s.sbit c := by
  cases c <;> rfl

@[simp] theorem State.take_withUnread (c : CtxId) (p k : Nat) : (s.withUnread a3 r0 r1 e).take c p k = s.take c p k := by
  simp [State.take]

@[simp] theorem huffmanError_withUnread (c : CtxId) (nv : Nat) (present : Bool) :
    huffmanError c nv present (s.withUnread a3 r0 r1 e) = huffmanError c nv present s := by
  cases c <;> rfl

@[simp] theorem State.commandBit_withUnread (c : CtxId) : (s.withUnread a3 r0 r1 e).commandBit c = s.commandBit c := by
  cases c <;> rfl

theorem pairsDecoded_withUnread (c : CtxId) (tab : BitVec 5) (nv : BitVec 10) :
    pairsDecoded c tab nv (s.withUnread a3 r0 r1 e) = pairsDecoded c tab nv s := by
  simp [pairsDecoded]

theorem quadsDecoded_withUnread (c : CtxId) (t : QuadCode) (nv : BitVec 10) :
    quadsDecoded c t nv (s.withUnread a3 r0 r1 e) = quadsDecoded c t nv s := by
  simp [quadsDecoded]

/-! So the bodies of the commands differ in `A3` alone. -/

theorem advance_withUnread (c : CtxId) (n x : Nat) :
    advance c n x (s.withUnread a3 r0 r1 e) = (advance c n x s).withA3 a3 := by
  simp only [advance, State.ctx_withUnread]
  split_ifs <;> simp

theorem huffmanEnd_withUnread (c : CtxId) (d : Decoded) (fill y : Nat) :
    huffmanEnd c d fill y (s.withUnread a3 r0 r1 e) = (huffmanEnd c d fill y s).withA3 a3 := by
  simp only [huffmanEnd, State.ctx_withUnread, State.a0_withUnread]
  split_ifs <;> simp

variable {s a3 r0 r1 e} {t : State}

theorem execBsrInit_withUnread {c : CtxId} {ord : BitOrder} (h : execBsrInit c ord s = .next t) :
    execBsrInit c ord (s.withUnread a3 r0 r1 e) = .next (t.withA3 a3) := by
  have hc : initError (s.withUnread a3 r0 r1 e) = initError s := rfl
  cases h
  rw [execBsrInit, hc]
  cases initError s <;> simp

theorem execBsrPeek_withUnread {c : CtxId} {n : BitVec 6} (h : execBsrPeek c n s = .next t) :
    execBsrPeek c n (s.withUnread a3 r0 r1 e) = .next (t.withA3 a3) := by
  cases h
  simp only [execBsrPeek, State.ctx_withUnread, State.take_withUnread]
  split_ifs <;> simp

theorem execHufPairs_withUnread {c : CtxId} {tab : BitVec 5} {nv : BitVec 10} (h : execHufPairs c tab nv s = .next t) :
    execHufPairs c tab nv (s.withUnread a3 r0 r1 e) = .next (t.withA3 a3) := by
  cases h
  rw [execHufPairs, huffmanError_withUnread, State.cfg_withUnread, pairsDecoded_withUnread, huffmanEnd_withUnread]
  cases huffmanError c nv.toNat (decide (pairTable s.cfg tab ≠ .absent)) s <;> rfl

theorem execHufQuads_withUnread {c : CtxId} {tab : BitVec 5} {nv : BitVec 10} (h : execHufQuads c tab nv s = .next t) :
    execHufQuads c tab nv (s.withUnread a3 r0 r1 e) = .next (t.withA3 a3) := by
  cases h
  simp only [execHufQuads, huffmanError_withUnread, State.cfg_withUnread, quadsDecoded_withUnread, huffmanEnd_withUnread]
  cases huffmanError c nv.toNat (quadTable s.cfg tab).isSome s
  · cases quadTable s.cfg tab <;> rfl
  · rfl

theorem execImdctRun_withUnread {ch : Channel} {bt : WindowClass} {mix : Bool} (h : execImdctRun ch bt mix s = .next t) :
    execImdctRun ch bt mix (s.withUnread a3 r0 r1 e) = .next (t.withA3 a3) := by
  have hc : imdctRegions (s.withUnread a3 r0 r1 e) = imdctRegions s := rfl
  have hr : ∀ x, imdctResult (s.withUnread a3 r0 r1 e) ch bt mix x = imdctResult s ch bt mix x := fun _ => rfl
  have hx : (s.withUnread a3 r0 r1 e).readGranule = s.readGranule := rfl
  cases h
  simp only [execImdctRun, hc, hr, hx, State.storeWords_withUnread, State.cfg_withUnread, State.a0_withUnread, State.a1_withUnread]
  cases regionError s.cfg (imdctRegions s) with
  | some code => rfl
  | none =>
    dsimp only
    generalize s.storeWords _ _ = u
    rfl

theorem execSynRun_withUnread {stereo : Bool} {fmt : PcmFormat} (h : execSynRun stereo fmt s = .next t) :
    execSynRun stereo fmt (s.withUnread a3 r0 r1 e) = .next (t.withA3 a3) := by
  have hc : synRegions (s.withUnread a3 r0 r1 e) = synRegions s := rfl
  have hr : synthChannel (s.withUnread a3 r0 r1 e) = synthChannel s := rfl
  have hv : synthRings (s.withUnread a3 r0 r1 e) stereo = synthRings s stereo := rfl
  cases h
  simp only [execSynRun, hc, hr, hv, State.storeBytes_withUnread, State.cfg_withUnread, State.a2_withUnread]
  cases regionError s.cfg (synRegions s stereo fmt) <;> rfl

theorem execVmdctRun_withUnread {lg : BitVec 4} (h : execVmdctRun lg s = .next t) :
    execVmdctRun lg (s.withUnread a3 r0 r1 e) = .next (t.withA3 a3) := by
  have hc : vmdctRegions (s.withUnread a3 r0 r1 e) lg = vmdctRegions s lg := rfl
  have hr : vmdctOutput (s.withUnread a3 r0 r1 e) lg = vmdctOutput s lg := rfl
  cases h
  simp only [execVmdctRun, hc, hr, State.storeWords_withUnread, State.cfg_withUnread, State.a0_withUnread]
  cases regionError s.cfg (vmdctRegions s lg) <;> rfl

/-- No command but `SYS.RESET` reads `A3`, an old result or the old `EOB`, and of these it keeps `A3` alone. -/
theorem exec_withUnread {i : Instr} (h : exec i s = .next t) (hi : i ≠ .sysReset) :
    exec i (s.withUnread a3 r0 r1 e) = .next (t.withA3 a3) := by
  cases i with
  | sysNop => cases h; rfl
  | sysReset => exact absurd rfl hi
  | bsrInit c ord => exact execBsrInit_withUnread h
  | bsrPeek c n => exact execBsrPeek_withUnread h
  | bsrGet c n => cases h; simp [exec, execBsrGet, advance_withUnread]
  | bsrSkip c n => cases h; simp [exec, execBsrSkip, advance_withUnread]
  | bsrSkipr c => cases h; simp [exec, execBsrSkipr, advance_withUnread]
  | hufPairs c tab nv => exact execHufPairs_withUnread h
  | hufQuads c tab nv => exact execHufQuads_withUnread h
  | imdctRun ch bt mix => exact execImdctRun_withUnread h
  | synRun stereo fmt => exact execSynRun_withUnread h
  | vmdctRun lg => exact execVmdctRun_withUnread h

end

/-- Settles O49: the effects of the commands name no operand register, and `A3` is one of the items no command reads. -/
theorem operandRegistersKept : Obligations.OperandRegistersKept := by
  unfold Obligations.OperandRegistersKept
  refine ⟨fun i s t h hi => ⟨exec_keepsOperands h hi, exec_keepsOutside h⟩, fun i s t v h hi => ?_⟩
  exact exec_withUnread (a3 := v) (r0 := s.r0) (r1 := s.r1) (e := s.eob) h hi

/-- What `BSR.PEEK` does on a valid context (40_bitreader.md R162). -/
theorem exec_bsrPeek_of_valid {c : CtxId} {s : State} (hv : (s.ctx c).valid = true) (n : BitVec 6) :
    ∃ r0, exec (.bsrPeek c n) s = .next (s.finish .none r0 (min n.toNat (s.ctx c).avail)
      (eobAfterPeek (min n.toNat (s.ctx c).avail) n.toNat)) :=
  ⟨_, by simp only [exec, execBsrPeek, hv, if_true]; rfl⟩

/-- The number of bits that `BSR.PEEK` found fits in `R1`. -/
theorem toNat_peekCount (n : BitVec 6) (a : Nat) : (BitVec.ofNat 32 (min n.toNat a)).toNat = min n.toNat a := by
  have := n.isLt
  rw [BitVec.toNat_ofNat, Nat.mod_eq_of_lt (by omega)]

/-- A command's result does not depend on the results and `EOB` of the command before: it keeps `A3`, so nothing of
`State.withUnread` is left in its result. -/
theorem exec_withOldResults (i : Instr) (s : State) (e : Bool) (v w : Word) :
    exec i { s with eob := e, r0 := v, r1 := w } = exec i s := by
  by_cases hi : i = .sysReset
  · subst hi
    rfl
  · obtain ⟨t, ht⟩ := exec_eq_next i s
    obtain ⟨-, -, -, h3, -⟩ := exec_keepsOperands ht hi
    have hk : t.withA3 s.a3 = t := by rw [← h3]; rfl
    calc exec i { s with eob := e, r0 := v, r1 := w }
      _ = .next (t.withA3 s.a3) := exec_withUnread (a3 := s.a3) (r0 := v) (r1 := w) (e := e) ht hi
      _ = exec i s := by rw [hk, ht]

/-- Settles O50: `peeked` is the one effect that sets `EOB`, with the number of bits it found in `R1`. -/
theorem eobOnlyFromPeek : Obligations.EobOnlyFromPeek := by
  unfold Obligations.EobOnlyFromPeek
  refine ⟨fun i s t h he => ?_, fun c n s t h hv hn => ?_, exec_withOldResults⟩
  · cases exec_effect h with
    | peeked c n r0 hi hv =>
      refine ⟨c, n, hi, hv, ?_⟩
      rw [State.finish_r1, toNat_peekCount]
      exact of_decide_eq_true he
    | _ => simp at he
  · obtain ⟨r0, hx⟩ := exec_bsrPeek_of_valid hv n
    rw [hx] at h
    cases h
    rw [State.finish_r1, toNat_peekCount] at hn
    exact decide_eq_true hn

/-! ## The contexts (R38) -/

/-- A command leaves the contexts it does not name unchanged. -/
theorem exec_ctx_of_not_named {i : Instr} {s t : State} {d : CtxId} (h : exec i s = .next t) (hi : i ≠ .sysReset)
    (hd : namedContext i ≠ some d) : t.ctx d = s.ctx d := by
  have other : ∀ {c}, namedContext i = some c → d ≠ c := fun hc hdc => hd (hdc ▸ hc)
  cases exec_effect h with
  | reset hr => exact absurd hr hi
  | opened c ord hc => subst hc; simp [State.setOrigin_ctx_other _ _ _ _ (other rfl)]
  | moved c n r0 hc => simp [State.setPos_ctx_other _ _ _ _ (other hc)]
  | decoded c ws used r1 hc => simp [State.setPos_ctx_other _ _ _ _ (other hc)]
  | transformed | synthesized => cases d <;> simp [State.ctx]
  | _ => simp

/-- A command that does not open a context leaves it unchanged, or succeeds and moves its cursor by some of the bits available. -/
theorem exec_ctx_of_not_opened {i : Instr} {s t : State} {d : CtxId} (h : exec i s = .next t) (hi : i ≠ .sysReset)
    (hd : ∀ ord, i ≠ .bsrInit d ord) :
    t.ctx d = s.ctx d ∨ t.rc = 0#32 ∧ ∃ n ≤ (s.ctx d).avail,
      t.ctx d = { s.ctx d with pos := BitVec.ofNat 32 ((s.ctx d).pos.toNat + n) } := by
  by_cases hn : namedContext i = some d
  · cases exec_effect h with
    | reset hr => exact absurd hr hi
    | opened c ord hc =>
      subst hc
      cases hn
      exact absurd rfl (hd ord)
    | moved c n r0 hc _ _ hl =>
      cases hc.symm.trans hn
      exact .inr ⟨rfl, n, hl, by simp⟩
    | decoded c ws used r1 hc _ _ hl =>
      cases hc.symm.trans hn
      exact .inr ⟨rfl, used, hl, by simp⟩
    | transformed ch bt mix hc => subst hc; cases hn
    | synthesized stereo fmt hc => subst hc; cases hn
    | _ => exact .inl (by simp)
  · exact .inl (exec_ctx_of_not_named h hi hn)

/-- A sound cursor that moves by some of the bits available does not wrap (40_bitreader.md R165, R167). -/
theorem BitCtx.Sound.pos_le_of_le_avail {x : BitCtx} (hx : x.Sound) {n : Nat} (hn : n ≤ x.avail) :
    x.pos.toNat ≤ (BitVec.ofNat 32 (x.pos.toNat + n)).toNat := by
  obtain ⟨hlen, hpos, -, -⟩ := hx
  have hsum : x.pos.toNat + n ≤ 8 * x.len.toNat := by unfold BitCtx.avail at hn; omega
  rw [BitVec.toNat_ofNat, Nat.mod_eq_of_lt (by simp only [lenMax] at hlen; omega)]
  exact Nat.le_add_right _ _

/-- Settles O51: a context that a command does not open is unchanged, or its cursor moves by some of the bits available. -/
theorem originChangesOnlyByInit : Obligations.OriginChangesOnlyByInit := by
  unfold Obligations.OriginChangesOnlyByInit
  refine fun i s t d h hi => ⟨exec_ctx_of_not_named h hi, fun hd => ?_⟩
  rcases exec_ctx_of_not_opened h hi hd with hk | ⟨hrc, n, hn, hk⟩
  · simp [hk]
  · rw [hk, hrc]
    exact ⟨rfl, rfl, rfl, rfl, fun hs => hs.pos_le_of_le_avail hn, fun hneg => absurd hneg (by decide)⟩

/-! ## The persistent DSP state (R41 to R44) -/

/-- Only `IMDCT.RUN` on a channel writes the channel's `OVL` and `PREVWIN`. -/
theorem exec_keepsOverlap {i : Instr} {s t : State} {ch : Channel} (h : exec i s = .next t) (hi : i ≠ .sysReset)
    (hc : ∀ bt mix, i ≠ .imdctRun ch bt mix) : t.ovl[ch] = s.ovl[ch] ∧ t.prevWin[ch] = s.prevWin[ch] := by
  cases exec_effect h with
  | reset hr => exact absurd hr hi
  | transformed ch' bt mix hr =>
    have hne : (ch' : Nat) ≠ ch := fun he => hc bt mix (Fin.ext he ▸ hr)
    simp [Vector.getElem_set_ne, hne]
  | _ => simp

/-- Only `SYN.RUN` writes `VBUF` and `VIDX`. -/
theorem exec_keepsRings {i : Instr} {s t : State} (h : exec i s = .next t) (hi : i ≠ .sysReset)
    (hs : ∀ stereo fmt, i ≠ .synRun stereo fmt) : t.vbuf = s.vbuf ∧ t.vidx = s.vidx := by
  cases exec_effect h with
  | reset hr => exact absurd hr hi
  | synthesized stereo fmt hr => exact absurd hr (hs stereo fmt)
  | _ => simp

/-- Only `SYN.RUN` in stereo writes channel 1's ring. -/
theorem exec_keepsRingOne {i : Instr} {s t : State} (h : exec i s = .next t) (hi : i ≠ .sysReset)
    (hs : ∀ fmt, i ≠ .synRun true fmt) : t.vbuf[1] = s.vbuf[1] := by
  cases exec_effect h with
  | reset hr => exact absurd hr hi
  | synthesized stereo fmt hr bs rings hl hf hm =>
    cases stereo with
    | false => exact hm rfl
    | true => exact absurd hr (hs fmt)
  | _ => simp

/-- Settles O52: of the effects of the commands, `transformed` alone names `OVL` and `PREVWIN`, `synthesized` alone the rings. -/
theorem dspStateOnlyByItsCommand : Obligations.DspStateOnlyByItsCommand := by
  unfold Obligations.DspStateOnlyByItsCommand
  exact fun i s t h hi => ⟨fun ch => exec_keepsOverlap h hi, exec_keepsRings h hi, exec_keepsRingOne h hi⟩

end Sys2Proof.Machine
end

section
/-! The obligations of 20_memory.md: which bit a stream bit is, the host's accesses to memory, the region a command writes, and the
memory invariant. The last two go by cases on `Effect`: `MemorySound` has one lemma for each state operation, `keepsMemoryBut` one for
each kind of store. -/

namespace Sys2Proof.Machine

/-! ## The memory invariant and the operations that store nothing (R80, 70_reset_and_hazards.md R375) -/

@[simp] theorem State.finish_memorySound (s : State) (code : ReturnCode) (r0 r1 : Nat) (e : Bool) :
    (s.finish code r0 r1 e).MemorySound ↔ s.MemorySound := Iff.rfl

@[simp] theorem State.succeed_memorySound (s : State) (r0 r1 : Nat) : (s.succeed r0 r1).MemorySound ↔ s.MemorySound := Iff.rfl

@[simp] theorem State.fail_memorySound (s : State) (code : ReturnCode) (r1 : Nat) :
    (s.fail code r1).MemorySound ↔ s.MemorySound := Iff.rfl

@[simp] theorem State.illegal_memorySound (s : State) : s.illegal.MemorySound ↔ s.MemorySound := Iff.rfl

/-- A moved cursor leaves the buffer where it was. -/
@[simp] theorem State.setPos_memorySound (s : State) (c : CtxId) (p : Nat) : (s.setPos c p).MemorySound ↔ s.MemorySound := by
  cases c <;> exact Iff.rfl

theorem StaleMap.wf_nil : StaleMap.wf [] := ⟨List.Pairwise.nil, by simp⟩

/-- A context opened anew has no changed bits, so its new buffer covers them all. -/
theorem State.setOrigin_sound {s : State} (c : CtxId) (x : BitCtx) (h : s.MemorySound) : (s.setOrigin c x).MemorySound := by
  obtain ⟨hwf, hspace, hwf0, hcov0, hwf1, hcov1⟩ := h
  cases c with
  | bs0 => exact ⟨hwf, hspace, StaleMap.wf_nil, by simp [State.setOrigin], hwf1, hcov1⟩
  | bs1 => exact ⟨hwf, hspace, hwf0, hcov0, StaleMap.wf_nil, by simp [State.setOrigin]⟩

/-- Reset keeps memory and forgets the changed bits. -/
theorem State.resetBlock_sound {s : State} (w : Word) (h : s.MemorySound) : (s.resetBlock w).MemorySound := by
  obtain ⟨hwf, hspace, -⟩ := h
  exact ⟨hwf, hspace, StaleMap.wf_nil, by simp, StaleMap.wf_nil, by simp⟩

/-- A host write of a register other than `CMD` touches neither memory nor the contexts. -/
@[simp] theorem State.writeReg_memorySound (s : State) (off : Nat) (v : Word) : (s.writeReg off v).MemorySound ↔ s.MemorySound := by
  unfold State.writeReg
  split <;> exact Iff.rfl

/-! ## The memory invariant at every step (R80, R85) -/

/-- Every command keeps the memory invariant: what it stores lies in the address space, as its region check asked (R85). -/
theorem exec_keepsMemorySound {i : Instr} {s t : State} (h : exec i s = .next t) (hs : s.MemorySound) : t.MemorySound := by
  cases exec_effect h with
  | rejected | nop | peeked | moved => simpa using hs
  | reset => exact State.resetBlock_sound _ hs
  | opened c ord => exact State.setOrigin_sound c _ hs
  | decoded c ws used r1 _ _ _ _ _ _ hf => simpa using State.storeWords_sound _ ws hf hs
  | broken c ws code _ _ _ _ _ hf => simpa using State.storeWords_sound _ ws hf hs
  | transformed ch bt mix _ ws ovl _ hf => exact State.storeWords_sound _ ws hf hs
  | synthesized stereo fmt _ bs rings _ hf => exact State.storeBytes_sound _ bs hf hs
  | replaced lg _ ws _ hf => simpa using State.storeWords_sound _ ws hf hs

@[simp] theorem valueBytes_length (width : Width) (v : Word) : (valueBytes width v).length = width.bytes := by
  cases width <;> rfl

theorem hostAct_keepsMemorySound {act : HostAction} {s t : State} (h : hostAct act s = .next t) (hs : s.MemorySound) :
    t.MemorySound := by
  obtain ⟨w, i, -, -, hx⟩ | ⟨w, e, -, -, rfl⟩ | ⟨off, v, -, -, rfl⟩ | ⟨v, rfl⟩ | ⟨a, w, v, -, ha, rfl⟩ | ⟨-, rfl⟩ :=
    hostAct_cases h
  · exact exec_keepsMemorySound hx hs
  · exact (State.illegal_memorySound _).mpr hs
  · simpa using hs
  · exact hs
  · exact State.storeBytes_sound a _ (by simpa using ha) hs
  · exact State.resetBlock_sound _ hs

/-- Settles O55: an idle step changes nothing, and every host action, a command among them, keeps the invariant. -/
theorem memoryInvariantKept : Obligations.MemoryInvariantKept := by
  unfold Obligations.MemoryInvariantKept
  intro s t hs h
  rcases step_cases h with ⟨-, rfl⟩ | ⟨act, rest, -, ha⟩
  · exact hs
  · exact hostAct_keepsMemorySound ha hs

/-! ## The bits of a stream (R82) -/

/-- The sum of R82, most significant bit first: one more bit doubles the weight of all before it. -/
theorem takeMsb_eq_sum (bit : Nat → Bool) (p k : Nat) :
    takeMsb bit p k = ∑ i ∈ Finset.range k, (bit (p + i)).toNat * 2 ^ (k - 1 - i) := by
  induction k with
  | zero => rfl
  | succ k ih =>
    have hw : ∀ i ∈ Finset.range k, (bit (p + i)).toNat * 2 ^ (k + 1 - 1 - i) = 2 * ((bit (p + i)).toNat * 2 ^ (k - 1 - i)) := by
      intro i hi
      rw [Finset.mem_range] at hi
      rw [show k + 1 - 1 - i = k - 1 - i + 1 by omega, pow_succ]
      ring
    rw [takeMsb, ih, Finset.sum_range_succ, Finset.sum_congr rfl hw, Finset.mul_sum]
    simp

/-- The sum of R82, least significant bit first. -/
theorem takeLsb_eq_sum (bit : Nat → Bool) (p k : Nat) :
    takeLsb bit p k = ∑ i ∈ Finset.range k, (bit (p + i)).toNat * 2 ^ i := by
  induction k with
  | zero => rfl
  | succ k ih => rw [takeLsb, ih, Finset.sum_range_succ]

theorem State.take_of_msb {s : State} {c : CtxId} (h : (s.ctx c).ord = .msb) (p k : Nat) :
    s.take c p k = takeMsb (s.sbit c) p k := by
  rw [State.take, h]

theorem State.take_of_lsb {s : State} {c : CtxId} (h : (s.ctx c).ord = .lsb) (p k : Nat) :
    s.take c p k = takeLsb (s.sbit c) p k := by
  rw [State.take, h]

/-- Settles O20: `take` in each order is the recursion whose sum and splitting the lemmas above and `takeMsb_add`, `takeLsb_add` give. -/
theorem streamBitOrder : Obligations.StreamBitOrder := by
  unfold Obligations.StreamBitOrder
  refine ⟨fun s c j hs => ?_, fun s c p k ho => ?_, fun s c p k ho => ?_, fun s c p a b => ⟨fun ho => ?_, fun ho => ?_⟩⟩
  · rw [State.sbit_of_unchanged hs, bitInByte_eq]
  · rw [State.take_of_msb ho, takeMsb_eq_sum]
  · rw [State.take_of_lsb ho, takeLsb_eq_sum]
  · simp only [State.take_of_msb ho, takeMsb_add]
  · simp only [State.take_of_lsb ho, takeLsb_add]

/-! ## What a command may write (R84) -/

theorem keepsMemoryBut_of_mem_eq {s t : State} (h : t.mem = s.mem) (base len : Nat) : keepsMemoryBut s t base len :=
  fun a _ => State.readByte_congr h a

/-- Storing bytes changes none outside a region that holds them all, and what leaves memory alone afterwards changes none either. -/
theorem keepsMemoryBut_storeBytes {s t : State} {base len : Nat} {bs : List Byte} (hm : t.mem = (s.storeBytes base bs).mem)
    (hl : bs.length ≤ len) : keepsMemoryBut s t base len := by
  intro a ha
  rw [State.readByte_congr hm, State.readByte_storeBytes_outside _ _ _ _ (by omega)]

theorem keepsMemoryBut_storeWords {s t : State} {base len : Nat} {ws : List Word} (hm : t.mem = (s.storeWords base ws).mem)
    (hl : 4 * ws.length ≤ len) : keepsMemoryBut s t base len :=
  keepsMemoryBut_storeBytes hm (by rwa [flatMap_wordBytes_length])

/-- Settles O53: six effects leave memory alone, and the others store from the region's base no more bytes than it has. -/
theorem commandsWriteOnlyTheirRegion : Obligations.CommandsWriteOnlyTheirRegion := by
  unfold Obligations.CommandsWriteOnlyTheirRegion
  intro i s t h
  cases exec_effect h with
  | decoded c ws used r1 _ _ _ _ hr hl => exact hr ▸ keepsMemoryBut_storeWords (by simp) hl
  | broken c ws code _ _ _ hr hl => exact hr ▸ keepsMemoryBut_storeWords rfl hl
  | transformed ch bt mix hi ws ovl hl => exact hi ▸ keepsMemoryBut_storeWords rfl (by simp [writtenRegion, hl])
  | synthesized stereo fmt hi bs rings hl => exact hi ▸ keepsMemoryBut_storeBytes rfl hl.le
  | replaced lg hi ws hl => exact hi ▸ keepsMemoryBut_storeWords rfl (by simp [writtenRegion, hl])
  | _ => exact keepsMemoryBut_of_mem_eq (by simp) _ _

/-! ## Host accesses to memory (R81, R93) -/

/-- A byte of a value is its digit to base 256 (R81). -/
theorem valueBytes_get_toNat (width : Width) (v : Word) (k : Nat) (h : k < (valueBytes width v).length) :
    (valueBytes width v)[k].toNat = v.toNat / 2 ^ (8 * k) % 2 ^ 8 := by
  have hk : k < 4 := by
    rw [valueBytes_length] at h
    cases width <;> simp only [Width.bytes] at h <;> omega
  have hb : (valueBytes width v)[k] = v.extractLsb' (8 * k) 8 := by
    simp only [valueBytes, List.getElem_take]
    interval_cases k <;> rfl
  rw [hb, BitVec.extractLsb'_toNat, Nat.shiftRight_eq_div_pow]

/-- Two parts put together are the low part and the high part at its weight. -/
theorem toNat_append_eq_add {m n : Nat} (x : BitVec m) (y : BitVec n) : (x ++ y).toNat = y.toNat + x.toNat * 2 ^ n := by
  rw [BitVec.toNat_append, ← Nat.shiftLeft_add_eq_or_of_lt y.isLt, Nat.shiftLeft_eq, Nat.add_comm]

theorem State.readHalf_toNat (s : State) (a : Nat) :
    (s.readHalf a).toNat = (s.readByte a).toNat + (s.readByte (a + 1)).toNat * 2 ^ 8 := toNat_append_eq_add _ _

theorem State.readWord_toNat (s : State) (a : Nat) :
    (s.readWord a).toNat = (s.readByte a).toNat + (s.readByte (a + 1)).toNat * 2 ^ 8 + (s.readByte (a + 2)).toNat * 2 ^ 16
      + (s.readByte (a + 3)).toNat * 2 ^ 24 := by
  rw [State.readWord, toNat_append_eq_add, toNat_append_eq_add, toNat_append_eq_add]
  ring

/-- A value read is the sum of its bytes at their weights (R81); a byte or a halfword is zero-extended. -/
theorem State.readValue_toNat (s : State) (a : Nat) (width : Width) :
    (s.readValue a width).toNat = ∑ k ∈ Finset.range width.bytes, (s.readByte (a + k)).toNat * 2 ^ (8 * k) := by
  cases width with
  | byte =>
    rw [State.readValue, BitVec.toNat_setWidth_of_le (by decide)]
    simp [Width.bytes]
  | half =>
    rw [State.readValue, BitVec.toNat_setWidth_of_le (by decide), State.readHalf_toNat]
    simp [Width.bytes, Finset.sum_range_succ]
  | word => simp [State.readValue, Width.bytes, Finset.sum_range_succ, State.readWord_toNat]

theorem step_of_host {s : State} {act : HostAction} {rest : List HostAction} (h : s.host = act :: rest) :
    step s = hostAct act { s with host := rest } := by
  rw [step, h]

/-- A host access of `n` bytes at `a` lies in the address space and off the register block (R80, 93 U11). -/
def hostReaches (s : State) (a n : Nat) : Prop := a + n ≤ addressSpace ∧ touchesRegisters s a n = false

theorem hostMemWrite_of_reaches {s : State} {a : Nat} {width : Width} (h : hostReaches s a width.bytes) (v : Word) :
    hostMemWrite a width v s = .next (s.storeBytes a (valueBytes width v)) := by
  rw [hostMemWrite, if_neg (Nat.not_lt.mpr h.1), if_neg (by simp [h.2])]

theorem hostMemRead_of_reaches {s : State} {a : Nat} {width : Width} (h : hostReaches s a width.bytes) :
    hostMemRead a width s = .next { s with hostData := s.readValue a width } := by
  rw [hostMemRead, if_neg (Nat.not_lt.mpr h.1), if_neg (by simp [h.2])]

/-- A host access past the top of the address space faults, and one that touches the register block is refused. -/
theorem step_hostMem_stops {s : State} {rest : List HostAction} {a : Nat} {width : Width} {v : Word}
    (h : s.host = .memWrite a width v :: rest ∨ s.host = .memRead a width :: rest) :
    (addressSpace < a + width.bytes → step s = .fault .outsideAddressSpace)
      ∧ (a + width.bytes ≤ addressSpace → touchesRegisters s a width.bytes = true → step s = .refused .memoryActionOnRegisters) := by
  constructor
  · intro hf
    rcases h with h | h
    · rw [step_of_host h, hostAct, hostMemWrite, if_pos hf]
    · rw [step_of_host h, hostAct, hostMemRead, if_pos hf]
  · intro hf ht
    rcases h with h | h
    · rw [step_of_host h, hostAct, hostMemWrite, if_neg (Nat.not_lt.mpr hf)]
      exact if_pos ht
    · rw [step_of_host h, hostAct, hostMemRead, if_neg (Nat.not_lt.mpr hf)]
      exact if_pos ht

/-- Settles O9: a write that reaches memory is `storeBytes` of the value's bytes, a read is `readValue`, any other access stops. -/
theorem hostMemoryAccess : Obligations.HostMemoryAccess := by
  unfold Obligations.HostMemoryAccess
  refine ⟨⟨rfl, rfl, rfl⟩, ?_, ?_, fun s rest a width v hh => step_hostMem_stops hh⟩
  · intro s rest a width v hh hf ht
    have hr : hostReaches { s with host := rest } a width.bytes := ⟨hf, ht⟩
    refine ⟨_, (step_of_host hh).trans (hostMemWrite_of_reaches hr v), fun k hk => ?_, ?_, ?_⟩
    · rw [← valueBytes_length width v] at hk
      rw [State.readByte_storeBytes_inside _ _ _ _ hk, valueBytes_get_toNat]
    · intro x hx
      exact State.readByte_storeBytes_outside _ _ _ _ (by rwa [valueBytes_length])
    · simp [keepsOperands, keepsContexts, keepsDsp]
  · intro s rest a width hh hf ht
    have hr : hostReaches { s with host := rest } a width.bytes := ⟨hf, ht⟩
    exact ⟨_, (step_of_host hh).trans (hostMemRead_of_reaches hr), State.readValue_toNat _ a width⟩

end Sys2Proof.Machine
end

section
/-! The obligations of 30_encoding.md. A word is a pair of an opcode and the 24 bits below it: a row of the map selects the words with
its opcode whose low bits fit in its fields (`OpName.Selects`), and a command's word is its opcode with the sum of its
fields (`Instr.low`). Decoding and encoding are then one equivalence, `decode_eq_ok_iff`. -/

namespace Sys2Proof

open Machine

/-! ## The rows of the opcode map as numbers (R120, R121, R123) -/

/-- Bits 31:24 of the words of a row (R123). -/
def OpName.opc : OpName → Nat
  | .sysNop => 0x00
  | .sysReset => 0x01
  | .bsrInit => 0x10
  | .bsrPeek => 0x11
  | .bsrGet => 0x12
  | .bsrSkip => 0x13
  | .bsrSkipr => 0x14
  | .hufPairs => 0x20
  | .hufQuads => 0x21
  | .imdctRun => 0x30
  | .synRun => 0x40
  | .vmdctRun => 0x50

/-- The word has the row's opcode and no reserved bit of its format (R121). -/
def OpName.Selects (op : OpName) (w : Word) : Prop :=
  w.toNat / 2 ^ 24 = op.opc ∧ w.toNat % 2 ^ 24 < 2 ^ op.fieldBits

theorem OpRow.selects_iff_op {r : OpRow} (hr : r ∈ opcodeMap) (w : Word) : r.selects w = true ↔ r.op.Selects w := by
  have key : ∀ r ∈ opcodeMap, r.fixed.toNat = r.op.opc * 2 ^ 24 := by decide
  rw [OpRow.selects_iff r hr, key r hr, OpName.Selects]
  cases r.op <;> simp only [OpName.opc, OpName.fieldBits] <;> omega

theorem OpName.exists_row (op : OpName) : ∃ r ∈ opcodeMap, r.op = op := by
  cases op <;> decide

theorem OpName.eq_of_opc_eq {op op' : OpName} (h : op.opc = op'.opc) : op = op' := by
  revert h
  cases op <;> cases op' <;> decide

theorem OpName.Selects.unique {op op' : OpName} {w : Word} (h : op.Selects w) (h' : op'.Selects w) : op = op' :=
  OpName.eq_of_opc_eq (h.1.symm.trans h'.1)

/-- Settles O4: a row selects words of its own opcode only, and no two rows share one. -/
theorem opcodeRowsDisjoint : Obligations.OpcodeRowsDisjoint := by
  unfold Obligations.OpcodeRowsDisjoint
  intro w r q hr hq hrw hqw
  have key : ∀ r ∈ opcodeMap, ∀ q ∈ opcodeMap, r.op = q.op → r = q := by decide
  rw [OpRow.selects_iff_op hr] at hrw
  rw [OpRow.selects_iff_op hq] at hqw
  exact key r hr q hq (hrw.unique hqw)

theorem opRow_eq_some_iff {w : Word} {r : OpRow} : opRow w = some r ↔ r ∈ opcodeMap ∧ r.selects w = true := by
  constructor
  · intro h
    exact ⟨List.mem_of_find?_eq_some h, by simpa using List.find?_some h⟩
  · rintro ⟨hr, hs⟩
    cases hq : opRow w with
    | none => exact absurd hs (List.find?_eq_none.mp hq r hr)
    | some q =>
      have hqs : q.selects w = true := by simpa using List.find?_some hq
      rw [opcodeRowsDisjoint w q r (List.mem_of_find?_eq_some hq) hr hqs hs]

/-! ## The fields of a word as numbers (R122) -/

theorem bit_eq_toNat (w : Word) (k : Nat) : w.toNat / 2 ^ k % 2 = (w.getLsbD k).toNat :=
  (Nat.toNat_testBit w.toNat k).symm

theorem bit_zero_eq_toNat (w : Word) : w.toNat % 2 = (w.getLsbD 0).toNat := by
  rw [← bit_eq_toNat, Nat.pow_zero, Nat.div_one]

theorem bit_one_eq_toNat (w : Word) : w.toNat / 2 % 2 = (w.getLsbD 1).toNat := bit_eq_toNat w 1

theorem fieldC_eq_iff (w : Word) (c : CtxId) : fieldC w = c ↔ w.toNat % 2 = c.word.toNat := by
  rw [fieldC, bit_zero_eq_toNat]
  cases w.getLsbD 0 <;> cases c <;> decide

theorem fieldOrd_eq_iff (w : Word) (o : BitOrder) : fieldOrd w = o ↔ w.toNat / 2 % 2 = o.word.toNat := by
  rw [fieldOrd, bit_one_eq_toNat]
  cases w.getLsbD 1 <;> cases o <;> decide

theorem fieldFmt_eq_iff (w : Word) (f : PcmFormat) : fieldFmt w = f ↔ w.toNat / 2 % 2 = f.word.toNat := by
  rw [fieldFmt, bit_one_eq_toNat]
  cases w.getLsbD 1 <;> cases f <;> decide

theorem fieldCh_eq_iff (w : Word) (ch : Channel) : fieldCh w = ch ↔ w.toNat % 2 = ch.val := by
  rw [fieldCh, bit_zero_eq_toNat]
  revert ch
  cases w.getLsbD 0 <;> decide

/-- `BT` is two bits, the upper one at weight 2. -/
theorem fieldBt_eq_iff (w : Word) (bt : WindowClass) : fieldBt w = bt ↔ w.toNat / 2 % 4 = bt.word.toNat := by
  have h : w.toNat / 2 % 4 = (w.getLsbD 1).toNat + 2 * (w.getLsbD 2).toNat := by
    rw [← bit_eq_toNat, ← bit_eq_toNat]
    omega
  rw [fieldBt, h]
  cases w.getLsbD 1 <;> cases w.getLsbD 2 <;> cases bt <;> decide

theorem fieldMix_eq_iff (w : Word) (mix : Bool) : fieldMix w = mix ↔ w.toNat / 8 % 2 = mix.toNat := by
  rw [fieldMix, show w.toNat / 8 % 2 = (w.getLsbD 3).toNat from bit_eq_toNat w 3]
  cases w.getLsbD 3 <;> cases mix <;> decide

theorem fieldSt_eq_iff (w : Word) (st : Bool) : fieldSt w = st ↔ w.toNat % 2 = st.toNat := by
  rw [fieldSt, bit_zero_eq_toNat]
  cases w.getLsbD 0 <;> cases st <;> decide

theorem fieldN_toNat (w : Word) : (fieldN w).toNat = w.toNat / 2 % 64 := by
  rw [fieldN, BitVec.extractLsb'_toNat, Nat.shiftRight_eq_div_pow]

theorem fieldTab_toNat (w : Word) : (fieldTab w).toNat = w.toNat / 2 % 32 := by
  rw [fieldTab, BitVec.extractLsb'_toNat, Nat.shiftRight_eq_div_pow]

theorem fieldNv_toNat (w : Word) : (fieldNv w).toNat = w.toNat / 64 % 1024 := by
  rw [fieldNv, BitVec.extractLsb'_toNat, Nat.shiftRight_eq_div_pow]

theorem fieldLg_toNat (w : Word) : (fieldLg w).toNat = w.toNat % 16 := by
  rw [fieldLg, BitVec.extractLsb'_toNat, Nat.shiftRight_eq_div_pow, Nat.pow_zero, Nat.div_one]

/-! ## The word of a command as a number (R127) -/

/-- The sum of a command's fields at their weights, bits 23:0 of its word (R122, R127). -/
def Instr.low : Instr → Nat
  | .sysNop => 0
  | .sysReset => 0
  | .bsrInit c ord => c.word.toNat + 2 * ord.word.toNat
  | .bsrPeek c n => c.word.toNat + 2 * n.toNat
  | .bsrGet c n => c.word.toNat + 2 * n.toNat
  | .bsrSkip c n => c.word.toNat + 2 * n.toNat
  | .bsrSkipr c => c.word.toNat
  | .hufPairs c tab nv => c.word.toNat + 2 * tab.toNat + 64 * nv.toNat
  | .hufQuads c tab nv => c.word.toNat + 2 * tab.toNat + 64 * nv.toNat
  | .imdctRun ch bt mix => ch.val + 2 * bt.word.toNat + 8 * mix.toNat
  | .synRun st fmt => st.toNat + 2 * fmt.word.toNat
  | .vmdctRun lg => lg.toNat

theorem encode_toNat (i : Instr) : (encode i).toNat = i.opName.opc * 2 ^ 24 + i.low := by
  cases i <;> simp only [encode, Instr.opName, OpName.opc, Instr.low]
  case sysNop | sysReset => rfl
  case bsrInit c ord => cases c <;> cases ord <;> rfl
  case bsrPeek c n | bsrGet c n | bsrSkip c n =>
    rw [toNat_formatB _ _ _ (by decide), BitVec.toNat_ofNat]
    omega
  case bsrSkipr c => cases c <;> rfl
  case hufPairs c tab nv | hufQuads c tab nv =>
    rw [toNat_formatH _ _ _ _ (by decide), BitVec.toNat_ofNat]
    omega
  case imdctRun ch bt mix =>
    revert ch
    cases bt <;> cases mix <;> decide
  case synRun st fmt => cases st <;> cases fmt <;> rfl
  case vmdctRun lg =>
    rw [toNat_formatV _ _ (by decide), BitVec.toNat_ofNat]
    omega

theorem Instr.low_lt (i : Instr) : i.low < 2 ^ i.opName.fieldBits := by
  cases i <;> simp only [low, opName, OpName.fieldBits]
  case sysNop | sysReset => decide
  case bsrInit c ord =>
    have := c.toNat_word
    have := ord.toNat_word
    omega
  case bsrPeek c n | bsrGet c n | bsrSkip c n =>
    have := c.toNat_word
    omega
  case bsrSkipr c => exact c.toNat_word
  case hufPairs c tab nv | hufQuads c tab nv =>
    have := c.toNat_word
    omega
  case imdctRun ch bt mix =>
    have := bt.toNat_word
    have := mix.toNat_lt
    omega
  case synRun st fmt =>
    have := st.toNat_lt
    have := fmt.toNat_word
    omega
  case vmdctRun lg => exact lg.isLt

@[simp] theorem OpName.opName_instr (op : OpName) (w : Word) : (op.instr w).opName = op := by
  cases op <;> rfl

/-- A word's fields read as a command are that command's exactly when the field bits hold the sum of its fields. -/
theorem instr_eq_iff (i : Instr) (w : Word) : i.opName.instr w = i ↔ w.toNat % 2 ^ i.opName.fieldBits = i.low := by
  cases i <;> simp only [Instr.opName, OpName.instr, OpName.fieldBits, Instr.low]
  case sysNop | sysReset => simp [Nat.mod_one]
  case bsrInit c ord =>
    have := c.toNat_word
    simp only [Instr.bsrInit.injEq, fieldC_eq_iff, fieldOrd_eq_iff]
    omega
  case bsrPeek c n | bsrGet c n | bsrSkip c n =>
    have := c.toNat_word
    simp only [Instr.bsrPeek.injEq, Instr.bsrGet.injEq, Instr.bsrSkip.injEq, fieldC_eq_iff, ← BitVec.toNat_inj, fieldN_toNat]
    omega
  case bsrSkipr c => simp only [Instr.bsrSkipr.injEq, fieldC_eq_iff, Nat.pow_one]
  case hufPairs c tab nv | hufQuads c tab nv =>
    have := c.toNat_word
    simp only [Instr.hufPairs.injEq, Instr.hufQuads.injEq, fieldC_eq_iff, ← BitVec.toNat_inj, fieldTab_toNat, fieldNv_toNat]
    omega
  case imdctRun ch bt mix =>
    have := bt.toNat_word
    simp only [Instr.imdctRun.injEq, fieldCh_eq_iff, fieldBt_eq_iff, fieldMix_eq_iff]
    omega
  case synRun st fmt =>
    have := st.toNat_lt
    simp only [Instr.synRun.injEq, fieldSt_eq_iff, fieldFmt_eq_iff]
    omega
  case vmdctRun lg =>
    simp only [Instr.vmdctRun.injEq, ← BitVec.toNat_inj, fieldLg_toNat]
    omega

/-- A word is a command's word exactly when the command's row selects it and its fields are the command's. -/
theorem encode_eq_iff (i : Instr) (w : Word) : encode i = w ↔ i.opName.Selects w ∧ i.opName.instr w = i := by
  have hl := i.low_lt
  rw [instr_eq_iff, ← BitVec.toNat_inj, encode_toNat, OpName.Selects]
  generalize i.opName = op at hl ⊢
  cases op <;> simp only [OpName.opc, OpName.fieldBits] at hl ⊢ <;> omega

/-! ## Decoding and encoding are one relation (R129) -/

theorem decode_eq_ok_iff_row {w : Word} {i : Instr} :
    decode w = .ok i ↔ i.WellFormed ∧ ∃ r, opRow w = some r ∧ r.op.instr w = i := by
  rw [decode]
  cases opRow w with
  | none =>
    simp only [reduceCtorEq, false_and, exists_false, and_false, iff_false]
    split <;> simp
  | some r =>
    simp only [Option.some.injEq, exists_eq_left']
    by_cases hw : (r.op.instr w).wellFormed = true
    · rw [if_pos hw, Except.ok.injEq]
      exact ⟨fun h => ⟨h ▸ hw, h⟩, And.right⟩
    · simp only [if_neg hw, reduceCtorEq, false_iff]
      rintro ⟨hi, rfl⟩
      exact hw hi

theorem exists_opRow_iff {w : Word} {i : Instr} : (∃ r, opRow w = some r ∧ r.op.instr w = i) ↔ encode i = w := by
  simp only [encode_eq_iff, opRow_eq_some_iff]
  constructor
  · rintro ⟨r, ⟨hr, hs⟩, rfl⟩
    rw [OpName.opName_instr]
    exact ⟨(OpRow.selects_iff_op hr w).mp hs, rfl⟩
  · rintro ⟨hs, hi⟩
    obtain ⟨r, hr, ho⟩ := i.opName.exists_row
    exact ⟨r, ⟨hr, (OpRow.selects_iff_op hr w).mpr (ho ▸ hs)⟩, ho ▸ hi⟩

/-- A word decodes to a command exactly when the command is well formed and the word is its word. -/
theorem decode_eq_ok_iff {w : Word} {i : Instr} : decode w = .ok i ↔ i.WellFormed ∧ encode i = w := by
  rw [decode_eq_ok_iff_row, exists_opRow_iff]

/-- Settles O2: `decode_eq_ok_iff` at the command's own word. -/
theorem decodeOfEncode : Obligations.DecodeOfEncode := by
  unfold Obligations.DecodeOfEncode
  exact fun i hi => decode_eq_ok_iff.mpr ⟨hi, rfl⟩

/-- Settles O3: the other direction of `decode_eq_ok_iff`. -/
theorem encodeOfDecode : Obligations.EncodeOfDecode := by
  unfold Obligations.EncodeOfDecode
  exact fun w i hd => decode_eq_ok_iff.mp hd

/-! ## Illegal words (R124) -/

theorem exists_decode_error_iff {w : Word} :
    (∃ e, decode w = .error e) ↔ ∀ op : OpName, op.Selects w → ¬ (op.instr w).WellFormed := by
  constructor
  · rintro ⟨e, he⟩ op hs hw
    have hd : decode w = .ok (op.instr w) := decode_eq_ok_iff.mpr ⟨hw, (encode_eq_iff _ w).mpr (by simpa using hs)⟩
    rw [he] at hd
    cases hd
  · intro h
    cases hd : decode w with
    | error e => exact ⟨e, rfl⟩
    | ok i =>
      obtain ⟨hw, he⟩ := decode_eq_ok_iff.mp hd
      obtain ⟨hs, hi⟩ := (encode_eq_iff i w).mp he
      exact absurd (by rwa [hi]) (h _ hs)

/-- Under a row's opcode R124 on numbers says: a reserved bit is set, or the fields are not legal. -/
theorem illegalNumber_iff_of_opc {op : OpName} {w : Word} (h : w.toNat / 2 ^ 24 = op.opc) :
    illegalNumber w.toNat ↔ 2 ^ op.fieldBits ≤ w.toNat % 2 ^ 24 ∨ ¬ (op.instr w).WellFormed := by
  unfold illegalNumber
  rw [h]
  cases op <;> simp only [OpName.opc, OpName.fieldBits, OpName.instr, Instr.WellFormed, Instr.wellFormed, not_true, or_false]
  case sysNop | sysReset => omega
  case bsrPeek | bsrGet | bsrSkip =>
    simp only [legalCount, decide_eq_true_iff, fieldN_toNat]
    omega
  case hufPairs =>
    simp only [legalPairCount, decide_eq_true_iff, fieldNv_toNat]
    omega
  case hufQuads =>
    simp only [legalQuadTable, legalQuadRoom, Bool.and_eq_true, decide_eq_true_iff, fieldTab_toNat, fieldNv_toNat]
    omega
  case imdctRun =>
    simp only [legalMix, Bool.or_eq_true, Bool.not_eq_true', decide_eq_true_iff, fieldMix_eq_iff, fieldBt_eq_iff,
      Bool.toNat_false, WindowClass.word, BitVec.toNat_ofNat]
    omega
  case vmdctRun =>
    simp only [legalLog, decide_eq_true_iff, fieldLg_toNat]
    omega

/-- A number that R124 does not call illegal has the opcode of a row. -/
theorem exists_opc_of_not_illegalNumber {n : Nat} (h : ¬ illegalNumber n) : ∃ op : OpName, n / 2 ^ 24 = op.opc := by
  unfold illegalNumber at h
  split at h
  exacts [⟨.sysNop, ‹_›⟩, ⟨.sysReset, ‹_›⟩, ⟨.bsrInit, ‹_›⟩, ⟨.bsrPeek, ‹_›⟩, ⟨.bsrGet, ‹_›⟩, ⟨.bsrSkip, ‹_›⟩, ⟨.bsrSkipr, ‹_›⟩,
    ⟨.hufPairs, ‹_›⟩, ⟨.hufQuads, ‹_›⟩, ⟨.imdctRun, ‹_›⟩, ⟨.synRun, ‹_›⟩, ⟨.vmdctRun, ‹_›⟩, absurd trivial h]

theorem exists_decode_error_iff_illegalNumber (w : Word) : (∃ e, decode w = .error e) ↔ illegalNumber w.toNat := by
  rw [exists_decode_error_iff]
  constructor
  · intro h
    by_contra hn
    obtain ⟨op, ho⟩ := exists_opc_of_not_illegalNumber hn
    rw [illegalNumber_iff_of_opc ho, not_or, not_le, not_not] at hn
    exact h op ⟨ho, hn.1⟩ hn.2
  · intro hn op hs
    exact ((illegalNumber_iff_of_opc hs.1).mp hn).resolve_left (not_le.mpr hs.2)

theorem runCommand_of_illegal {w : Word} (hn : illegalNumber w.toNat) (s : State) :
    runCommand w s = .next { s with cmd := w, draws := s.draws + 1 }.illegal := by
  obtain ⟨e, he⟩ := (exists_decode_error_iff_illegalNumber w).mpr hn
  simp [runCommand, he]

/-- Settles O5: `decode` fails exactly on the words R124 calls illegal, and such a word ends in `State.illegal`. -/
theorem illegalWordsExactly : Obligations.IllegalWordsExactly := by
  unfold Obligations.IllegalWordsExactly
  refine ⟨exists_decode_error_iff_illegalNumber, fun s rest w hh hn => ?_⟩
  have hk : estkyAfter s.estky .errIllegalCmd = true := Bool.or_true _
  rw [step_cmdWrite hh, runCommand_of_illegal hn, State.illegal, State.fail, State.finish, hk]
  rfl

/-- Settles O1: R130's words are finitely many closed terms, each evaluated. -/
theorem workedEncodings : Obligations.WorkedEncodings := by
  unfold Obligations.WorkedEncodings
  decide

end Sys2Proof
end

section
/-! The obligations of 40_bitreader.md. A command that consumes bits is `advance`, and `advance` has one equation for each of its three
outcomes; the cursor invariant rests on `BitCtx.Sound.advance`, a sound cursor moved by some of the bits available; the composition
law is about the states that runs of `BSR.GET` reach, written out by `step_bsrGet`. -/

namespace Sys2Proof.Machine

/-! ## What each command does (R160 to R165) -/

section
variable {c : CtxId} {s : State}

theorem advance_of_not_valid (hv : (s.ctx c).valid = false) (n r0 : Nat) : advance c n r0 s = s.fail .errOperand 0 := by
  simp [advance, hv]

theorem advance_of_le_avail (hv : (s.ctx c).valid = true) {n : Nat} (hn : n ≤ (s.ctx c).avail) (r0 : Nat) :
    advance c n r0 s = (s.setPos c ((s.ctx c).pos.toNat + n)).succeed r0 n := by
  simp [advance, hv, Nat.not_lt.mpr hn]

theorem advance_of_avail_lt (hv : (s.ctx c).valid = true) {n : Nat} (hn : (s.ctx c).avail < n) (r0 : Nat) :
    advance c n r0 s = s.fail .needMoreData (s.ctx c).avail := by
  simp [advance, hv, hn]

theorem execBsrPeek_of_not_valid (hv : (s.ctx c).valid = false) (n : BitVec 6) :
    execBsrPeek c n s = .next (s.fail .errOperand 0) := by
  simp [execBsrPeek, hv]

/-- `BSR.PEEK` on a valid context, with the value it returns (R162). -/
theorem execBsrPeek_of_valid (hv : (s.ctx c).valid = true) (n : BitVec 6) :
    execBsrPeek c n s = .next (s.finish .none
      (peekValue (s.ctx c).ord (s.take c (s.ctx c).pos.toNat (min n.toNat (s.ctx c).avail)) n.toNat (min n.toNat (s.ctx c).avail))
      (min n.toNat (s.ctx c).avail) (eobAfterPeek (min n.toNat (s.ctx c).avail) n.toNat)) := by
  simp [execBsrPeek, hv]

theorem huffmanError_of_not_valid (hv : (s.ctx c).valid = false) (nv : Nat) (present : Bool) :
    huffmanError c nv present s = some (.errOperand, 0) := by
  simp [huffmanError, hv]

theorem execBsrInit_of_initError_eq_some (ord : BitOrder) {code : ReturnCode} (h : initError s = some code) :
    execBsrInit c ord s = .next (s.fail code 0) := by
  simp [execBsrInit, h]

theorem execBsrInit_of_initError_eq_none (ord : BitOrder) (h : initError s = none) :
    execBsrInit c ord s = .next ((s.setOrigin c ⟨true, ord, s.a0, s.a1, 0#32⟩).succeed 0 (8 * s.a1.toNat)) := by
  simp [execBsrInit, h]

end

/-! ## The cursor invariant (R167) -/

theorem State.cursorsSound_iff {s : State} : s.CursorsSound ↔ ∀ d, (s.ctx d).Sound :=
  ⟨fun h d => by cases d; exacts [h.1, h.2], fun h => ⟨h .bs0, h .bs1⟩⟩

@[simp] theorem State.resetBlock_ctx (s : State) (w : Word) (d : CtxId) : (s.resetBlock w).ctx d = BitCtx.reset := by
  cases d <;> rfl

/-- A host write of a register other than `CMD` touches no context. -/
@[simp] theorem State.writeReg_cursorsSound (s : State) (off : Nat) (v : Word) :
    (s.writeReg off v).CursorsSound ↔ s.CursorsSound := by
  unfold State.writeReg
  split <;> exact Iff.rfl

/-- The position reached by some of the bits available is in the buffer, and a register holds it: 8 * `LENMAX` is below 2^32. -/
theorem BitCtx.Sound.toNat_advance {x : BitCtx} (hx : x.Sound) {n : Nat} (hn : n ≤ x.avail) :
    (BitVec.ofNat 32 (x.pos.toNat + n)).toNat = x.pos.toNat + n ∧ x.pos.toNat + n ≤ 8 * x.len.toNat := by
  obtain ⟨hlen, hpos, -, -⟩ := hx
  have hsum : x.pos.toNat + n ≤ 8 * x.len.toNat := by unfold BitCtx.avail at hn; omega
  exact ⟨by rw [BitVec.toNat_ofNat, Nat.mod_eq_of_lt (by simp only [lenMax] at hlen; omega)], hsum⟩

/-- A sound cursor stays sound when it moves by some of the bits available; a context that is not valid has none, so it stays as reset
left it. -/
theorem BitCtx.Sound.advance {x : BitCtx} (hx : x.Sound) {n : Nat} (hn : n ≤ x.avail) :
    BitCtx.Sound { x with pos := BitVec.ofNat 32 (x.pos.toNat + n) } := by
  obtain ⟨hp, hle⟩ := hx.toNat_advance hn
  obtain ⟨hlen, -, hfit, hreset⟩ := hx
  refine ⟨hlen, hp.trans_le hle, hfit, fun hv => ?_⟩
  obtain rfl := hreset hv
  obtain rfl := Nat.le_zero.mp hn
  rfl

/-- A buffer that `BSR.INIT` opens starts at its first bit, as long and as low in memory as the invariant asks (R161). -/
theorem execBsrInit_keepsSound {c : CtxId} {ord : BitOrder} {s t : State} (h : execBsrInit c ord s = .next t)
    (hs : (s.ctx c).Sound) : (t.ctx c).Sound := by
  cases he : initError s with
  | some code =>
    rw [execBsrInit_of_initError_eq_some ord he] at h
    cases h
    simpa using hs
  | none =>
    rw [execBsrInit_of_initError_eq_none ord he] at h
    cases h
    obtain ⟨hlen, hfit⟩ := initError_none he
    rw [State.succeed_ctx, State.setOrigin_ctx_same]
    exact ⟨hlen, Nat.zero_le _, hfit, fun hv => by cases hv⟩

/-- Every command keeps the cursor invariant of each context: it resets the context, opens it, leaves it, or moves its cursor by some of
the bits available. -/
theorem exec_keepsSound {i : Instr} {s t : State} {d : CtxId} (h : exec i s = .next t) (hs : (s.ctx d).Sound) :
    (t.ctx d).Sound := by
  by_cases hr : i = .sysReset
  · subst hr
    cases h
    simpa using BitCtx.reset_sound
  by_cases ho : ∃ ord, i = .bsrInit d ord
  · obtain ⟨ord, rfl⟩ := ho
    exact execBsrInit_keepsSound h hs
  rcases exec_ctx_of_not_opened h hr (not_exists.mp ho) with hk | ⟨-, n, hn, hk⟩
  · rwa [hk]
  · rw [hk]
    exact hs.advance hn

theorem hostAct_keepsCursorsSound {act : HostAction} {s t : State} (h : hostAct act s = .next t) (hs : s.CursorsSound) :
    t.CursorsSound := by
  obtain ⟨w, i, -, -, hx⟩ | ⟨w, e, -, -, rfl⟩ | ⟨off, v, -, -, rfl⟩ | ⟨v, rfl⟩ | ⟨a, w, v, -, -, rfl⟩ | ⟨-, rfl⟩ :=
    hostAct_cases h
  · have hs' : State.CursorsSound { s with cmd := w, draws := s.draws + 1 } := hs
    exact State.cursorsSound_iff.mpr fun d => exec_keepsSound hx (State.cursorsSound_iff.mp hs' d)
  · exact hs
  · simpa using hs
  · exact hs
  · simpa [State.CursorsSound] using hs
  · exact ⟨BitCtx.reset_sound, BitCtx.reset_sound⟩

/-- Settles O54: the reset contexts are sound, an idle step changes nothing, and every host action keeps the invariant. -/
theorem cursorInvariantKept : Obligations.CursorInvariantKept := by
  unfold Obligations.CursorInvariantKept
  refine ⟨fun acts m cfg => ⟨BitCtx.reset_sound, BitCtx.reset_sound⟩, fun s t hs h => ?_⟩
  rcases step_cases h with ⟨-, rfl⟩ | ⟨act, rest, -, ha⟩
  · exact hs
  · exact hostAct_keepsCursorsSound ha hs

/-! ## `BSR.PEEK` (R162) -/

/-- A success, as an update of the state: `ESTKY` stays (60_exceptions.md R334). -/
theorem State.finish_none_eq (s : State) (r0 r1 : Nat) (e : Bool) :
    s.finish .none r0 r1 e = { s with rc := 0#32, r0 := BitVec.ofNat 32 r0, r1 := BitVec.ofNat 32 r1, eob := e } := by
  rw [State.finish, estkyAfter_none]
  rfl

/-- The bits found and the zero bits after them fit in the bits asked for. -/
theorem peekValue_lt (ord : BitOrder) {v asked k : Nat} (hv : v < 2 ^ k) (hk : k ≤ asked) : peekValue ord v asked k < 2 ^ asked := by
  cases ord with
  | msb =>
    calc v * 2 ^ (asked - k)
      _ < 2 ^ k * 2 ^ (asked - k) := Nat.mul_lt_mul_of_pos_right hv (by positivity)
      _ = 2 ^ asked := by rw [← pow_add, Nat.add_sub_cancel' hk]
  | lsb => exact hv.trans_le (Nat.pow_le_pow_right (by decide) hk)

theorem toNat_ofNat_of_lt_two_pow {v n : Nat} (hv : v < 2 ^ n) (hn : n ≤ 32) : (BitVec.ofNat 32 v).toNat = v := by
  rw [BitVec.toNat_ofNat, Nat.mod_eq_of_lt (hv.trans_le (Nat.pow_le_pow_right (by decide) hn))]

/-- Settles O16: the value is `peekValue` of the bits there are, and ending with success writes the rest of what R162 lists. -/
theorem bsrPeekResult : Obligations.BsrPeekResult := by
  unfold Obligations.BsrPeekResult
  intro c n s hn hv k v
  have hlt : peekValue (s.ctx c).ord v n.toNat k < 2 ^ n.toNat := peekValue_lt _ (s.take_lt c _ k) (Nat.min_le_left _ _)
  have hr0 := toNat_ofNat_of_lt_two_pow hlt hn
  refine ⟨_, execBsrPeek_of_valid hv n, fun ho => ?_, fun ho => ?_, hr0.trans_lt hlt, State.finish_none_eq s _ _ _⟩
  · exact hr0.trans (by rw [ho]; rfl)
  · exact hr0.trans (by rw [ho]; rfl)

/-! ## `BSR.GET`, `BSR.SKIP` and `BSR.SKIPR` (R163 to R165) -/

/-- What a command that advances a valid, sound context by `n` bits does: the whole effect with enough bits, and with fewer. -/
theorem exec_advance_result {i : Instr} {c : CtxId} {n r0 : Nat} {s : State} (hi : exec i s = .next (advance c n r0 s))
    (hv : (s.ctx c).valid = true) (hs : (s.ctx c).Sound) (hr : r0 < 2 ^ 32) :
    (n ≤ (s.ctx c).avail → ∃ t, exec i s = .next t
        ∧ reports s t r0 n
        ∧ t.ctx c = { s.ctx c with pos := (t.ctx c).pos } ∧ (t.ctx c).pos.toNat = (s.ctx c).pos.toNat + n
        ∧ (∀ d, d ≠ c → t.ctx d = s.ctx d)
        ∧ t.mem = s.mem ∧ t.stale0 = s.stale0 ∧ t.stale1 = s.stale1
        ∧ keepsOperands s t ∧ keepsDsp s t ∧ keepsOutside s t)
      ∧ ((s.ctx c).avail < n → exec i s = .next (s.fail .needMoreData (s.ctx c).avail)) := by
  refine ⟨fun hn => ?_, fun hn => by rw [hi, advance_of_avail_lt hv hn]⟩
  rw [advance_of_le_avail hv hn] at hi
  obtain ⟨hp, hle⟩ := hs.toNat_advance hn
  obtain ⟨hlen, -⟩ := hs
  have hn32 : n < 2 ^ 32 := by simp only [lenMax] at hlen; omega
  refine ⟨_, hi, ?_, ?_, ?_, fun d hd => ?_, ?_⟩
  · exact ⟨rfl, Nat.mod_eq_of_lt hr, Nat.mod_eq_of_lt hn32, rfl, by simp [State.succeed]⟩
  · simp
  · simpa using hp
  · simp [State.setPos_ctx_other _ _ _ _ hd]
  · simp [keepsOperands, keepsDsp, keepsOutside]

/-- Settles O17: `BSR.GET` advances by `N` and answers the `N` bits, which fit in `R0`. -/
theorem bsrGetResult : Obligations.BsrGetResult := by
  unfold Obligations.BsrGetResult
  intro c n s hn hv hs
  exact exec_advance_result rfl hv hs ((s.take_lt c _ _).trans_le (Nat.pow_le_pow_right (by decide) hn))

/-- Settles O18: `BSR.SKIP` advances by `N` and answers 0. -/
theorem bsrSkipResult : Obligations.BsrSkipResult := by
  unfold Obligations.BsrSkipResult
  intro c n s _ hv hs
  exact exec_advance_result rfl hv hs (by decide)

/-- Settles O19: `BSR.SKIPR` advances by all 32 bits of `A1` and answers 0. -/
theorem bsrSkiprResult : Obligations.BsrSkiprResult := by
  unfold Obligations.BsrSkiprResult
  intro c s hv hs
  exact exec_advance_result rfl hv hs (by decide)

/-! ## A context that is not valid (R160) -/

/-- Settles O14: each of the six commands fails with `ERR_OPERAND` before it looks at anything but `VALID`. -/
theorem invalidContextRejected : Obligations.InvalidContextRejected := by
  unfold Obligations.InvalidContextRejected
  intro c n tab nv s hv i hi
  have hf : s.fail .errOperand 0 = { s with rc := 0xFFFFFFFB#32, r0 := 0#32, r1 := 0#32, eob := false, estky := true } := by
    rw [State.fail, State.finish, estkyAfter_failure _ .errOperand rfl]
    rfl
  rw [← hf]
  simp only [List.mem_cons, List.not_mem_nil, or_false] at hi
  rcases hi with rfl | rfl | rfl | rfl | rfl | rfl
  · exact execBsrPeek_of_not_valid hv n
  · exact congrArg _ (advance_of_not_valid hv _ _)
  · exact congrArg _ (advance_of_not_valid hv _ _)
  · exact congrArg _ (advance_of_not_valid hv _ _)
  · simp [exec, execHufPairs, huffmanError_of_not_valid hv]
  · simp [exec, execHufQuads, huffmanError_of_not_valid hv]

/-! ## `BSR.INIT` (R161) -/

/-- The checks of `BSR.INIT` in numbers: an empty buffer neither wraps nor is accessed (20_memory.md R85). -/
theorem initError_eq (s : State) :
    initError s = if lenMax < s.a1.toNat ∨ addressSpace < s.a0.toNat + s.a1.toNat then some .errOperand
      else if 0 < s.a1.toNat ∧ accessible s.cfg s.a0.toNat s.a1.toNat .read = false then some .errBus
      else none := by
  have hf : (initRegions s).all Region.fits = true ↔ s.a0.toNat + s.a1.toNat ≤ addressSpace := by
    have hbase : s.a0.toNat ≤ addressSpace := s.a0.isLt.le
    simp only [initRegions, List.all_cons, List.all_nil, Bool.and_true, Region.fits_iff, Nat.mod_one, true_and]
    omega
  have hc : anyClash (initRegions s) = false := rfl
  have hr : (initRegions s).all (fun r => r.reachable s.cfg) = false
      ↔ 0 < s.a1.toNat ∧ accessible s.cfg s.a0.toNat s.a1.toNat .read = false := by
    simp [initRegions, Region.reachable, Nat.pos_iff_ne_zero]
  by_cases hl : lenMax < s.a1.toNat
  · rw [initError, if_pos hl, if_pos (.inl hl)]
  rw [initError, if_neg hl]
  by_cases hw : addressSpace < s.a0.toNat + s.a1.toNat
  · rw [if_pos (.inr hw), regionError_eq_operand_iff, hf]
    omega
  rw [if_neg (not_or.mpr ⟨hl, hw⟩)]
  split
  · rename_i ha
    exact (regionError_eq_bus_iff _ _).mpr ⟨hf.mpr (not_lt.mp hw), hc, hr.mpr ha⟩
  · rename_i ha
    exact (regionError_eq_none_iff _ _).mpr ⟨hf.mpr (not_lt.mp hw), hc, by rwa [← hr, Bool.not_eq_false] at ha⟩

@[simp] theorem State.succeed_stale (s : State) (r0 r1 : Nat) (c : CtxId) : (s.succeed r0 r1).stale c = s.stale c := by
  cases c <;> rfl

@[simp] theorem State.setPos_stale (s : State) (c d : CtxId) (p : Nat) : (s.setPos c p).stale d = s.stale d := by
  cases c <;> cases d <;> rfl

theorem State.setOrigin_stale_other (s : State) {c d : CtxId} (x : BitCtx) (h : d ≠ c) : (s.setOrigin c x).stale d = s.stale d := by
  cases c <;> cases d
  case bs0.bs0 | bs1.bs1 => exact absurd rfl h
  case bs0.bs1 | bs1.bs0 => rfl

/-- Settles O15: the three clauses are the three answers of `initError`. -/
theorem bsrInitResult : Obligations.BsrInitResult := by
  unfold Obligations.BsrInitResult
  refine ⟨fun c ord s hl hw ha => ?_, fun c ord s hlw => ?_, fun c ord s hl hw hp ha => ?_⟩
  · have he : initError s = none := by
      rw [initError_eq, if_neg (not_or.mpr ⟨not_lt.mpr hl, not_lt.mpr hw⟩), if_neg (by simpa using ha)]
    have hbits : 8 * s.a1.toNat < 2 ^ 32 := by omega
    refine ⟨_, execBsrInit_of_initError_eq_none ord he, by simp, by simp, fun d hd => ?_, ?_, ?_⟩
    · simp [State.setOrigin_ctx_other _ _ _ _ hd, State.setOrigin_stale_other _ _ hd]
    · exact ⟨rfl, rfl, Nat.mod_eq_of_lt hbits, rfl, by simp [State.succeed]⟩
    · simp [keepsOperands, keepsDsp, keepsOutside]
  · exact execBsrInit_of_initError_eq_some ord (by rw [initError_eq, if_pos hlw])
  · refine execBsrInit_of_initError_eq_some ord ?_
    rw [initError_eq, if_neg (not_or.mpr ⟨not_lt.mpr hl, not_lt.mpr hw⟩), if_pos ⟨hp, ha⟩]

/-! ## The composition law (R166) -/

/-- The state in which a command word runs: `CMD` holds it, and its draw of free values is its own (10_state.md R36; log entry 10). -/
def State.latch (s : State) (w : Word) : State := { s with cmd := w, draws := s.draws + 1 }

@[simp] theorem State.latch_ctx (s : State) (w : Word) (c : CtxId) : (s.latch w).ctx c = s.ctx c := by
  cases c <;> rfl

@[simp] theorem State.latch_stale (s : State) (w : Word) (c : CtxId) : (s.latch w).stale c = s.stale c := by
  cases c <;> rfl

@[simp] theorem State.latch_mem (s : State) (w : Word) : (s.latch w).mem = s.mem := rfl

/-- A step whose action writes a command's word to `CMD` runs the command. -/
theorem step_encode {i : Instr} (hi : i.WellFormed) (s : State) :
    step (s.withFetchWord 32 (encode i).toNat) = exec i (s.latch (encode i)) :=
  stepRunsDecodedCommand.2 s (encode i) i (decodeOfEncode i hi)

/-- Where no bit of the buffer has changed, the values in a stream depend on memory and on the context's origin and order alone. -/
theorem State.take_congr {s t : State} {c : CtxId} (hs : s.stale c = []) (ht : t.stale c = []) (hm : t.mem = s.mem)
    (hb : (t.ctx c).base = (s.ctx c).base) (ho : (t.ctx c).ord = (s.ctx c).ord) : t.take c = s.take c := by
  have hbit : t.sbit c = s.sbit c := by
    funext j
    rw [State.sbit_of_unchanged ht, State.sbit_of_unchanged hs, State.readByte_congr hm, hb, ho]
  funext p k
  rw [State.take, State.take, hbit, ho]

/-- The state that `BSR.GET` reaches with enough bits (R163). -/
def State.afterGet (s : State) (c : CtxId) (n : BitVec 6) : State :=
  ((s.latch (encode (.bsrGet c n))).setPos c ((s.ctx c).pos.toNat + n.toNat)).succeed (s.take c (s.ctx c).pos.toNat n.toNat) n.toNat

section
variable (s : State) (c : CtxId) (n : BitVec 6)

@[simp] theorem State.afterGet_ctx : (s.afterGet c n).ctx c
    = { s.ctx c with pos := BitVec.ofNat 32 ((s.ctx c).pos.toNat + n.toNat) } := by
  simp [State.afterGet]

@[simp] theorem State.afterGet_stale : (s.afterGet c n).stale c = s.stale c := by
  simp [State.afterGet]

@[simp] theorem State.afterGet_mem : (s.afterGet c n).mem = s.mem := by
  simp [State.afterGet]

theorem State.afterGet_r0 (hn : n.toNat ≤ 32) : (s.afterGet c n).r0.toNat = s.take c (s.ctx c).pos.toNat n.toNat :=
  toNat_ofNat_of_lt_two_pow (s.take_lt c _ _) hn

end

section
variable {c : CtxId} {n : BitVec 6} {s : State}

/-- `BSR.GET` with enough bits in a buffer that has not changed: the draw of free values, which is the command's own, is not read. -/
theorem step_bsrGet (hv : (s.ctx c).valid = true) (hst : s.stale c = []) (hn : n.toNat ≤ 32) (ha : n.toNat ≤ (s.ctx c).avail) :
    step (s.withFetchWord 32 (encode (.bsrGet c n)).toNat) = .next (s.afterGet c n) := by
  have hw : (Instr.bsrGet c n).WellFormed := decide_eq_true hn
  have hk : (s.latch (encode (.bsrGet c n))).take c = s.take c := State.take_congr hst (by simpa) rfl (by simp) (by simp)
  rw [step_encode hw, exec, execBsrGet, advance_of_le_avail (by simpa) (by simpa), hk, State.latch_ctx, State.afterGet]

theorem peekValue_self (ord : BitOrder) (v k : Nat) : peekValue ord v k k = v := by
  cases ord <;> simp [peekValue]

/-- `BSR.PEEK` with enough bits in a buffer that has not changed answers as `BSR.GET` does and moves no cursor (R162, R166). -/
theorem step_bsrPeek (hv : (s.ctx c).valid = true) (hst : s.stale c = []) (hn : n.toNat ≤ 32) (ha : n.toNat ≤ (s.ctx c).avail) :
    step (s.withFetchWord 32 (encode (.bsrPeek c n)).toNat)
      = .next ((s.latch (encode (.bsrPeek c n))).succeed (s.take c (s.ctx c).pos.toNat n.toNat) n.toNat) := by
  have hw : (Instr.bsrPeek c n).WellFormed := decide_eq_true hn
  have hk : (s.latch (encode (.bsrPeek c n))).take c = s.take c := State.take_congr hst (by simpa) rfl (by simp) (by simp)
  have he : eobAfterPeek n.toNat n.toNat = false := decide_eq_false (lt_irrefl _)
  rw [step_encode hw, exec, execBsrPeek_of_valid (by simpa), hk, State.latch_ctx, Nat.min_eq_left ha, peekValue_self, he,
    State.succeed]

end

/-- Settles O21: the second `BSR.GET` starts where the first ended, on the same bits, so its value and the first's are the two parts of
the value of all `n` bits. -/
theorem getComposition : Obligations.GetComposition := by
  unfold Obligations.GetComposition
  intro c a b n s hv hs hst hab hn ha
  obtain ⟨hp, -⟩ := hs.toNat_advance (n := a.toNat) (by omega)
  have hb : b.toNat ≤ ((s.afterGet c a).ctx c).avail := by
    simp only [BitCtx.avail, State.afterGet_ctx, hp] at ha ⊢
    omega
  have hu : ((s.afterGet c a).afterGet c b).r0.toNat = s.take c ((s.ctx c).pos.toNat + a.toNat) b.toNat := by
    rw [State.afterGet_r0 _ _ _ (by omega), State.take_congr hst (by simpa) (by simp) (by simp) (by simp), State.afterGet_ctx, hp]
  obtain ⟨hmsb, hlsb⟩ := streamBitOrder.2.2.2 s c (s.ctx c).pos.toNat a.toNat b.toNat
  refine ⟨s.afterGet c a, (s.afterGet c a).afterGet c b, s.afterGet c n, _,
    step_bsrGet hv hst (by omega) (by omega), step_bsrGet (by simpa) (by simpa) (by omega) hb, step_bsrGet hv hst hn ha,
    step_bsrPeek hv hst hn ha, rfl, rfl, rfl, rfl, fun ho => ?_, fun ho => ?_, ?_, rfl, by simp⟩
  · rw [State.afterGet_r0 s c n hn, State.afterGet_r0 s c a (by omega), hu, hab, hmsb ho]
  · rw [State.afterGet_r0 s c n hn, State.afterGet_r0 s c a (by omega), hu, hab, hlsb ho]
  · rw [State.afterGet_ctx, State.afterGet_ctx, State.afterGet_ctx, hp, hab, Nat.add_assoc]

end Sys2Proof.Machine
end

section
/-! The obligations of 41_huffman.md. Where a stream goes on with a string as far as the available bits reach (`streamContinues`), a
codeword, a value and an element have one answer each: what was encoded, or an overrun. Both kinds of table are read as a `CodeTable`,
whose loop `CodeTable.run` is the loop of either command; what the loop does is said once, for encoded streams, for the words it gives,
for the bits it reads and for more available bits. -/

namespace Sys2Proof.Machine

/-! ## A string in the stream -/

/-- The stream goes on from `used` with the string, as far as the available bits reach. -/
def streamContinues (bit : Nat → Bool) (avail used : Nat) (str : List Bool) : Prop :=
  ∀ i b, used + i < avail → str[i]? = some b → bit (used + i) = b

/-- Two streams have the same available bits. -/
def agreeBelow (avail : Nat) (bit bit' : Nat → Bool) : Prop := ∀ i, i < avail → bit' i = bit i

theorem streamContinues_append {bit : Nat → Bool} {avail used : Nat} {xs ys : List Bool} :
    streamContinues bit avail used (xs ++ ys)
      ↔ streamContinues bit avail used xs ∧ streamContinues bit avail (used + xs.length) ys := by
  constructor
  · intro h
    refine ⟨fun i b hi hb => ?_, fun i b hi hb => ?_⟩
    · obtain ⟨hlt, -⟩ := List.getElem?_eq_some_iff.mp hb
      exact h i b hi (by rwa [List.getElem?_append_left hlt])
    · rw [Nat.add_assoc] at hi ⊢
      exact h _ b hi (by rwa [List.getElem?_append_right (Nat.le_add_right _ _), Nat.add_sub_cancel_left])
  · rintro ⟨hx, hy⟩ i b hi hb
    rcases Nat.lt_or_ge i xs.length with hlt | hge
    · exact hx i b hi (by rwa [List.getElem?_append_left hlt] at hb)
    · rw [List.getElem?_append_right hge] at hb
      have := hy (i - xs.length) b (by omega) hb
      rwa [show used + xs.length + (i - xs.length) = used + i by omega] at this

/-- A string within the available bits is followed bit by bit. -/
theorem streamContinues_iff_of_le {bit : Nat → Bool} {avail used : Nat} {str : List Bool} (h : str.length ≤ avail - used) :
    streamContinues bit avail used str ↔ ∀ i b, str[i]? = some b → bit (used + i) = b := by
  refine ⟨fun hc i b hb => ?_, fun hc i b _ hb => hc i b hb⟩
  obtain ⟨hlt, -⟩ := List.getElem?_eq_some_iff.mp hb
  exact hc i b (by omega) hb

/-- Of two strings with which the stream goes on, the shorter begins the longer where it is available. -/
theorem streamContinues_prefix {bit : Nat → Bool} {avail used : Nat} {xs ys : List Bool} (hx : streamContinues bit avail used xs)
    (hy : streamContinues bit avail used ys) (hl : xs.length ≤ ys.length) (ha : xs.length ≤ avail - used) : xs <+: ys := by
  rw [List.prefix_iff_getElem?]
  intro i hi
  have hi' : i < ys.length := by omega
  rw [List.getElem?_eq_getElem hi', ← hx i _ (by omega) (List.getElem?_eq_getElem hi),
    hy i _ (by omega) (List.getElem?_eq_getElem hi')]

/-! ## Codeword matching (R191) -/

theorem stringAt_iff (bit : Nat → Bool) (used : Nat) (str : List Bool) :
    stringAt bit used str = true ↔ ∀ i b, str[i]? = some b → bit (used + i) = b := by
  induction str generalizing used with
  | nil => simp [stringAt]
  | cons x xs ih =>
    rw [stringAt, Bool.and_eq_true, beq_iff_eq, ih]
    constructor
    · rintro ⟨h0, hs⟩ i b hb
      cases i with
      | zero => simpa [h0] using hb
      | succ i => rw [← hs i b (by simpa using hb), Nat.add_assoc, Nat.add_comm 1 i]
    · intro h
      refine ⟨h 0 x rfl, fun i b hb => ?_⟩
      rw [Nat.add_assoc, Nat.add_comm 1 i]
      exact h (i + 1) b hb

theorem fullMatch_iff {bit : Nat → Bool} {avail used : Nat} {str : List Bool} :
    fullMatch bit used (avail - used) str = true ↔ str.length ≤ avail - used ∧ streamContinues bit avail used str := by
  rw [fullMatch, Bool.and_eq_true, decide_eq_true_iff, stringAt_iff]
  exact and_congr_right fun h => (streamContinues_iff_of_le h).symm

theorem cutMatch_iff {bit : Nat → Bool} {avail used : Nat} {str : List Bool} :
    cutMatch bit used (avail - used) str = true ↔ avail - used < str.length ∧ streamContinues bit avail used str := by
  rw [cutMatch, Bool.and_eq_true, decide_eq_true_iff, stringAt_iff]
  refine and_congr_right fun _ => ⟨fun h i b hi hb => ?_, fun h i b hb => ?_⟩
  · exact h i b (by rwa [List.getElem?_take_of_lt (by omega)])
  · rw [List.getElem?_take] at hb
    split at hb
    · exact h i b (by omega) hb
    · cases hb

/-- In a well-formed code no codeword begins another one (R190). -/
theorem eq_of_prefix_of_codeWellFormed {ε : Type} {str : ε → List Bool} {entries : List ε}
    (hw : codeWellFormed (entries.map str) = true) {e e' : ε} (he : e ∈ entries) (he' : e' ∈ entries)
    (hp : str e <+: str e') : e = e' := by
  have hfree : prefixFree (entries.map str) = true := by
    simp only [codeWellFormed, Bool.and_eq_true] at hw
    exact hw.2
  clear hw
  induction entries with
  | nil => cases he
  | cons x xs ih =>
    simp only [List.map_cons, prefixFree, Bool.and_eq_true, List.all_eq_true, List.forall_mem_map, Bool.not_eq_true',
      ← Bool.not_eq_true, List.isPrefixOf_iff_prefix] at hfree
    obtain ⟨hx, hxs⟩ := hfree
    rcases List.mem_cons.mp he with rfl | hm <;> rcases List.mem_cons.mp he' with rfl | hm'
    · rfl
    · exact absurd hp (hx e' hm').1
    · exact absurd hp (hx e hm).2
    · exact ih hm hm' hxs

section
variable {ε : Type} {str : ε → List Bool} {entries : List ε} {bit : Nat → Bool} {avail used : Nat}

/-- The codeword that the available bits hold is found: no other one can be there (R191 (1)). -/
theorem matchCode_eq_found (hw : codeWellFormed (entries.map str) = true) {e : ε} (he : e ∈ entries)
    (hl : (str e).length ≤ avail - used) (hc : streamContinues bit avail used (str e)) :
    matchCode str entries bit avail used = .found e := by
  have honly : ∀ e' ∈ entries, fullMatch bit used (avail - used) (str e') = true → e' = e := by
    intro e' he' hf
    obtain ⟨hl', hc'⟩ := fullMatch_iff.mp hf
    rcases Nat.le_total (str e).length (str e').length with h | h
    · exact (eq_of_prefix_of_codeWellFormed hw he he' (streamContinues_prefix hc hc' h hl)).symm
    · exact eq_of_prefix_of_codeWellFormed hw he' he (streamContinues_prefix hc' hc h hl')
  unfold matchCode
  split
  · rename_i e' hf
    have hfull := List.find?_some hf
    rw [honly e' (List.mem_of_find?_eq_some hf) hfull]
  · rename_i hf
    exact absurd (fullMatch_iff.mpr ⟨hl, hc⟩) (List.find?_eq_none.mp hf e he)

/-- The stream goes on with the codeword found (R191 (1)). -/
theorem streamContinues_of_matchCode_found {e : ε} (h : matchCode str entries bit avail used = .found e) :
    streamContinues bit avail used (str e) := by
  unfold matchCode at h
  split at h
  · rename_i e' hf
    cases h
    have hfull := List.find?_some hf
    exact (fullMatch_iff.mp hfull).2
  · split at h <;> cases h

/-- Where the available bits hold no codeword, whether they begin one decides (R191 (2), (3)). -/
theorem matchCode_of_no_full (hf : ∀ e ∈ entries, ¬((str e).length ≤ avail - used ∧ streamContinues bit avail used (str e))) :
    ((∃ e ∈ entries, avail - used < (str e).length ∧ streamContinues bit avail used (str e)) →
        matchCode str entries bit avail used = .overrun)
      ∧ ((∀ e ∈ entries, ¬(avail - used < (str e).length ∧ streamContinues bit avail used (str e))) →
        matchCode str entries bit avail used = .noCode) := by
  have hnone : entries.find? (fun e => fullMatch bit used (avail - used) (str e)) = none :=
    List.find?_eq_none.mpr fun e he => fullMatch_iff.not.mpr (hf e he)
  refine ⟨fun ⟨e, he, hc⟩ => ?_, fun hc => ?_⟩
  · have hany : entries.any (fun e => cutMatch bit used (avail - used) (str e)) = true :=
      List.any_eq_true.mpr ⟨e, he, cutMatch_iff.mpr hc⟩
    simp [matchCode, hnone, hany]
  · have hany : entries.any (fun e => cutMatch bit used (avail - used) (str e)) = false :=
      List.any_eq_false.mpr fun e he => cutMatch_iff.not.mpr (hc e he)
    simp [matchCode, hnone, hany]

/-- Where every codeword differs from the stream in an available bit, there is none (R191 (3)). -/
theorem matchCode_eq_noCode (h : ∀ e ∈ entries, ¬streamContinues bit avail used (str e)) :
    matchCode str entries bit avail used = .noCode :=
  (matchCode_of_no_full fun e he hc => h e he hc.2).2 fun e he hc => h e he hc.2

/-- The answer on a stream that goes on with a codeword of the table: it is found, or the available bits end inside it. -/
theorem matchCode_of_streamContinues (hw : codeWellFormed (entries.map str) = true) {e : ε} (he : e ∈ entries)
    (hc : streamContinues bit avail used (str e)) :
    matchCode str entries bit avail used = if (str e).length ≤ avail - used then .found e else .overrun := by
  split
  · exact matchCode_eq_found hw he ‹_› hc
  · rename_i hl
    refine (matchCode_of_no_full fun e' he' ⟨hl', hc'⟩ => ?_).1 ⟨e, he, not_le.mp hl, hc⟩
    have hp := streamContinues_prefix hc' hc (by omega) hl'
    rw [eq_of_prefix_of_codeWellFormed hw he' he hp] at hl'
    exact hl hl'

/-- Only available bits are examined (R191, R198). -/
theorem matchCode_congr {bit' : Nat → Bool} (h : ∀ i, used ≤ i → i < avail → bit' i = bit i) :
    matchCode str entries bit' avail used = matchCode str entries bit avail used := by
  have hc : ∀ s, streamContinues bit' avail used s ↔ streamContinues bit avail used s := fun s =>
    forall_congr' fun i => forall_congr' fun b => forall_congr' fun hi => by rw [h _ (Nat.le_add_right _ _) hi]
  have hfull : fullMatch bit' used (avail - used) = fullMatch bit used (avail - used) := by
    funext s
    rw [Bool.eq_iff_iff, fullMatch_iff, fullMatch_iff, hc]
  have hcut : cutMatch bit' used (avail - used) = cutMatch bit used (avail - used) := by
    funext s
    rw [Bool.eq_iff_iff, cutMatch_iff, cutMatch_iff, hc]
  rw [matchCode, hfull, hcut, matchCode]

end

/-- Settles O23: the three cases are `matchCode_eq_found` and `matchCode_of_no_full`, the last clause `matchCode_congr`. -/
theorem codewordMatching : Obligations.CodewordMatching := by
  unfold Obligations.CodewordMatching
  intro ε str entries bit avail used hw full cut
  have hfull : ∀ e, full e ↔ (str e).length ≤ avail - used ∧ streamContinues bit avail used (str e) := fun e =>
    and_congr_right fun h => (streamContinues_iff_of_le h).symm
  have hcut : ∀ e, cut e ↔ avail - used < (str e).length ∧ streamContinues bit avail used (str e) := by
    refine fun e => and_congr_right fun _ => forall_congr' fun i => forall_congr' fun b => ?_
    rw [Nat.lt_sub_iff_add_lt']
  simp only [hfull, hcut]
  exact ⟨fun e he h => matchCode_eq_found hw he h.1 h.2, fun hf => (matchCode_of_no_full hf).1,
    fun hf => (matchCode_of_no_full hf).2, fun bit' h => matchCode_congr h⟩

/-! ## One value (R193) -/

@[simp] theorem msbBits_length (v k : Nat) : (msbBits v k).length = k := by
  induction k with
  | zero => rfl
  | succ k ih => rw [msbBits, List.length_cons, ih]

/-- The bits of a number, read back (20_memory.md R82). -/
theorem takeMsb_of_msbBits {bit : Nat → Bool} {v p k : Nat} (h : ∀ i b, (msbBits v k)[i]? = some b → bit (p + i) = b) :
    takeMsb bit p k = v % 2 ^ k := by
  induction k generalizing p with
  | zero => simp [takeMsb, Nat.mod_one]
  | succ k ih =>
    have hfirst : bit p = v.testBit k := h 0 _ rfl
    have hrest : takeMsb bit (p + 1) k = v % 2 ^ k := by
      refine ih fun i b hb => ?_
      rw [Nat.add_assoc, Nat.add_comm 1 i]
      exact h (i + 1) b hb
    calc takeMsb bit p (k + 1)
      _ = (bit p).toNat * 2 ^ k + takeMsb bit (p + 1) k := by rw [Nat.add_comm k 1, takeMsb_add]; simp [takeMsb]
      _ = v % 2 ^ k + 2 ^ k * (v / 2 ^ k % 2) := by rw [hfirst, hrest, Nat.toNat_testBit]; ring
      _ = v % 2 ^ (k + 1) := Nat.mod_pow_succ.symm

/-- The end of `tail`, once the magnitude is complete: the sign of a non-zero one (R193). -/
def signTail (bit : Nat → Bool) (avail m used : Nat) : Option (Word × Nat) :=
  if m = 0 then some (0#32, used) else if avail < used + 1 then none else some (signmag m (bit used), used + 1)

theorem tail_of_escaped {linbits m maxv : Nat} (h : 0 < linbits ∧ m = maxv) (bit : Nat → Bool) (avail used : Nat) :
    tail bit avail m linbits maxv used
      = if avail < used + linbits then none else signTail bit avail (m + takeMsb bit used linbits) (used + linbits) := by
  simp only [tail, h, and_self, decide_true, true_and, if_true]
  rfl

theorem tail_of_not_escaped {linbits m maxv : Nat} (h : ¬(0 < linbits ∧ m = maxv)) (bit : Nat → Bool) (avail used : Nat) :
    tail bit avail m linbits maxv used = signTail bit avail m used := by
  simp only [tail, h, decide_false, Bool.false_eq_true, false_and, if_false]
  rfl

/-- A sign in the stream after a complete magnitude. -/
theorem signTail_of_streamContinues {bit : Nat → Bool} {avail m used : Nat} {neg : Bool} (hu : used ≤ avail)
    (h : streamContinues bit avail used (if m = 0 then [] else [neg])) :
    signTail bit avail m used =
      if used + (if m = 0 then [] else [neg]).length ≤ avail
      then some (if m = 0 then 0#32 else signmag m neg, used + (if m = 0 then [] else [neg]).length) else none := by
  unfold signTail
  by_cases hm : m = 0
  · simp [hm, hu]
  · simp only [hm, if_false, List.length_singleton] at h ⊢
    by_cases ha : avail < used + 1
    · rw [if_pos ha, if_neg (by omega)]
    · have hbit : bit used = neg := h 0 neg (by omega) rfl
      rw [if_neg ha, if_pos (by omega), hbit]

theorem tail_of_streamContinues {q : Coefficient} {linbits maxv : Nat} {bit : Nat → Bool} {avail used : Nat}
    (hr : q.raw < 2 ^ linbits) (hu : used ≤ avail) (h : streamContinues bit avail used (q.bits linbits maxv)) :
    tail bit avail q.mag linbits maxv used =
      if used + (q.bits linbits maxv).length ≤ avail
      then some (q.word linbits maxv, used + (q.bits linbits maxv).length) else none := by
  by_cases he : 0 < linbits ∧ q.mag = maxv
  · have hesc : q.escaped linbits maxv = true := decide_eq_true he
    have hval : q.value linbits maxv = q.mag + q.raw := by rw [Coefficient.value, if_pos hesc]
    simp only [Coefficient.bits, Coefficient.word, hesc, if_true, hval, streamContinues_append, List.length_append, msbBits_length,
      ← Nat.add_assoc] at h ⊢
    obtain ⟨hlin, hsign⟩ := h
    rw [tail_of_escaped he]
    by_cases ha : avail < used + linbits
    · rw [if_pos ha, if_neg (by omega)]
    · have hraw : takeMsb bit used linbits = q.raw := by
        rw [takeMsb_of_msbBits ((streamContinues_iff_of_le (by rw [msbBits_length]; omega)).mp hlin), Nat.mod_eq_of_lt hr]
      rw [if_neg ha, hraw, signTail_of_streamContinues (by omega) hsign]
  · have hesc : q.escaped linbits maxv = false := decide_eq_false he
    have hval : q.value linbits maxv = q.mag := by rw [Coefficient.value, hesc]; rfl
    simp only [Coefficient.bits, Coefficient.word, hesc, Bool.false_eq_true, if_false, hval, List.nil_append] at h ⊢
    rw [tail_of_not_escaped he, signTail_of_streamContinues hu h]

/-- 13 linbits above 15: the largest magnitude (R193). -/
theorem escaped_magnitude_le {m raw linbits : Nat} (hm : m ≤ 15) (hl : linbits ≤ 13) (hr : raw < 2 ^ linbits) : m + raw ≤ 8206 := by
  have hp : 2 ^ linbits ≤ 2 ^ 13 := Nat.pow_le_pow_right (by decide) hl
  omega

/-- Settles O24: `tail` on a stream that goes on with the coefficient's bits, and the bound of an escaped magnitude. -/
theorem tailOfCoefficient : Obligations.TailOfCoefficient := by
  unfold Obligations.TailOfCoefficient
  refine ⟨fun q linbits maxv bit avail used hr hu h => tail_of_streamContinues hr hu h, fun q linbits maxv hm hl hr => ?_⟩
  unfold Coefficient.value
  split
  · exact escaped_magnitude_le hm hl hr
  · omega

/-! ## Pair tables and quad tables as one kind of table -/

/-- The tails of an element's magnitudes, one after the other (R193). -/
def tails (bit : Nat → Bool) (avail linbits maxv : Nat) : List Nat → Nat → Option (List Word × Nat)
  | [], used => some ([], used)
  | m :: ms, used =>
    match tail bit avail m linbits maxv used with
    | none => none
    | some (w, u) =>
      match tails bit avail linbits maxv ms u with
      | none => none
      | some (ws, u') => some (w :: ws, u')

/-- What `HUF.PAIRS` and `HUF.QUADS` need of a table `Code(...)` (R190): `size` magnitudes an entry, their linbits and maximum. -/
structure CodeTable where
  {ε : Type}
  entries : List ε
  str : ε → List Bool
  mags : ε → List Nat
  size : Nat
  linbits : Nat
  maxv : Nat
  wf : codeWellFormed (entries.map str) = true
  mags_length : ∀ e, (mags e).length = size
  mags_le : ∀ e, ∀ m ∈ mags e, m ≤ 15
  linbits_le : linbits ≤ 13
  size_pos : 0 < size

/-- A pair table has two magnitudes an entry. -/
def pairCodeTable (t : PairCode) : CodeTable where
  entries := t.entries
  str := PairEntry.bits
  mags e := [e.x.val, e.y.val]
  size := 2
  linbits := t.linbits.val
  maxv := pairMax t
  wf := t.wf
  mags_length _ := rfl
  mags_le e m hm := by
    have hx := e.x.isLt
    have hy := e.y.isLt
    simp only [List.mem_cons, List.not_mem_nil, or_false] at hm
    omega
  linbits_le := Nat.le_of_lt_succ t.linbits.isLt
  size_pos := by decide

/-- A quad table has four magnitudes an entry, and no linbits. -/
def quadCodeTable (t : QuadCode) : CodeTable where
  entries := t.entries
  str := QuadEntry.bits
  mags e := (quadMagnitudes e).map Bool.toNat
  size := 4
  linbits := 0
  maxv := 0
  wf := t.wf
  mags_length _ := rfl
  mags_le e m hm := by
    obtain ⟨b, -, rfl⟩ := List.mem_map.mp hm
    exact (Bool.toNat_le b).trans (by decide)
  linbits_le := by decide
  size_pos := by decide

/-- One element from `used`: codeword, then the tails of its magnitudes (R194, R195). -/
def CodeTable.decode (T : CodeTable) (bit : Nat → Bool) (avail used : Nat) : Except ReturnCode (List Word × Nat) :=
  match matchCode T.str T.entries bit avail used with
  | .overrun => .error .errHuffOverrun
  | .noCode => .error .errHuffCode
  | .found e =>
    match tails bit avail T.linbits T.maxv (T.mags e) (used + (T.str e).length) with
    | none => .error .errHuffOverrun
    | some r => .ok r

/-- More words in front of what a loop gives. -/
def Decoded.prepend (ws : List Word) (d : Decoded) : Decoded := ⟨ws ++ d.words, d.used, d.code⟩

/-- At most `n` more elements from `used`; with `untilEnd`, only while bits are left (R194, R195). -/
def CodeTable.run (T : CodeTable) (untilEnd : Bool) (bit : Nat → Bool) (avail : Nat) : (n used : Nat) → Decoded
  | 0, used => ⟨[], used, .none⟩
  | n + 1, used =>
    if untilEnd = true ∧ avail ≤ used then ⟨[], used, .none⟩
    else
      match T.decode bit avail used with
      | .error code => ⟨[], used, code⟩
      | .ok (ws, u) => (T.run untilEnd bit avail n u).prepend ws

theorem signTails_eq_tails (bit : Nat → Bool) (avail : Nat) (ms : List Bool) (used : Nat) :
    signTails bit avail ms used = tails bit avail 0 0 (ms.map Bool.toNat) used := by
  induction ms generalizing used with
  | nil => rfl
  | cons m ms ih =>
    cases hm : tail bit avail m.toNat 0 0 used with
    | none => simp [signTails, tails, hm]
    | some r => cases hms : tails bit avail 0 0 (ms.map Bool.toNat) r.2 <;> simp [signTails, tails, hm, ih, hms]

theorem decodeQuad_eq_decode (t : QuadCode) (bit : Nat → Bool) (avail used : Nat) :
    decodeQuad t bit avail used = (quadCodeTable t).decode bit avail used := by
  unfold decodeQuad CodeTable.decode quadCodeTable
  dsimp only
  cases matchCode QuadEntry.bits t.entries bit avail used with
  | overrun => rfl
  | noCode => rfl
  | found e =>
    cases ht : tails bit avail 0 0 ((quadMagnitudes e).map Bool.toNat) (used + e.bits.length) <;> simp [signTails_eq_tails, ht]

theorem decodeQuads_eq_run (t : QuadCode) (bit : Nat → Bool) (avail n used : Nat) :
    decodeQuads t bit avail n used = (quadCodeTable t).run true bit avail n used := by
  induction n generalizing used with
  | zero => rfl
  | succ n ih =>
    rw [decodeQuads, CodeTable.run, decodeQuad_eq_decode]
    by_cases h : used < avail
    · rw [if_pos h, if_neg (by omega)]
      cases (quadCodeTable t).decode bit avail used with
      | error code => rfl
      | ok r => simp only [ih]; rfl
    · rw [if_neg h, if_pos ⟨rfl, not_lt.mp h⟩]

/-- The two words of a pair as a list. -/
theorem decode_pairTable (t : PairCode) (bit : Nat → Bool) (avail used : Nat) :
    (pairCodeTable t).decode bit avail used = (decodePair (.code t) bit avail used).map fun r => ([r.1, r.2.1], r.2.2) := by
  simp only [CodeTable.decode, decodePair, pairCodeTable, tails]
  cases matchCode PairEntry.bits t.entries bit avail used with
  | overrun => rfl
  | noCode => rfl
  | found e =>
    dsimp only
    cases tail bit avail e.x.val t.linbits.val (pairMax t) (used + e.bits.length) with
    | none => rfl
    | some r =>
      dsimp only
      cases tail bit avail e.y.val t.linbits.val (pairMax t) r.2 <;> rfl

theorem decodePairs_eq_run (t : PairCode) (bit : Nat → Bool) (avail n used : Nat) :
    decodePairs (.code t) bit avail n used = (pairCodeTable t).run false bit avail n used := by
  induction n generalizing used with
  | zero => rfl
  | succ n ih =>
    rw [decodePairs, CodeTable.run, decode_pairTable, if_neg (by simp)]
    cases decodePair (.code t) bit avail used with
    | error code => rfl
    | ok r => simp only [ih]; rfl

/-- The table with no codewords gives zeros and consumes nothing (R194). -/
theorem decodePairs_zero (bit : Nat → Bool) (avail n used : Nat) :
    decodePairs .zero bit avail n used = ⟨List.replicate (2 * n) 0#32, used, .none⟩ := by
  induction n with
  | zero => rfl
  | succ n ih => simp only [decodePairs, decodePair, ih]; rfl

/-! ## The loop, step by step -/

section
variable {T : CodeTable} {untilEnd : Bool} {bit : Nat → Bool} {avail used : Nat}

theorem CodeTable.run_succ_of_end (h : untilEnd = true ∧ avail ≤ used) (n : Nat) :
    T.run untilEnd bit avail (n + 1) used = ⟨[], used, .none⟩ := by
  rw [CodeTable.run, if_pos h]

theorem CodeTable.run_succ_of_error (h : ¬(untilEnd = true ∧ avail ≤ used)) {code : ReturnCode}
    (hd : T.decode bit avail used = .error code) (n : Nat) : T.run untilEnd bit avail (n + 1) used = ⟨[], used, code⟩ := by
  rw [CodeTable.run, if_neg h, hd]

theorem CodeTable.run_succ_of_ok (h : ¬(untilEnd = true ∧ avail ≤ used)) {ws : List Word} {u : Nat}
    (hd : T.decode bit avail used = .ok (ws, u)) (n : Nat) :
    T.run untilEnd bit avail (n + 1) used = (T.run untilEnd bit avail n u).prepend ws := by
  rw [CodeTable.run, if_neg h, hd]

/-- An element decoded is a codeword found and the tails of its magnitudes. -/
theorem CodeTable.decode_eq_ok_iff {r : List Word × Nat} :
    T.decode bit avail used = .ok r ↔ ∃ e, matchCode T.str T.entries bit avail used = .found e
      ∧ tails bit avail T.linbits T.maxv (T.mags e) (used + (T.str e).length) = some r := by
  unfold CodeTable.decode
  cases matchCode T.str T.entries bit avail used with
  | overrun => simp
  | noCode => simp
  | found e =>
    simp only [Match.found.injEq, exists_eq_left']
    cases tails bit avail T.linbits T.maxv (T.mags e) (used + (T.str e).length) <;> simp

theorem CodeTable.decode_error_ne_none {code : ReturnCode} (h : T.decode bit avail used = .error code) : code ≠ .none := by
  unfold CodeTable.decode at h
  rintro rfl
  split at h
  · cases h
  · cases h
  · split at h <;> cases h

/-! ## The stream of an encoder -/

/-- The bits are those of an element of the table as an encoder writes it, and the words are its output (R193 to R197). -/
def CodeTable.Encodes (T : CodeTable) (bits : List Bool) (words : List Word) : Prop :=
  ∃ e ∈ T.entries, ∃ qs : List Coefficient, qs.map Coefficient.mag = T.mags e ∧ (∀ q ∈ qs, q.raw < 2 ^ T.linbits)
    ∧ bits = T.str e ++ (qs.flatMap fun q => q.bits T.linbits T.maxv) ∧ words = qs.map fun q => q.word T.linbits T.maxv

theorem PairItem.encodes {t : PairCode} {p : PairItem} (h : p.ofTable t) : (pairCodeTable t).Encodes (p.bits t) (p.words t) := by
  obtain ⟨he, hx, hy⟩ := h
  refine ⟨p.entry, he, p.coefficients, rfl, fun q hq => ?_, rfl, rfl⟩
  simp only [PairItem.coefficients, List.mem_cons, List.not_mem_nil, or_false] at hq
  rcases hq with rfl | rfl
  · exact hx
  · exact hy

theorem QuadItem.encodes {t : QuadCode} {q : QuadItem} (h : q.entry ∈ t.entries) : (quadCodeTable t).Encodes q.bits q.words := by
  refine ⟨q.entry, h, q.coefficients, rfl, fun k hk => ?_, rfl, rfl⟩
  simp only [QuadItem.coefficients, List.mem_cons, List.not_mem_nil, or_false] at hk
  rcases hk with rfl | rfl | rfl | rfl <;> exact Nat.one_pos

/-- An element has at least one bit: its codeword has (R190). -/
theorem CodeTable.Encodes.length_pos {bits : List Bool} {words : List Word} (h : T.Encodes bits words) : 0 < bits.length := by
  obtain ⟨e, he, qs, -, -, rfl, -⟩ := h
  have hl := codeWellFormed_length T.wf (List.mem_map_of_mem he)
  rw [List.length_append]
  omega

theorem tails_of_streamContinues {linbits maxv : Nat} {qs : List Coefficient} (hr : ∀ q ∈ qs, q.raw < 2 ^ linbits)
    (hu : used ≤ avail) (h : streamContinues bit avail used (qs.flatMap fun q => q.bits linbits maxv)) :
    tails bit avail linbits maxv (qs.map Coefficient.mag) used =
      if used + (qs.flatMap fun q => q.bits linbits maxv).length ≤ avail
      then some (qs.map fun q => q.word linbits maxv, used + (qs.flatMap fun q => q.bits linbits maxv).length) else none := by
  induction qs generalizing used with
  | nil => simp [tails, hu]
  | cons q qs ih =>
    rw [List.flatMap_cons, streamContinues_append] at h
    obtain ⟨hq, hqs⟩ := h
    rw [List.map_cons, tails, tail_of_streamContinues (hr q List.mem_cons_self) hu hq, List.flatMap_cons, List.length_append]
    by_cases ha : used + (q.bits linbits maxv).length ≤ avail
    · rw [if_pos ha]
      dsimp only
      rw [ih (fun q hq => hr q (List.mem_cons_of_mem _ hq)) ha hqs, Nat.add_assoc]
      split_ifs <;> rfl
    · rw [if_neg ha, if_neg (by omega)]

/-- What decoding gives on a stream that goes on with an element: the element, or an overrun where the available bits end inside it. -/
theorem CodeTable.decode_of_streamContinues {bits : List Bool} {words : List Word} (he : T.Encodes bits words) (hu : used ≤ avail)
    (h : streamContinues bit avail used bits) :
    T.decode bit avail used =
      if used + bits.length ≤ avail then .ok (words, used + bits.length) else .error .errHuffOverrun := by
  obtain ⟨e, hmem, qs, hm, hr, rfl, rfl⟩ := he
  obtain ⟨hc, ht⟩ := streamContinues_append.mp h
  rw [CodeTable.decode, matchCode_of_streamContinues T.wf hmem hc, List.length_append]
  by_cases ha : (T.str e).length ≤ avail - used
  · rw [if_pos ha]
    dsimp only
    rw [← hm, tails_of_streamContinues hr (by omega) ht, Nat.add_assoc]
    split_ifs <;> rfl
  · rw [if_neg ha, if_neg (by omega)]

/-- Where no codeword can start, no element can (R191 (3)). -/
theorem CodeTable.decode_eq_noCode (h : ∀ e ∈ T.entries, ¬streamContinues bit avail used (T.str e)) :
    T.decode bit avail used = .error .errHuffCode := by
  rw [CodeTable.decode, matchCode_eq_noCode h]

/-- A code is not empty, so where no codeword begins there is an available bit. -/
theorem CodeTable.lt_avail_of_noCode (h : ∀ e ∈ T.entries, ¬streamContinues bit avail used (T.str e)) : used < avail := by
  have hne : T.entries ≠ [] := by
    intro h0
    have hw := T.wf
    simp [h0, codeWellFormed] at hw
  obtain ⟨e, he⟩ := List.exists_mem_of_ne_nil _ hne
  by_contra hu
  exact h e he fun i b hi => absurd hi (by omega)

section
variable {α : Type} {bits : α → List Bool} {words : α → List Word} {items : List α}

/-- The loop decodes the elements that an encoder wrote, where all their bits are available, and goes on behind them. -/
theorem CodeTable.run_of_encoded (he : ∀ a ∈ items, T.Encodes (bits a) (words a))
    (h : streamContinues bit avail used (items.flatMap bits)) (hl : used + (items.flatMap bits).length ≤ avail) (n : Nat) :
    T.run untilEnd bit avail (items.length + n) used
      = (T.run untilEnd bit avail n (used + (items.flatMap bits).length)).prepend (items.flatMap words) := by
  induction items generalizing used with
  | nil => simp [Decoded.prepend]
  | cons a items ih =>
    have ha := he a List.mem_cons_self
    have hpos := ha.length_pos
    rw [List.flatMap_cons, streamContinues_append] at h
    obtain ⟨hfirst, hrest⟩ := h
    simp only [List.flatMap_cons, List.length_append] at hl ⊢
    have hd := CodeTable.decode_of_streamContinues ha (by omega) hfirst
    rw [if_pos (by omega)] at hd
    rw [List.length_cons, Nat.add_right_comm, CodeTable.run_succ_of_ok (by omega) hd,
      ih (fun b hb => he b (List.mem_cons_of_mem _ hb)) hrest (by omega), ← Nat.add_assoc]
    simp [Decoded.prepend]

/-- The last element of which all bits lie below a bound inside the elements. -/
theorem exists_cut_element {n : Nat} (h : n < (items.flatMap bits).length) :
    ∃ k < items.length, ((items.take k).flatMap bits).length ≤ n ∧ n < ((items.take (k + 1)).flatMap bits).length := by
  induction items generalizing n with
  | nil => simp at h
  | cons a items ih =>
    rw [List.flatMap_cons, List.length_append] at h
    by_cases ha : n < (bits a).length
    · exact ⟨0, by simp, by simp, by simpa using ha⟩
    · obtain ⟨k, hk, h1, h2⟩ := ih (n := n - (bits a).length) (by omega)
      refine ⟨k + 1, by simpa using hk, ?_, ?_⟩ <;> rw [List.take_succ_cons, List.flatMap_cons, List.length_append] <;> omega

/-- The loop stops with an overrun at the element inside which the available bits end. -/
theorem CodeTable.run_of_truncated {k n : Nat} (he : ∀ a ∈ items, T.Encodes (bits a) (words a))
    (h : streamContinues bit avail 0 (items.flatMap bits)) (hk : k < items.length) (hn : items.length ≤ n)
    (hl : ((items.take k).flatMap bits).length ≤ avail) (hcut : avail < ((items.take (k + 1)).flatMap bits).length)
    (hend : untilEnd = true → ((items.take k).flatMap bits).length ≠ avail) :
    T.run untilEnd bit avail n 0
      = ⟨(items.take k).flatMap words, ((items.take k).flatMap bits).length, .errHuffOverrun⟩ := by
  have hparts : items.flatMap bits
      = (items.take k).flatMap bits ++ (bits items[k] ++ (items.drop (k + 1)).flatMap bits) := by
    rw [← List.flatMap_cons, ← List.drop_eq_getElem_cons hk, ← List.flatMap_append, List.take_append_drop]
  rw [hparts, streamContinues_append, streamContinues_append, Nat.zero_add] at h
  obtain ⟨hbefore, hk', -⟩ := h
  rw [List.take_succ_eq_append_getElem hk, List.flatMap_append, List.length_append, List.flatMap_singleton] at hcut
  have hd := CodeTable.decode_of_streamContinues (he _ (List.getElem_mem hk)) hl hk'
  rw [if_neg (by omega)] at hd
  have hrun := CodeTable.run_of_encoded (untilEnd := untilEnd) (fun a ha => he a (List.mem_of_mem_take ha)) hbefore
    (by omega) (n - k - 1 + 1)
  rw [List.length_take, Nat.min_eq_left hk.le, Nat.zero_add, CodeTable.run_succ_of_error (fun hs => hend hs.1 (by omega)) hd,
    show k + (n - k - 1 + 1) = n by omega] at hrun
  rw [hrun, Decoded.prepend, List.append_nil]

/-- The loop stops behind the encoded elements where no codeword comes next. -/
theorem CodeTable.run_of_noCode {n : Nat} (he : ∀ a ∈ items, T.Encodes (bits a) (words a))
    (h : streamContinues bit avail 0 (items.flatMap bits)) (hn : items.length < n)
    (hno : ∀ e ∈ T.entries, ¬streamContinues bit avail (items.flatMap bits).length (T.str e)) :
    T.run untilEnd bit avail n 0 = ⟨items.flatMap words, (items.flatMap bits).length, .errHuffCode⟩ := by
  have hlt := CodeTable.lt_avail_of_noCode hno
  have hrun := CodeTable.run_of_encoded (untilEnd := untilEnd) he h (by omega) (n - items.length - 1 + 1)
  rw [Nat.zero_add, CodeTable.run_succ_of_error (by omega) (CodeTable.decode_eq_noCode hno),
    show items.length + (n - items.length - 1 + 1) = n by omega] at hrun
  rw [hrun, Decoded.prepend, List.append_nil]

end

/-! ## The words decoded (R197) -/

/-- A sign and a magnitude of at most 8206, and not minus zero. -/
def isCoefficientWord (w : Word) : Prop := w.toNat % 2 ^ 31 ≤ 8206 ∧ w ≠ 0x80000000#32

theorem isCoefficientWord_zero : isCoefficientWord 0#32 := by
  unfold isCoefficientWord
  decide

theorem isCoefficientWord_signmag {m : Nat} (h0 : m ≠ 0) (hm : m ≤ 8206) (neg : Bool) : isCoefficientWord (signmag m neg) := by
  have hb := Bool.toNat_le neg
  have hn : (signmag m neg).toNat = neg.toNat * 2 ^ 31 + m := by
    rw [signmag, BitVec.toNat_ofNat, Nat.mod_eq_of_lt (by omega)]
  refine ⟨by omega, fun he => ?_⟩
  have hz : (signmag m neg).toNat = 2 ^ 31 := by rw [he]; rfl
  omega

theorem signTail_word {m : Nat} {w : Word} {u : Nat} (hm : m ≤ 8206) (h : signTail bit avail m used = some (w, u)) :
    isCoefficientWord w := by
  unfold signTail at h
  split at h
  · cases h
    exact isCoefficientWord_zero
  · rename_i h0
    split at h
    · cases h
    · cases h
      exact isCoefficientWord_signmag h0 hm _

theorem tail_word {m linbits maxv : Nat} {w : Word} {u : Nat} (hm : m ≤ 15) (hl : linbits ≤ 13)
    (h : tail bit avail m linbits maxv used = some (w, u)) : isCoefficientWord w := by
  by_cases he : 0 < linbits ∧ m = maxv
  · rw [tail_of_escaped he] at h
    split at h
    · cases h
    · exact signTail_word (escaped_magnitude_le hm hl (takeMsb_lt bit used linbits)) h
  · rw [tail_of_not_escaped he] at h
    exact signTail_word (by omega) h

/-- The tails of an element, taken apart. -/
theorem tails_cons_eq_some {linbits maxv m : Nat} {ms : List Nat} {ws : List Word} {u : Nat}
    (h : tails bit avail linbits maxv (m :: ms) used = some (ws, u)) :
    ∃ w u1 ws', tail bit avail m linbits maxv used = some (w, u1) ∧ tails bit avail linbits maxv ms u1 = some (ws', u)
      ∧ ws = w :: ws' := by
  simp only [tails] at h
  split at h
  · cases h
  · rename_i w u1 h1
    split at h
    · cases h
    · rename_i ws' u' h2
      cases h
      exact ⟨w, u1, ws', h1, h2, rfl⟩

theorem tails_words {linbits maxv : Nat} {ms : List Nat} {ws : List Word} {u : Nat} (hm : ∀ m ∈ ms, m ≤ 15) (hl : linbits ≤ 13)
    (h : tails bit avail linbits maxv ms used = some (ws, u)) : ∀ w ∈ ws, isCoefficientWord w := by
  induction ms generalizing used ws with
  | nil =>
    cases h
    simp
  | cons m ms ih =>
    obtain ⟨w, u1, ws', h1, h2, rfl⟩ := tails_cons_eq_some h
    rw [List.forall_mem_cons] at hm ⊢
    exact ⟨tail_word hm.1 hl h1, ih hm.2 h2⟩

theorem CodeTable.run_words (T : CodeTable) (untilEnd : Bool) (bit : Nat → Bool) (avail n used : Nat) :
    ∀ w ∈ (T.run untilEnd bit avail n used).words, isCoefficientWord w := by
  induction n generalizing used with
  | zero => simp [CodeTable.run]
  | succ n ih =>
    rw [CodeTable.run]
    split
    · simp
    · split
      · simp
      · rename_i ws u hd
        obtain ⟨e, -, ht⟩ := CodeTable.decode_eq_ok_iff.mp hd
        exact List.forall_mem_append.mpr ⟨tails_words (T.mags_le e) T.linbits_le ht, ih u⟩

/-! ## Only available bits are read (R198) -/

theorem signTail_congr {bit' : Nat → Bool} (h : agreeBelow avail bit bit') (m : Nat) :
    signTail bit' avail m used = signTail bit avail m used := by
  unfold signTail
  split
  · rfl
  · split
    · rfl
    · rw [h used (by omega)]

theorem tail_congr {bit' : Nat → Bool} (h : agreeBelow avail bit bit') (m linbits maxv : Nat) :
    tail bit' avail m linbits maxv used = tail bit avail m linbits maxv used := by
  by_cases he : 0 < linbits ∧ m = maxv
  · rw [tail_of_escaped he, tail_of_escaped he]
    split
    · rfl
    · rw [takeMsb_congr bit bit' used linbits fun i _ hi => h i (by omega), signTail_congr h]
  · rw [tail_of_not_escaped he, tail_of_not_escaped he, signTail_congr h]

theorem tails_congr {bit' : Nat → Bool} (h : agreeBelow avail bit bit') (linbits maxv : Nat) (ms : List Nat) :
    tails bit' avail linbits maxv ms used = tails bit avail linbits maxv ms used := by
  induction ms generalizing used with
  | nil => rfl
  | cons m ms ih => simp only [tails, tail_congr h, ih]

theorem CodeTable.run_congr {bit' : Nat → Bool} (h : agreeBelow avail bit bit') (n : Nat) :
    T.run untilEnd bit' avail n used = T.run untilEnd bit avail n used := by
  induction n generalizing used with
  | zero => rfl
  | succ n ih => simp only [CodeTable.run, CodeTable.decode, matchCode_congr fun i _ hi => h i hi, tails_congr h, ih]

/-! ## More available bits (R200) -/

theorem signTail_of_le {m b : Nat} {w : Word} {u : Nat} (h : signTail bit avail m used = some (w, u)) (hb : u ≤ b) :
    signTail bit b m used = some (w, u) := by
  unfold signTail at h ⊢
  split at h
  · rename_i h0
    rwa [if_pos h0]
  · rename_i h0
    split at h
    · cases h
    · cases h
      rw [if_neg h0, if_neg (by omega)]

theorem le_of_signTail {m : Nat} {w : Word} {u : Nat} (h : signTail bit avail m used = some (w, u)) : used ≤ u := by
  unfold signTail at h
  split at h
  · cases h
    exact le_refl _
  · split at h
    · cases h
    · cases h
      exact Nat.le_succ _

theorem tail_of_le {m linbits maxv b : Nat} {w : Word} {u : Nat} (h : tail bit avail m linbits maxv used = some (w, u))
    (hb : u ≤ b) : tail bit b m linbits maxv used = some (w, u) := by
  by_cases he : 0 < linbits ∧ m = maxv
  · rw [tail_of_escaped he] at h ⊢
    split at h
    · cases h
    · have hu := le_of_signTail h
      rw [if_neg (by omega), signTail_of_le h hb]
  · rw [tail_of_not_escaped he] at h ⊢
    exact signTail_of_le h hb

/-- The tails of an element move on, stay within the bits available, and give one word each. -/
theorem tails_bounds {linbits maxv : Nat} {ms : List Nat} {ws : List Word} {u : Nat} (hu : used ≤ avail)
    (h : tails bit avail linbits maxv ms used = some (ws, u)) : used ≤ u ∧ u ≤ avail ∧ ws.length = ms.length := by
  induction ms generalizing used ws with
  | nil =>
    cases h
    exact ⟨le_refl _, hu, rfl⟩
  | cons m ms ih =>
    obtain ⟨w, u1, ws', h1, h2, rfl⟩ := tails_cons_eq_some h
    obtain ⟨hle, hle'⟩ := tail_bounds hu h1
    obtain ⟨hl, hl', hlen⟩ := ih hle' h2
    exact ⟨hle.trans hl, hl', by rw [List.length_cons, hlen, List.length_cons]⟩

theorem tails_of_le {linbits maxv b : Nat} {ms : List Nat} {ws : List Word} {u : Nat} (hu : used ≤ avail)
    (h : tails bit avail linbits maxv ms used = some (ws, u)) (hb : u ≤ b) :
    tails bit b linbits maxv ms used = some (ws, u) := by
  induction ms generalizing used ws with
  | nil => exact h
  | cons m ms ih =>
    obtain ⟨w, u1, ws', h1, h2, rfl⟩ := tails_cons_eq_some h
    have hu1 := (tail_bounds hu h1).2
    have hle := (tails_bounds hu1 h2).1
    simp only [tails, tail_of_le h1 (hle.trans hb), ih hu1 h2]

/-- An element decoded moves on, stays within the bits available, and has `size` words. -/
theorem CodeTable.decode_bounds {ws : List Word} {u : Nat} (hu : used ≤ avail) (h : T.decode bit avail used = .ok (ws, u)) :
    used < u ∧ u ≤ avail ∧ ws.length = T.size := by
  obtain ⟨e, hm, ht⟩ := CodeTable.decode_eq_ok_iff.mp h
  obtain ⟨he, hl⟩ := matchCode_found hm
  have hpos := codeWellFormed_length T.wf (List.mem_map_of_mem he)
  obtain ⟨hle, hle', hlen⟩ := tails_bounds (by omega) ht
  exact ⟨by omega, hle', hlen.trans (T.mags_length e)⟩

/-- An element that is decoded is decoded the same with any bits available that hold it. -/
theorem CodeTable.decode_of_le {b : Nat} {ws : List Word} {u : Nat} (hu : used ≤ avail)
    (h : T.decode bit avail used = .ok (ws, u)) (hb : u ≤ b) : T.decode bit b used = .ok (ws, u) := by
  obtain ⟨e, hm, ht⟩ := CodeTable.decode_eq_ok_iff.mp h
  obtain ⟨he, hl⟩ := matchCode_found hm
  have hle := (tails_bounds (by omega) ht).1
  have hc := (streamContinues_iff_of_le hl).mp (streamContinues_of_matchCode_found hm)
  refine CodeTable.decode_eq_ok_iff.mpr ⟨e, matchCode_eq_found T.wf he (by omega) ?_, tails_of_le (by omega) ht hb⟩
  exact fun i b' _ => hc i b'

theorem CodeTable.le_run_used (hu : used ≤ avail) (n : Nat) : used ≤ (T.run untilEnd bit avail n used).used := by
  induction n generalizing used with
  | zero => exact le_refl _
  | succ n ih =>
    rw [CodeTable.run]
    split
    · exact le_refl _
    · split
      · exact le_refl _
      · rename_i ws u hd
        obtain ⟨hlt, hle, -⟩ := CodeTable.decode_bounds hu hd
        exact hlt.le.trans (ih hle)

/-- A loop that decoded all its elements does the same with any bits available that hold them. -/
theorem CodeTable.run_of_le {b n : Nat} (hu : used ≤ avail) (hc : (T.run untilEnd bit avail n used).code = .none)
    (hl : (T.run untilEnd bit avail n used).words.length = T.size * n) (hb : (T.run untilEnd bit avail n used).used ≤ b) :
    T.run untilEnd bit b n used = T.run untilEnd bit avail n used := by
  induction n generalizing used with
  | zero => rfl
  | succ n ih =>
    by_cases hend : untilEnd = true ∧ avail ≤ used
    · rw [CodeTable.run_succ_of_end hend] at hl
      have hpos : 0 < T.size * (n + 1) := Nat.mul_pos T.size_pos n.succ_pos
      exact absurd hl hpos.ne
    · cases hd : T.decode bit avail used with
      | error code =>
        rw [CodeTable.run_succ_of_error hend hd] at hc
        exact absurd hc (CodeTable.decode_error_ne_none hd)
      | ok r =>
        obtain ⟨ws, u⟩ := r
        obtain ⟨hlt, hle, hlen⟩ := CodeTable.decode_bounds hu hd
        rw [CodeTable.run_succ_of_ok hend hd] at hc hl hb ⊢
        simp only [Decoded.prepend, List.length_append, hlen, Nat.mul_succ] at hc hl hb
        have hub : u ≤ b := (CodeTable.le_run_used hle n).trans hb
        rw [CodeTable.run_succ_of_ok (by omega) (CodeTable.decode_of_le hu hd hub), ih hle hc (by omega) hb]

end

/-! ## What the loop of a command gives in a state -/

theorem pairsDecoded_of_code {s : State} {c : CtxId} {tab : BitVec 5} {t : PairCode} (ht : pairTable s.cfg tab = .code t) (nv : BitVec 10) :
    pairsDecoded c tab nv s = (pairCodeTable t).run false (s.commandBit c) s.a1.toNat (nv.toNat / 2) 0 := by
  rw [pairsDecoded, ht, decodePairs_eq_run]

theorem quadsDecoded_eq (s : State) (c : CtxId) (t : QuadCode) (nv : BitVec 10) :
    quadsDecoded c t nv s = (quadCodeTable t).run true (s.commandBit c) s.a1.toNat (nv.toNat / 4) 0 :=
  decodeQuads_eq_run _ _ _ _ _

theorem streamContinues_of_startsWith {s : State} {c : CtxId} {bits : List Bool} (h : streamStartsWith s c bits) (avail : Nat) :
    streamContinues (s.commandBit c) avail 0 bits := by
  intro i b _ hb
  rw [Nat.zero_add]
  exact h i b hb

theorem streamContinues_of_available {s : State} {c : CtxId} {bits : List Bool} {avail : Nat}
    (h : ∀ i b, i < avail → bits[i]? = some b → s.commandBit c i = b) : streamContinues (s.commandBit c) avail 0 bits := by
  intro i b hi hb
  rw [Nat.zero_add] at hi ⊢
  exact h i b hi hb

theorem pairItems_encode {t : PairCode} {items : List PairItem} (h : ∀ p ∈ items, p.ofTable t) :
    ∀ p ∈ items, (pairCodeTable t).Encodes (PairItem.bits t p) (PairItem.words t p) := fun p hp => PairItem.encodes (h p hp)

theorem quadItems_encode {t : QuadCode} {items : List QuadItem} (h : ∀ q ∈ items, q.entry ∈ t.entries) :
    ∀ q ∈ items, (quadCodeTable t).Encodes (QuadItem.bits q) (QuadItem.words q) := fun q hq => QuadItem.encodes (h q hq)

theorem pairWords_length (t : PairCode) (items : List PairItem) : (items.flatMap (PairItem.words t)).length = 2 * items.length := by
  induction items with
  | nil => rfl
  | cons p items ih =>
    rw [List.flatMap_cons, List.length_append, ih, List.length_cons, Nat.mul_succ, Nat.add_comm]
    rfl

theorem quadWords_length (items : List QuadItem) : (items.flatMap QuadItem.words).length = 4 * items.length := by
  induction items with
  | nil => rfl
  | cons q items ih =>
    rw [List.flatMap_cons, List.length_append, ih, List.length_cons, Nat.mul_succ, Nat.add_comm]
    rfl

/-! ## The commands (R192, R194, R195) -/

/-- The common shape of both commands: the checks of R192, then the end of the loop that gave `d`. -/
def huffmanCommand (c : CtxId) (nv : Nat) (present : Bool) (d : Decoded) (fill r1 : Nat) (s : State) : State :=
  match huffmanError c nv present s with
  | some (code, r) => s.fail code r
  | none => huffmanEnd c d fill r1 s

section
variable {s : State} {c : CtxId} {tab : BitVec 5} {nv : BitVec 10}

theorem exec_hufPairs (s : State) (c : CtxId) (tab : BitVec 5) (nv : BitVec 10) :
    exec (.hufPairs c tab nv) s
      = .next (huffmanCommand c nv.toNat (decide (pairTable s.cfg tab ≠ .absent)) (pairsDecoded c tab nv s) 0 nv.toNat s) := rfl

theorem exec_hufQuads {t : QuadCode} (ht : quadTable s.cfg tab = some t) :
    exec (.hufQuads c tab nv) s
      = .next (huffmanCommand c nv.toNat true (quadsDecoded c t nv s) (nv.toNat - (quadsDecoded c t nv s).words.length)
          (quadsDecoded c t nv s).words.length s) := by
  rw [exec, execHufQuads, ht, huffmanCommand, Option.isSome_some]
  cases huffmanError c nv.toNat true s <;> rfl

theorem exec_hufQuads_of_none (ht : quadTable s.cfg tab = none) {code : ReturnCode} {r : Nat}
    (h : huffmanError c nv.toNat false s = some (code, r)) : exec (.hufQuads c tab nv) s = .next (s.fail code r) := by
  rw [exec, execHufQuads, ht, Option.isSome_none, h]

theorem huffmanCommand_of_error {nv : Nat} {present : Bool} {code : ReturnCode} {r : Nat}
    (h : huffmanError c nv present s = some (code, r)) (d : Decoded) (fill r1 : Nat) :
    huffmanCommand c nv present d fill r1 s = s.fail code r := by
  rw [huffmanCommand, h]

theorem huffmanCommand_of_ready {nv : Nat} {present : Bool} (hw : HuffmanReady c nv s) (hp : present = true) (d : Decoded)
    (fill r1 : Nat) : huffmanCommand c nv present d fill r1 s = huffmanEnd c d fill r1 s := by
  rw [huffmanCommand, (huffmanError_eq_none_iff _ _ _ _).mpr ⟨hw, hp⟩]

/-- A Huffman command is rejected by a check of R192, or it is ready and decodes. -/
theorem huffmanCommand_cases (c : CtxId) (nv : Nat) (present : Bool) (s : State) :
    (∃ code r, (code = .errOperand ∨ code = .errBus ∨ code = .needMoreData ∨ code = .errHuffTable)
        ∧ ∀ d fill r1, huffmanCommand c nv present d fill r1 s = s.fail code r)
      ∨ HuffmanReady c nv s ∧ present = true := by
  cases h : huffmanError c nv present s with
  | some e =>
    obtain ⟨code, r⟩ := e
    exact .inl ⟨code, r, huffmanError_failure h, huffmanCommand_of_error h⟩
  | none => exact .inr ((huffmanError_eq_none_iff _ _ _ _).mp h)

theorem huffmanEnd_of_none {d : Decoded} (h : d.code = .none) (fill r1 : Nat) :
    huffmanEnd c d fill r1 s = ((s.storeWords s.a0.toNat (d.words ++ List.replicate fill 0#32)).setPos c
      ((s.ctx c).pos.toNat + d.used)).succeed d.used r1 := if_pos h

theorem huffmanEnd_of_error {d : Decoded} (h : d.code ≠ .none) (fill r1 : Nat) :
    huffmanEnd c d fill r1 s = (s.storeWords s.a0.toNat d.words).fail d.code d.words.length := if_neg h

/-- `HUF.PAIRS` on a ready state with a table of codewords. -/
theorem exec_hufPairs_of_ready {t : PairCode} (hw : HuffmanReady c nv.toNat s) (ht : pairTable s.cfg tab = .code t) :
    exec (.hufPairs c tab nv) s = .next (huffmanEnd c
      ((pairCodeTable t).run false (s.commandBit c) s.a1.toNat (nv.toNat / 2) 0) 0 nv.toNat s) := by
  rw [exec_hufPairs, huffmanCommand_of_ready hw (by simp [ht]), pairsDecoded_of_code ht]

/-- `HUF.QUADS` on a ready state, the loop's result named. -/
theorem exec_hufQuads_of_ready {t : QuadCode} {d : Decoded} (hw : HuffmanReady c nv.toNat s) (ht : quadTable s.cfg tab = some t)
    (hd : (quadCodeTable t).run true (s.commandBit c) s.a1.toNat (nv.toNat / 4) 0 = d) :
    exec (.hufQuads c tab nv) s = .next (huffmanEnd c d (nv.toNat - d.words.length) d.words.length s) := by
  rw [exec_hufQuads ht, huffmanCommand_of_ready hw rfl, quadsDecoded_eq, hd]

/-! ## What a finished command leaves -/

theorem readWord_of_stored {t : State} {a : Nat} {ws : List Word} (hm : t.mem = (s.storeWords a ws).mem) {j : Nat} {w : Word}
    (h : ws[j]? = some w) : t.readWord (a + 4 * j) = w := by
  obtain ⟨hlt, rfl⟩ := List.getElem?_eq_some_iff.mp h
  rw [State.readWord_congr hm, State.readWord_storeWords _ _ _ _ hlt]

/-- All that a Huffman command that decoded to its end leaves in the machine (R194, R195). -/
theorem decoded_result {i : Instr} {ws : List Word} {used fill r1 n : Nat}
    (hx : exec i s = .next (huffmanEnd c ⟨ws, used, .none⟩ fill r1 s)) (hs : (s.ctx c).Sound) (hu : used ≤ (s.ctx c).avail)
    (hl : ws.length + fill = n) (hr : r1 < 2 ^ 32) :
    ∃ t, exec i s = .next t
      ∧ reports s t used r1
      ∧ (∀ j w, ws[j]? = some w → t.readWord (s.a0.toNat + 4 * j) = w)
      ∧ (∀ j, ws.length ≤ j → j < n → t.readWord (s.a0.toNat + 4 * j) = 0#32)
      ∧ t.ctx c = { s.ctx c with pos := (t.ctx c).pos }
      ∧ (t.ctx c).pos.toNat = (s.ctx c).pos.toNat + used
      ∧ (∀ d, d ≠ c → t.ctx d = s.ctx d)
      ∧ keepsMemoryBut s t s.a0.toNat (4 * n) ∧ keepsOperands s t ∧ keepsDsp s t ∧ keepsOutside s t := by
  obtain ⟨hp, hle⟩ := hs.toNat_advance hu
  obtain ⟨hlen, -⟩ := hs
  have hu32 : used < 2 ^ 32 := by simp only [lenMax] at hlen; omega
  rw [huffmanEnd_of_none rfl] at hx
  refine ⟨_, hx, ⟨rfl, Nat.mod_eq_of_lt hu32, Nat.mod_eq_of_lt hr, rfl, by simp⟩, fun j w hj => ?_, fun j hj hn => ?_,
    by simp, by simpa using hp, fun d hd => by simp [State.setPos_ctx_other _ _ _ _ hd], ?_, ?_⟩
  · obtain ⟨hlt, -⟩ := List.getElem?_eq_some_iff.mp hj
    exact readWord_of_stored (ws := ws ++ List.replicate fill 0#32) (s := s) (by simp) (by rwa [List.getElem?_append_left hlt])
  · refine readWord_of_stored (ws := ws ++ List.replicate fill 0#32) (s := s) (by simp) ?_
    rw [List.getElem?_append_right hj, List.getElem?_replicate, if_pos (by omega)]
  · exact keepsMemoryBut_storeWords (ws := ws ++ List.replicate fill 0#32) (by simp) (by simp [hl])
  · simp [keepsOperands, keepsDsp, keepsOutside]

/-- All that a Huffman command that met a data error leaves in the machine (R194, R195, 60_exceptions.md R334). -/
theorem broken_result {i : Instr} {ws : List Word} {code : ReturnCode} {used fill r1 : Nat}
    (hx : exec i s = .next (huffmanEnd c ⟨ws, used, code⟩ fill r1 s)) (hc : code ≠ .none) (hl : ws.length < 2 ^ 32) :
    ∃ t, exec i s = .next t
      ∧ t.rc = code.word ∧ t.r0 = 0#32 ∧ t.r1.toNat = ws.length ∧ t.eob = false ∧ t.estky = true
      ∧ (∀ j w, ws[j]? = some w → t.readWord (s.a0.toNat + 4 * j) = w)
      ∧ keepsContexts s t
      ∧ keepsMemoryBut s t s.a0.toNat (4 * ws.length) ∧ keepsOperands s t ∧ keepsDsp s t ∧ keepsOutside s t := by
  rw [huffmanEnd_of_error hc] at hx
  refine ⟨_, hx, rfl, rfl, Nat.mod_eq_of_lt hl, rfl, estkyAfter_failure _ _ (code.isFailure_iff.mpr hc),
    fun j w => readWord_of_stored (s := s) rfl, by simp [keepsContexts], keepsMemoryBut_storeWords rfl le_rfl, ?_⟩
  simp [keepsOperands, keepsDsp, keepsOutside]

end

/-! ## Encoded streams (R194, R195) -/

/-- Settles O25: the loop decodes all the items, and nothing is left to do behind them. -/
theorem pairsDecodeEncodedStream : Obligations.PairsDecodeEncodedStream := by
  unfold Obligations.PairsDecodeEncodedStream
  intro c tab nv s code items hw hs ht hn hi hstream hl
  have hrun := CodeTable.run_of_encoded (untilEnd := false) (pairItems_encode hi)
    (streamContinues_of_startsWith hstream s.a1.toNat) (by omega) 0
  have hx := exec_hufPairs_of_ready hw ht
  rw [show nv.toNat / 2 = items.length + 0 by omega, hrun, Nat.zero_add] at hx
  simp only [Decoded.prepend, CodeTable.run, List.append_nil] at hx
  have hnv := nv.isLt
  obtain ⟨t, ht, hrep, hwords, -, hrest⟩ := decoded_result hx hs (hl.trans hw.enough) (n := nv.toNat)
    (by rw [pairWords_length, hn, Nat.add_zero]) (by omega)
  exact ⟨t, ht, hrep, hwords, hrest⟩

/-- Settles O26: the loop gives zeros and consumes nothing, so the cursor is written back as it was. -/
theorem pairsOfZeroTable : Obligations.PairsOfZeroTable := by
  unfold Obligations.PairsOfZeroTable
  intro c tab nv s hw ht hwf
  have heven : 2 * (nv.toNat / 2) = nv.toNat := by
    have := (of_decide_eq_true hwf).2
    omega
  have hd : pairsDecoded c tab nv s = ⟨List.replicate nv.toNat 0#32, 0, .none⟩ := by
    rw [pairsDecoded, ht, decodePairs_zero, heven]
  have hx := exec_hufPairs s c tab nv
  rw [huffmanCommand_of_ready hw (by simp [ht]), hd, huffmanEnd_of_none rfl] at hx
  have hnv : nv.toNat < 2 ^ 32 := nv.isLt.trans (by decide)
  refine ⟨_, hx, ⟨rfl, rfl, Nat.mod_eq_of_lt hnv, rfl, by simp⟩, fun j hj => ?_, ?_, ?_, ?_⟩
  · exact readWord_of_stored (ws := List.replicate nv.toNat 0#32) (s := s) (by simp) (by simp [hj])
  · cases c <;> simp [keepsContexts, State.setPos, State.ctx]
  · exact keepsMemoryBut_storeWords (ws := List.replicate nv.toNat 0#32) (by simp) (by simp)
  · simp [keepsOperands, keepsDsp, keepsOutside]

/-- Settles O27: the loop decodes all the items and stops behind them, at the last available bit or with no room for four words. -/
theorem quadsDecodeEncodedStream : Obligations.QuadsDecodeEncodedStream := by
  unfold Obligations.QuadsDecodeEncodedStream
  intro c tab nv s code items hw hs ht hi hroom hstream hl hend
  have hrun := CodeTable.run_of_encoded (untilEnd := true) (quadItems_encode hi)
    (streamContinues_of_startsWith hstream s.a1.toNat) (by omega) (nv.toNat / 4 - items.length)
  have hstop : (quadCodeTable code).run true (s.commandBit c) s.a1.toNat (nv.toNat / 4 - items.length)
      (items.flatMap QuadItem.bits).length = ⟨[], (items.flatMap QuadItem.bits).length, .none⟩ := by
    cases hk : nv.toNat / 4 - items.length with
    | zero => rfl
    | succ k => exact CodeTable.run_succ_of_end ⟨rfl, by omega⟩ k
  rw [Nat.zero_add, show items.length + (nv.toNat / 4 - items.length) = nv.toNat / 4 by omega, hstop] at hrun
  have hx := exec_hufQuads_of_ready hw ht hrun
  simp only [Decoded.prepend, List.append_nil, quadWords_length] at hx
  have hnv := nv.isLt
  have hfinal := decoded_result hx hs (hl.trans hw.enough) (n := nv.toNat) (by rw [quadWords_length]; omega) (by omega)
  rwa [quadWords_length] at hfinal

/-! ## Truncated and broken streams (R191, R198) -/

/-- Settles O28: the loop stops at the pair inside which the available bits end. -/
theorem truncatedPairsOverrun : Obligations.TruncatedPairsOverrun := by
  unfold Obligations.TruncatedPairsOverrun
  intro c tab nv s code items hw ht hn hi hcut hstream
  obtain ⟨k, hk, hfit, hnext⟩ := exists_cut_element hcut
  have hlen : ((items.take k).flatMap (PairItem.words code)).length = 2 * k := by
    rw [pairWords_length, List.length_take, Nat.min_eq_left hk.le]
  have hx := exec_hufPairs_of_ready hw ht
  rw [CodeTable.run_of_truncated (pairItems_encode hi) (streamContinues_of_available hstream) hk (by omega) hfit hnext
    (by simp)] at hx
  have hnv := nv.isLt
  obtain ⟨t, ht, hrc, hr0, hr1, hrest⟩ := broken_result hx (by decide) (by omega)
  rw [hlen] at hr1 hrest
  rw [← Nat.mul_assoc] at hrest
  exact ⟨t, k, ht, hk, hfit, hnext, hrc, hr0, hr1, hrest⟩

/-- Settles O29: the loop stops at the quad inside which the available bits end; it begins before their end, so the loop does not stop
between two quads. -/
theorem truncatedQuadsOverrun : Obligations.TruncatedQuadsOverrun := by
  unfold Obligations.TruncatedQuadsOverrun
  intro c tab nv s code items hw ht hi hroom hcut hbetween hstream
  obtain ⟨k, hk, hfit, hnext⟩ := exists_cut_element hcut
  have hlen : ((items.take k).flatMap QuadItem.words).length = 4 * k := by
    rw [quadWords_length, List.length_take, Nat.min_eq_left hk.le]
  have hx := exec_hufQuads_of_ready hw ht (CodeTable.run_of_truncated (n := nv.toNat / 4) (quadItems_encode hi)
    (streamContinues_of_available hstream) hk (by omega) hfit hnext fun _ => hbetween k)
  have hnv := nv.isLt
  obtain ⟨t, ht, hrc, hr0, hr1, hrest⟩ := broken_result hx (by decide) (by omega)
  rw [hlen] at hr1 hrest
  rw [← Nat.mul_assoc] at hrest
  exact ⟨t, k, ht, hk, lt_of_le_of_ne hfit (hbetween k), hnext, hrc, hr0, hr1, hrest⟩

/-- A codeword that differs from the stream in an available bit does not go on there. -/
theorem not_streamContinues {bit : Nat → Bool} {avail used : Nat} {str : List Bool}
    (h : ∃ i b, str[i]? = some b ∧ used + i < avail ∧ bit (used + i) ≠ b) : ¬streamContinues bit avail used str := by
  obtain ⟨i, b, hb, hi, hne⟩ := h
  exact fun hc => hne (hc i b hi hb)

/-- Settles O30: the loop decodes the elements before and stops where no codeword comes next. -/
theorem invalidCodewordStops : Obligations.InvalidCodewordStops := by
  unfold Obligations.InvalidCodewordStops
  constructor
  · intro c tab nv s code items hw ht hi hroom hstream used hno
    have hx := exec_hufPairs_of_ready hw ht
    rw [CodeTable.run_of_noCode (pairItems_encode hi) (streamContinues_of_startsWith hstream _) (by omega)
      (fun e he => not_streamContinues (hno e he))] at hx
    have hnv := nv.isLt
    have hlen := pairWords_length code items
    have hfinal := broken_result hx (by decide) (by omega)
    rwa [hlen, ← Nat.mul_assoc] at hfinal
  · intro c tab nv s code items hw ht hi hroom hstream used hno
    have hx := exec_hufQuads_of_ready hw ht (CodeTable.run_of_noCode (n := nv.toNat / 4) (quadItems_encode hi)
      (streamContinues_of_startsWith hstream _) (by omega) (fun e he => not_streamContinues (hno e he)))
    have hnv := nv.isLt
    have hlen := quadWords_length items
    have hfinal := broken_result hx (by decide) (by omega)
    rwa [hlen, ← Nat.mul_assoc] at hfinal

/-! ## The words a command reports (R197) -/

/-- Word `j` of the destination is one that the command's results say was written: all `nv` on success, `R1` on a data error. -/
def reportsWord (t : State) (nv j : Nat) : Prop :=
  (t.rc = 0#32 ∧ j < nv) ∨ ((t.rc = 0xFFFFFFFF#32 ∨ t.rc = 0xFFFFFFFE#32) ∧ j < t.r1.toNat)

/-- A code of R192 is no success and no data error. -/
theorem word_of_rejected {code : ReturnCode}
    (hc : code = .errOperand ∨ code = .errBus ∨ code = .needMoreData ∨ code = .errHuffTable) :
    code.word ≠ 0#32 ∧ code.word ≠ 0xFFFFFFFF#32 ∧ code.word ≠ 0xFFFFFFFE#32 := by
  rcases hc with rfl | rfl | rfl | rfl <;> decide

theorem not_reportsWord_of_rejected {s : State} {code : ReturnCode} {r nv j : Nat}
    (hc : code = .errOperand ∨ code = .errBus ∨ code = .needMoreData ∨ code = .errHuffTable) :
    ¬reportsWord (s.fail code r) nv j := by
  obtain ⟨hnone, hover, hcode⟩ := word_of_rejected hc
  rintro (⟨h, -⟩ | ⟨h | h, -⟩)
  · exact hnone h
  · exact hover h
  · exact hcode h

/-- A loop's result fits the destination: no more than `nv` words, and all of them, with the fill, when it ended well. -/
def Decoded.fitsRoom (d : Decoded) (fill nv : Nat) : Prop := d.words.length ≤ nv ∧ (d.code = .none → d.words.length + fill = nv)

/-- A word that a command reports is one of the loop's words, or of the zero fill, in its place. -/
theorem huffmanEnd_reportsWord {s : State} {c : CtxId} {d : Decoded} {fill r1 nv j : Nat} (hd : d.fitsRoom fill nv) (hn : nv < 2 ^ 32)
    (h : reportsWord (huffmanEnd c d fill r1 s) nv j) :
    ∃ w, (d.words ++ List.replicate fill 0#32)[j]? = some w ∧ (huffmanEnd c d fill r1 s).readWord (s.a0.toNat + 4 * j) = w := by
  obtain ⟨hle, hall⟩ := hd
  by_cases hc : d.code = .none
  · rw [huffmanEnd_of_none hc] at h ⊢
    have hj : j < (d.words ++ List.replicate fill 0#32).length := by
      rw [List.length_append, List.length_replicate, hall hc]
      rcases h with ⟨-, hj⟩ | ⟨h | h, -⟩
      · exact hj
      · exact absurd h (by simp [ReturnCode.word, ReturnCode.toInt])
      · exact absurd h (by simp [ReturnCode.word, ReturnCode.toInt])
    have hget := List.getElem?_eq_getElem hj
    exact ⟨_, hget, readWord_of_stored (s := s) (by simp) hget⟩
  · rw [huffmanEnd_of_error hc] at h ⊢
    have hj : j < d.words.length := by
      rcases h with ⟨h, -⟩ | ⟨-, hj⟩
      · exact absurd (ReturnCode.word_injective _ .none h) hc
      · rwa [State.fail_r1, BitVec.toNat_ofNat, Nat.mod_eq_of_lt (by omega)] at hj
    have hget := List.getElem?_eq_getElem hj
    exact ⟨_, (List.getElem?_append_left hj).trans hget, readWord_of_stored (s := s) rfl hget⟩

/-- All that the loop of `HUF.PAIRS` can give: two words a pair and all pairs, or a data error and fewer. -/
theorem pairsDecoded_spec {s : State} (c : CtxId) {tab : BitVec 5} (nv : BitVec 10) (ht : pairTable s.cfg tab ≠ .absent) :
    (pairsDecoded c tab nv s).used ≤ s.a1.toNat
      ∧ ((pairsDecoded c tab nv s).code = .none ∧ (pairsDecoded c tab nv s).words.length = 2 * (nv.toNat / 2)
        ∨ (pairsDecoded c tab nv s).code ≠ .none ∧ (pairsDecoded c tab nv s).words.length < 2 * (nv.toNat / 2)) := by
  obtain ⟨-, hu, hd⟩ := decodePairs_spec (pairTable s.cfg tab) (s.commandBit c) s.a1.toNat (nv.toNat / 2) 0 (Nat.zero_le _) ht
  refine ⟨hu, hd.imp id fun ⟨hc, hl, _⟩ => ⟨fun h => ?_, hl⟩⟩
  rw [show (decodePairs _ _ _ _ _).code = .none from h] at hc
  simp at hc

/-- All that the loop of `HUF.QUADS` can give: four words a quad, no more than there is room for. -/
theorem quadsDecoded_spec (s : State) (c : CtxId) (t : QuadCode) (nv : BitVec 10) :
    (quadsDecoded c t nv s).used ≤ s.a1.toNat ∧ (quadsDecoded c t nv s).words.length ≤ 4 * (nv.toNat / 4)
      ∧ (quadsDecoded c t nv s).words.length % 4 = 0 := by
  obtain ⟨-, hu, hl, hm, -⟩ := decodeQuads_spec t (s.commandBit c) s.a1.toNat (nv.toNat / 4) 0 (Nat.zero_le _)
  exact ⟨hu, hl, hm⟩

/-- What `HUF.PAIRS` decodes fits its destination, `NV` being even. -/
theorem pairsDecoded_fitsRoom {s : State} (c : CtxId) {tab : BitVec 5} {nv : BitVec 10} (ht : pairTable s.cfg tab ≠ .absent)
    (he : nv.toNat % 2 = 0) : (pairsDecoded c tab nv s).fitsRoom 0 nv.toNat := by
  rcases (pairsDecoded_spec c nv ht).2 with ⟨-, hl⟩ | ⟨hc, hl⟩
  · exact ⟨by omega, fun _ => by omega⟩
  · exact ⟨by omega, fun h => absurd h hc⟩

/-- What `HUF.QUADS` decodes fits its destination, with the zero fill behind it. -/
theorem quadsDecoded_fitsRoom (s : State) (c : CtxId) (t : QuadCode) (nv : BitVec 10) :
    (quadsDecoded c t nv s).fitsRoom (nv.toNat - (quadsDecoded c t nv s).words.length) nv.toNat := by
  obtain ⟨-, hl, -⟩ := quadsDecoded_spec s c t nv
  have hle : (quadsDecoded c t nv s).words.length ≤ nv.toNat := by omega
  exact ⟨hle, fun _ => Nat.add_sub_cancel' hle⟩

theorem pairsDecoded_words (s : State) (c : CtxId) {tab : BitVec 5} (nv : BitVec 10) (ht : pairTable s.cfg tab ≠ .absent) :
    ∀ w ∈ (pairsDecoded c tab nv s).words, isCoefficientWord w := by
  cases h : pairTable s.cfg tab with
  | absent => exact absurd h ht
  | zero =>
    rw [pairsDecoded, h, decodePairs_zero]
    intro w hw
    rw [List.eq_of_mem_replicate hw]
    exact isCoefficientWord_zero
  | code t =>
    rw [pairsDecoded_of_code h]
    exact CodeTable.run_words _ _ _ _ _ _

/-- The table of a well-formed `HUF.QUADS` is there (R190). -/
theorem exists_quadTable (cfg : Config) {tab : BitVec 5} (h : tab.toNat ≤ 1) : ∃ t, quadTable cfg tab = some t :=
  ⟨_, Vector.getElem?_eq_getElem (by omega)⟩

/-- A command that reports words has its table, and a word it reports is one of its loop's or of the zero fill, in its place. -/
theorem huffmanCommand_reportsWord {s : State} {c : CtxId} {nv : Nat} {present : Bool} {d : Decoded} {fill r1 j : Nat}
    (hd : present = true → d.fitsRoom fill nv) (hn : nv < 2 ^ 32)
    (h : reportsWord (huffmanCommand c nv present d fill r1 s) nv j) :
    present = true ∧ ∃ w, (d.words ++ List.replicate fill 0#32)[j]? = some w
      ∧ (huffmanCommand c nv present d fill r1 s).readWord (s.a0.toNat + 4 * j) = w := by
  rcases huffmanCommand_cases c nv present s with ⟨code, r, hc, hx⟩ | ⟨hw, hp⟩
  · rw [hx] at h
    exact absurd h (not_reportsWord_of_rejected hc)
  · rw [huffmanCommand_of_ready hw hp] at h ⊢
    exact ⟨hp, huffmanEnd_reportsWord (hd hp) hn h⟩

theorem isCoefficientWord_of_fill {ws : List Word} (hw : ∀ w ∈ ws, isCoefficientWord w) {fill j : Nat} {w : Word}
    (h : (ws ++ List.replicate fill 0#32)[j]? = some w) : isCoefficientWord w := by
  rcases List.mem_append.mp (List.mem_of_getElem? h) with hm | hm
  · exact hw w hm
  · rw [List.eq_of_mem_replicate hm]
    exact isCoefficientWord_zero

/-- Settles O31: a reported word is one the loop gave, whose words come from `signTail`, or one of the zero fill. -/
theorem huffmanOutputWords : Obligations.HuffmanOutputWords := by
  unfold Obligations.HuffmanOutputWords
  intro c tab nv s t i hi hwf hx j hj
  have hnv : nv.toNat < 2 ^ 32 := nv.isLt.trans (by decide)
  simp only [List.mem_cons, List.not_mem_nil, or_false] at hi
  rcases hi with rfl | rfl
  · have heven := (of_decide_eq_true hwf).2
    rw [exec_hufPairs] at hx
    cases hx
    obtain ⟨hp, w, hget, hread⟩ :=
      huffmanCommand_reportsWord (fun hp => pairsDecoded_fitsRoom c (of_decide_eq_true hp) heven) hnv hj
    rw [hread]
    exact isCoefficientWord_of_fill (pairsDecoded_words s c nv (of_decide_eq_true hp)) hget
  · obtain ⟨htab, -⟩ := Bool.and_eq_true_iff.mp hwf
    obtain ⟨q, hq⟩ := exists_quadTable s.cfg (of_decide_eq_true htab)
    rw [exec_hufQuads hq] at hx
    cases hx
    obtain ⟨-, w, hget, hread⟩ := huffmanCommand_reportsWord (fun _ => quadsDecoded_fitsRoom s c q nv) hnv hj
    rw [hread]
    refine isCoefficientWord_of_fill ?_ hget
    rw [quadsDecoded_eq]
    exact CodeTable.run_words _ _ _ _ _ _

/-! ## What a command reads (R198) -/

/-- The state with other memory, other changed bits and another draw of free values. -/
def State.withStreams (s : State) (m : Memory) (q0 q1 : StaleMap) (d : Nat) : State :=
  { s with mem := m, stale0 := q0, stale1 := q1, draws := d }

section
variable (s : State) (m : Memory) (q0 q1 : StaleMap) (d : Nat)

@[simp] theorem State.withStreams_ctx (c : CtxId) : (s.withStreams m q0 q1 d).ctx c = s.ctx c := by
  cases c <;> rfl

theorem huffmanError_withStreams (c : CtxId) (nv : Nat) (present : Bool) :
    huffmanError c nv present (s.withStreams m q0 q1 d) = huffmanError c nv present s := by
  cases c <;> rfl

/-- Where the bytes of the buffer and the free bits are the same, the bits available are. -/
theorem commandBit_withStreams_of_buffer {c : CtxId} (ha : s.a1.toNat ≤ (s.ctx c).avail)
    (h : ∀ a, (s.ctx c).base.toNat ≤ a → a < (s.ctx c).base.toNat + (s.ctx c).len.toNat →
      (s.withStreams m s.stale0 s.stale1 s.draws).readByte a = s.readByte a) :
    agreeBelow s.a1.toNat (s.commandBit c) ((s.withStreams m s.stale0 s.stale1 s.draws).commandBit c) := by
  intro i hi
  have hj : (s.ctx c).pos.toNat + i < 8 * (s.ctx c).len.toNat := by
    unfold BitCtx.avail at ha
    omega
  have hfreed : (s.withStreams m s.stale0 s.stale1 s.draws).freed c = s.freed c := by
    cases c <;> rfl
  have hbit : (s.withStreams m s.stale0 s.stale1 s.draws).memoryBit c ((s.ctx c).pos.toNat + i)
      = s.memoryBit c ((s.ctx c).pos.toNat + i) := by
    rw [State.memoryBit, State.withStreams_ctx, h _ (Nat.le_add_right _ _) (by omega), State.memoryBit]
  rw [State.commandBit, State.withStreams_ctx, State.sbit, hfreed, hbit]
  rfl

end

theorem pairsDecoded_withStreams {s : State} {c : CtxId} {m : Memory} {q0 q1 : StaleMap} {d : Nat}
    (h : agreeBelow s.a1.toNat (s.commandBit c) ((s.withStreams m q0 q1 d).commandBit c)) (tab : BitVec 5) (nv : BitVec 10) :
    pairsDecoded c tab nv (s.withStreams m q0 q1 d) = pairsDecoded c tab nv s := by
  have hcfg : (s.withStreams m q0 q1 d).cfg = s.cfg := rfl
  cases ht : pairTable s.cfg tab with
  | absent =>
    rw [pairsDecoded, pairsDecoded, hcfg, ht]
    cases nv.toNat / 2 <;> rfl
  | zero => rw [pairsDecoded, pairsDecoded, hcfg, ht, decodePairs_zero, decodePairs_zero]
  | code t =>
    rw [pairsDecoded_of_code (s := s.withStreams m q0 q1 d) ht, pairsDecoded_of_code ht]
    exact CodeTable.run_congr h _

theorem quadsDecoded_withStreams {s : State} {c : CtxId} {m : Memory} {q0 q1 : StaleMap} {d : Nat}
    (h : agreeBelow s.a1.toNat (s.commandBit c) ((s.withStreams m q0 q1 d).commandBit c)) (t : QuadCode) (nv : BitVec 10) :
    quadsDecoded c t nv (s.withStreams m q0 q1 d) = quadsDecoded c t nv s := by
  rw [quadsDecoded_eq, quadsDecoded_eq]
  exact CodeTable.run_congr h _

/-- The results of the two runs are the same, and so is every word they report. -/
def sameResults (nv a : Nat) (t t' : State) : Prop :=
  t'.rc = t.rc ∧ t'.r0 = t.r0 ∧ t'.r1 = t.r1 ∧ t'.eob = t.eob ∧ t'.estky = t.estky ∧ keepsContexts t t'
    ∧ ∀ j, reportsWord t nv j → t'.readWord (a + 4 * j) = t.readWord (a + 4 * j)

theorem reportsWord_congr {t t' : State} (hc : t'.rc = t.rc) (hr : t'.r1 = t.r1) {nv j : Nat} (h : reportsWord t nv j) :
    reportsWord t' nv j := by
  unfold reportsWord at h ⊢
  rwa [hc, hr]

/-- The results of a command's end depend on what its loop gave, not on memory or the streams. -/
theorem huffmanEnd_withStreams (s : State) (c : CtxId) (m : Memory) (q0 q1 : StaleMap) (x : Nat) (d : Decoded) (fill r1 : Nat) :
    let t := huffmanEnd c d fill r1 s
    let t' := huffmanEnd c d fill r1 (s.withStreams m q0 q1 x)
    t'.rc = t.rc ∧ t'.r0 = t.r0 ∧ t'.r1 = t.r1 ∧ t'.eob = t.eob ∧ t'.estky = t.estky ∧ keepsContexts t t' := by
  by_cases hc : d.code = .none
  · rw [huffmanEnd_of_none hc, huffmanEnd_of_none hc]
    cases c <;> simp [keepsContexts, State.withStreams, State.setPos, State.ctx]
  · rw [huffmanEnd_of_error hc, huffmanEnd_of_error hc]
    simp [keepsContexts, State.withStreams]

/-- Storing the same words over another memory, a command ends the same. -/
theorem huffmanEnd_sameResults (s : State) (c : CtxId) (m : Memory) (q0 q1 : StaleMap) (x : Nat) {d : Decoded} {fill r1 nv : Nat}
    (hd : d.fitsRoom fill nv) (hn : nv < 2 ^ 32) :
    sameResults nv s.a0.toNat (huffmanEnd c d fill r1 s) (huffmanEnd c d fill r1 (s.withStreams m q0 q1 x)) := by
  obtain ⟨hrc, hr0, hr1, heob, hsticky, hctx⟩ := huffmanEnd_withStreams s c m q0 q1 x d fill r1
  refine ⟨hrc, hr0, hr1, heob, hsticky, hctx, fun j hj => ?_⟩
  obtain ⟨w, hget, hread⟩ := huffmanEnd_reportsWord hd hn hj
  obtain ⟨w', hget', hread'⟩ := huffmanEnd_reportsWord hd hn (reportsWord_congr hrc hr1 hj)
  rw [hread]
  exact hread'.trans (Option.some.inj (hget'.symm.trans hget))

/-- A command that decodes the same when it is ready has the same results. -/
theorem huffmanCommand_sameResults {s : State} {c : CtxId} {m : Memory} {q0 q1 : StaleMap} {x nv : Nat} {present : Bool}
    {d d' : Decoded} {room r1 : Decoded → Nat} (hd : present = true → d.fitsRoom (room d) nv) (hn : nv < 2 ^ 32)
    (h : HuffmanReady c nv s → d' = d) :
    sameResults nv s.a0.toNat (huffmanCommand c nv present d (room d) (r1 d) s)
      (huffmanCommand c nv present d' (room d') (r1 d') (s.withStreams m q0 q1 x)) := by
  have he := huffmanError_withStreams s m q0 q1 x c nv present
  cases hs : huffmanError c nv present s with
  | some e =>
    obtain ⟨code, r⟩ := e
    rw [huffmanCommand_of_error hs, huffmanCommand_of_error (he.trans hs)]
    exact ⟨rfl, rfl, rfl, rfl, rfl, ⟨rfl, rfl⟩, fun j hj => absurd hj (not_reportsWord_of_rejected (huffmanError_failure hs))⟩
  | none =>
    obtain ⟨hw, hp⟩ := (huffmanError_eq_none_iff _ _ _ _).mp hs
    obtain ⟨hw', -⟩ := (huffmanError_eq_none_iff _ _ _ _).mp (he.trans hs)
    rw [h hw, huffmanCommand_of_ready hw hp, huffmanCommand_of_ready hw' hp]
    exact huffmanEnd_sameResults s c m q0 q1 x (hd hp) hn

/-- Settles O32: in a ready state the loop reads only available bits, which lie in the buffer; the checks read no stream at all. -/
theorem huffmanReadsOnlyAvailableBits : Obligations.HuffmanReadsOnlyAvailableBits := by
  unfold Obligations.HuffmanReadsOnlyAvailableBits
  rintro c tab nv s _ m q0 q1 d rfl hsame i hi hwf
  have hnv : nv.toNat < 2 ^ 32 := nv.isLt.trans (by decide)
  have hbits : HuffmanReady c nv.toNat s →
      agreeBelow s.a1.toNat (s.commandBit c) ((s.withStreams m q0 q1 d).commandBit c) := by
    intro hw
    rcases hsame with h | ⟨rfl, rfl, rfl, h⟩
    · exact h
    · exact commandBit_withStreams_of_buffer s m hw.enough h
  simp only [List.mem_cons, List.not_mem_nil, or_false] at hi
  rcases hi with rfl | rfl
  · have heven := (of_decide_eq_true hwf).2
    exact ⟨_, _, exec_hufPairs s c tab nv, exec_hufPairs _ c tab nv,
      huffmanCommand_sameResults (room := fun _ => 0) (r1 := fun _ => nv.toNat)
        (fun hp => pairsDecoded_fitsRoom c (of_decide_eq_true hp) heven) hnv
        fun hw => pairsDecoded_withStreams (hbits hw) tab nv⟩
  · obtain ⟨htab, -⟩ := Bool.and_eq_true_iff.mp hwf
    obtain ⟨q, hq⟩ := exists_quadTable s.cfg (of_decide_eq_true htab)
    exact ⟨_, _, exec_hufQuads hq, exec_hufQuads (s := s.withStreams m q0 q1 d) hq,
      huffmanCommand_sameResults (room := fun d => nv.toNat - d.words.length) (r1 := fun d => d.words.length)
        (fun _ => quadsDecoded_fitsRoom s c q nv) hnv fun hw => quadsDecoded_withStreams (hbits hw) q nv⟩

/-! ## More available bits (R200) -/

/-- The state with `A1` at another value. -/
def State.withA1 (s : State) (b : Word) : State := { s with a1 := b }

section
variable (s : State) (b : Word)

@[simp] theorem State.withA1_ctx (c : CtxId) : (s.withA1 b).ctx c = s.ctx c := by
  cases c <;> rfl

theorem State.withA1_commandBit (c : CtxId) : (s.withA1 b).commandBit c = s.commandBit c := by
  cases c <;> rfl

theorem State.storeBytes_withA1 (a : Nat) (bs : List Byte) : (s.withA1 b).storeBytes a bs = (s.storeBytes a bs).withA1 b := by
  induction bs generalizing s a with
  | nil => rfl
  | cons x bs ih => exact ih (s.storeByte a x) (a + 1)

theorem State.storeWords_withA1 (a : Nat) (ws : List Word) : (s.withA1 b).storeWords a ws = (s.storeWords a ws).withA1 b :=
  s.storeBytes_withA1 b a _

theorem State.setPos_withA1 (c : CtxId) (p : Nat) : (s.withA1 b).setPos c p = (s.setPos c p).withA1 b := by
  cases c <;> rfl

theorem huffmanEnd_withA1 {c : CtxId} {d : Decoded} (hd : d.code = .none) (fill r1 : Nat) :
    huffmanEnd c d fill r1 (s.withA1 b) = (huffmanEnd c d fill r1 s).withA1 b := by
  have ha : (s.withA1 b).a0 = s.a0 := rfl
  rw [huffmanEnd_of_none hd, huffmanEnd_of_none hd, ha, State.storeWords_withA1, State.withA1_ctx, State.setPos_withA1]
  rfl

theorem HuffmanReady.withA1 {s : State} {b : Word} {c : CtxId} {nv : Nat} (hw : HuffmanReady c nv s)
    (hb : b.toNat ≤ (s.ctx c).avail) : HuffmanReady c nv (s.withA1 b) := by
  obtain ⟨hvalid, hord, halign, hfits, hapart, hwrite, -⟩ := hw
  rw [← State.withA1_ctx s b] at hvalid hord hapart hb
  exact ⟨hvalid, hord, halign, hfits, hapart, hwrite, hb⟩

end

/-- A command that succeeds passed its checks and decoded to the end of its loop. -/
theorem huffmanCommand_of_success {s : State} {c : CtxId} {nv : Nat} {present : Bool} {d : Decoded} {fill r1 : Nat}
    (h : (huffmanCommand c nv present d fill r1 s).rc = 0#32) :
    HuffmanReady c nv s ∧ present = true ∧ d.code = .none := by
  rcases huffmanCommand_cases c nv present s with ⟨code, r, hc, hx⟩ | ⟨hw, hp⟩
  · rw [hx] at h
    exact absurd h (word_of_rejected hc).1
  · refine ⟨hw, hp, ?_⟩
    by_contra hc
    rw [huffmanCommand_of_ready hw hp, huffmanEnd_of_error hc] at h
    exact hc (ReturnCode.word_injective _ .none h)

/-- The results of a command that succeeds. -/
theorem huffmanCommand_results {s : State} {c : CtxId} {nv : Nat} {present : Bool} {d : Decoded} {fill r1 : Nat}
    (h : (huffmanCommand c nv present d fill r1 s).rc = 0#32) (hu : d.used ≤ s.a1.toNat) (hr : r1 < 2 ^ 32) :
    (huffmanCommand c nv present d fill r1 s).r0.toNat = d.used ∧ (huffmanCommand c nv present d fill r1 s).r1.toNat = r1 := by
  obtain ⟨hw, hp, hc⟩ := huffmanCommand_of_success h
  rw [huffmanCommand_of_ready hw hp, huffmanEnd_of_none hc]
  exact ⟨Nat.mod_eq_of_lt (hu.trans_lt s.a1.isLt), Nat.mod_eq_of_lt hr⟩

/-- A command that succeeds does the same with other bits available, where its loop gives the same. -/
theorem huffmanCommand_withA1 {s : State} {c : CtxId} {nv : Nat} {present : Bool} {d : Decoded} {fill r1 : Nat} {b : Word}
    (h : (huffmanCommand c nv present d fill r1 s).rc = 0#32) (hb : b.toNat ≤ (s.ctx c).avail) :
    huffmanCommand c nv present d fill r1 (s.withA1 b) = (huffmanCommand c nv present d fill r1 s).withA1 b := by
  obtain ⟨hw, hp, hc⟩ := huffmanCommand_of_success h
  rw [huffmanCommand_of_ready hw hp, huffmanCommand_of_ready (hw.withA1 hb) hp, huffmanEnd_withA1 s b hc]

/-- What `HUF.PAIRS` decoded to its end, it decodes with any bits available that hold it. -/
theorem pairsDecoded_withA1 {s : State} {c : CtxId} {tab : BitVec 5} {nv : BitVec 10} {b : Word}
    (ht : pairTable s.cfg tab ≠ .absent) (hc : (pairsDecoded c tab nv s).code = .none)
    (hb : (pairsDecoded c tab nv s).used ≤ b.toNat) : pairsDecoded c tab nv (s.withA1 b) = pairsDecoded c tab nv s := by
  have hcfg : (s.withA1 b).cfg = s.cfg := rfl
  cases h : pairTable s.cfg tab with
  | absent => exact absurd h ht
  | zero => rw [pairsDecoded, pairsDecoded, hcfg, h, decodePairs_zero, decodePairs_zero]
  | code t =>
    have hl : (pairsDecoded c tab nv s).words.length = 2 * (nv.toNat / 2) := by simpa [hc] using (pairsDecoded_spec c nv ht).2
    rw [pairsDecoded_of_code h] at hc hb hl ⊢
    rw [pairsDecoded_of_code (s := s.withA1 b) h, State.withA1_commandBit]
    exact CodeTable.run_of_le (Nat.zero_le _) hc hl hb

/-- What `HUF.QUADS` decoded until it had no room left, it decodes with any bits available that hold it. -/
theorem quadsDecoded_withA1 {s : State} {c : CtxId} {t : QuadCode} {nv : BitVec 10} {b : Word}
    (hc : (quadsDecoded c t nv s).code = .none) (hroom : nv.toNat < (quadsDecoded c t nv s).words.length + 4)
    (hb : (quadsDecoded c t nv s).used ≤ b.toNat) : quadsDecoded c t nv (s.withA1 b) = quadsDecoded c t nv s := by
  obtain ⟨-, hl, hm⟩ := quadsDecoded_spec s c t nv
  have hall : (quadsDecoded c t nv s).words.length = 4 * (nv.toNat / 4) := by omega
  rw [quadsDecoded_eq] at hc hb hall ⊢
  rw [quadsDecoded_eq, State.withA1_commandBit]
  exact CodeTable.run_of_le (Nat.zero_le _) hc hall hb

/-- `HUF.QUADS` without its table fails. -/
theorem exec_hufQuads_rc_of_none {s t : State} {c : CtxId} {tab : BitVec 5} {nv : BitVec 10} (ht : quadTable s.cfg tab = none)
    (hx : exec (.hufQuads c tab nv) s = .next t) : t.rc ≠ 0#32 := by
  cases h : huffmanError c nv.toNat false s with
  | none => cases ((huffmanError_eq_none_iff _ _ _ _).mp h).2
  | some e =>
    obtain ⟨code, r⟩ := e
    rw [exec_hufQuads_of_none ht h] at hx
    cases hx
    exact (word_of_rejected (huffmanError_failure h)).1

/-- Settles O33: the checks and the loop go the same way with any bits available that hold what was decoded. -/
theorem monotoneInAvailableBits : Obligations.MonotoneInAvailableBits := by
  unfold Obligations.MonotoneInAvailableBits
  constructor
  · intro c tab nv s t b hx hrc hu hb
    rw [exec_hufPairs] at hx
    cases hx
    obtain ⟨-, hp, hc⟩ := huffmanCommand_of_success hrc
    have ht := of_decide_eq_true hp
    have hnv := nv.isLt
    rw [(huffmanCommand_results hrc (pairsDecoded_spec c nv ht).1 (by omega)).1] at hu
    have hcfg : (s.withA1 b).cfg = s.cfg := rfl
    calc exec (.hufPairs c tab nv) (s.withA1 b)
      _ = .next (huffmanCommand c nv.toNat (decide (pairTable s.cfg tab ≠ .absent)) (pairsDecoded c tab nv s) 0 nv.toNat
          (s.withA1 b)) := by
        rw [exec_hufPairs, pairsDecoded_withA1 ht hc hu, hcfg]
      _ = _ := congrArg _ (huffmanCommand_withA1 hrc hb)
  · intro c tab nv s t b hx hrc hroom hu hb
    cases hq : quadTable s.cfg tab with
    | none => exact absurd hrc (exec_hufQuads_rc_of_none hq hx)
    | some q =>
      rw [exec_hufQuads hq] at hx
      cases hx
      obtain ⟨-, -, hc⟩ := huffmanCommand_of_success hrc
      obtain ⟨hused, hl, -⟩ := quadsDecoded_spec s c q nv
      have hnv := nv.isLt
      obtain ⟨hr0, hr1⟩ := huffmanCommand_results hrc hused (by omega)
      rw [hr0] at hu
      rw [hr1] at hroom
      calc exec (.hufQuads c tab nv) (s.withA1 b)
        _ = .next (huffmanCommand c nv.toNat true (quadsDecoded c q nv s) (nv.toNat - (quadsDecoded c q nv s).words.length)
            (quadsDecoded c q nv s).words.length (s.withA1 b)) := by
          rw [exec_hufQuads (s := s.withA1 b) hq, quadsDecoded_withA1 hc hroom hu]
        _ = _ := congrArg _ (huffmanCommand_withA1 hrc hb)

/-! ## The common checks (R192) -/

/-- The checks of R192 in numbers; with `NV` = 0 only (4) and (5) ask nothing (log entry 11). -/
theorem huffmanError_eq (c : CtxId) (nv : Nat) (present : Bool) (s : State) :
    huffmanError c nv present s =
      if (s.ctx c).valid = false then some (.errOperand, 0)
      else if (s.ctx c).ord ≠ .msb then some (.errOperand, 0)
      else if ¬(s.a0.toNat % 4 = 0 ∧ s.a0.toNat + 4 * nv ≤ 2 ^ 32) then some (.errOperand, 0)
      else if 0 < nv ∧ rangesOverlap s.a0.toNat (4 * nv) (s.ctx c).base.toNat (s.ctx c).len.toNat = true then some (.errOperand, 0)
      else if 0 < nv ∧ accessible s.cfg s.a0.toNat (4 * nv) .write = false then some (.errBus, 0)
      else if 8 * (s.ctx c).len.toNat - (s.ctx c).pos.toNat < s.a1.toNat then
        some (.needMoreData, 8 * (s.ctx c).len.toNat - (s.ctx c).pos.toNat)
      else if present = false then some (.errHuffTable, 0)
      else none := by
  have hfit : s.a0.toNat % 4 ≠ 0 ∨ (huffmanTarget nv s).fits = false
      ↔ ¬(s.a0.toNat % 4 = 0 ∧ s.a0.toNat + 4 * nv ≤ 2 ^ 32) := by
    have ha := s.a0.isLt
    rw [← Bool.not_eq_true, Region.fits_iff]
    simp only [huffmanTarget, addressSpace]
    omega
  have hclash : (huffmanTarget nv s).clashes (huffmanSource (s.ctx c)) = true
      ↔ 0 < nv ∧ rangesOverlap s.a0.toNat (4 * nv) (s.ctx c).base.toNat (s.ctx c).len.toNat = true := by
    simp only [Region.clashes, huffmanTarget, huffmanSource, Bool.true_or, Bool.true_and]
    refine ⟨fun h => ⟨?_, h⟩, And.right⟩
    obtain ⟨a, ha, -⟩ := (rangesOverlap_iff _ _ _ _).mp h
    omega
  have hreach : (huffmanTarget nv s).reachable s.cfg = false
      ↔ 0 < nv ∧ accessible s.cfg s.a0.toNat (4 * nv) .write = false := by
    simp [Region.reachable, huffmanTarget, Nat.pos_iff_ne_zero]
  simp only [huffmanError, hfit, hclash, hreach, BitCtx.avail, gt_iff_lt]

/-- Settles O22: each command ends with what `huffmanError` answers, if it answers a failure. -/
theorem huffmanChecksInOrder : Obligations.HuffmanChecksInOrder := by
  unfold Obligations.HuffmanChecksInOrder
  intro c tab nv s i hi x present
  obtain ⟨p, hp, hfail⟩ : ∃ p : Bool, (present ↔ p = true)
      ∧ ∀ code r, huffmanError c nv.toNat p s = some (code, r) → exec i s = .next (s.fail code r) := by
    simp only [List.mem_cons, List.not_mem_nil, or_false] at hi
    rcases hi with rfl | rfl
    · refine ⟨decide (pairTable s.cfg tab ≠ .absent), by simp [present], fun code r h => ?_⟩
      rw [exec_hufPairs, huffmanCommand_of_error h]
    · cases hq : quadTable s.cfg tab with
      | none => exact ⟨false, by simp [present, hq], fun code r h => exec_hufQuads_of_none hq h⟩
      | some q =>
        refine ⟨true, by simp [present, hq], fun code r h => ?_⟩
        rw [exec_hufQuads hq, huffmanCommand_of_error h]
  rw [huffmanError_eq] at hfail
  simp only [hp, Bool.not_eq_true]
  split_ifs at hfail ⊢ <;> exact hfail _ _ rfl

end Sys2Proof.Machine
end

section
/-! The obligations of 42_imdct.md. `IMDCT.RUN` on a ready state stores the words of `imdctResult`, of which, on guarded input, the
word of a subband and time-slot is a sample of `transformBlock`; what it leaves unchanged is known of every command. Silence is the
case where every kernel maps zero to zero (R231, KP2). -/

namespace Sys2Proof.Machine

/-! ## Window classes and alias-reduction boundaries (R232) -/

theorem windowClass_pure (bt : WindowClass) (sb : Nat) : windowClass bt false sb = bt := if_neg (by simp)

theorem windowClass_mixed (sb : Nat) : windowClass .short true sb = if sb < 2 then .normal else .short := by simp [windowClass]

/-- `MIX` = 1 is legal for short blocks only (30_encoding.md R122). -/
theorem legalMix_true_eq_false {bt : WindowClass} (h : bt ≠ .short) : legalMix bt true = false := by simp [legalMix, h]

/-- Settles O34: each row of the table by its class, and `MIX` with another block type than short by `legalMix`. -/
theorem windowClassTable : Obligations.WindowClassTable := by
  unfold Obligations.WindowClassTable
  exact ⟨fun bt sb => windowClass_pure bt sb, fun sb => windowClass_mixed sb, rfl, rfl, rfl, rfl, rfl,
    fun bt h => ⟨legalMix_true_eq_false h, legalMix_true_eq_false h⟩⟩

/-! ## Alias reduction (R233) -/

section
variable (cfg : Config)

/-- A step replaces the two subbands of its boundary by what the kernel makes of them. -/
theorem aliasStep_pair (z : Granule) {sb : Nat} (h : sb + 1 < 32) :
    ((aliasStep cfg sb z)[sb], (aliasStep cfg sb z)[sb + 1]) = aliasK cfg z[sb] z[sb + 1] := by
  simp [aliasStep, h]

/-- A step leaves the other subbands unchanged. -/
theorem aliasStep_other (z : Granule) {sb j : Nat} (hj : j < 32) (h : j ≠ sb) (h' : j ≠ sb + 1) :
    (aliasStep cfg sb z)[j] = z[j] := by
  unfold aliasStep
  split
  · rw [Vector.getElem_set_ne _ _ h'.symm, Vector.getElem_set_ne _ _ h.symm]
  · rfl

/-- The first `nb` steps reach no subband beyond the last boundary. -/
theorem aliasReduce_beyond (x : Granule) {nb j : Nat} (hj : j < 32) (h : nb < j) : (aliasReduce cfg x nb)[j] = x[j] := by
  induction nb with
  | zero => rfl
  | succ nb ih => rw [aliasReduce, aliasStep_other cfg _ hj (by omega) (by omega), ih (by omega)]

end

/-- Settles O35: step `nb` is `aliasStep` between `nb` and `nb + 1` on the result of the steps before it. -/
theorem aliasReductionOrder : Obligations.AliasReductionOrder := by
  unfold Obligations.AliasReductionOrder
  exact fun cfg => ⟨fun _ => rfl, fun x nb h => aliasStep_pair cfg (aliasReduce cfg x nb) h,
    fun x nb j _ hj => aliasStep_other cfg (aliasReduce cfg x nb) hj, fun x nb j hj => aliasReduce_beyond cfg x hj⟩

/-! ## The guard bit (R237, 00_scope.md R8) -/

/-- A word has a guard bit exactly when bit 30 equals bit 31. -/
theorem one_le_gbits_iff (w : Word) : 1 ≤ gbits w ↔ w.getLsbD 30 = w.getLsbD 31 := by
  rw [gbits, signRun]
  split
  case isTrue h => exact iff_of_true (Nat.le_add_left _ _) h
  case isFalse h => exact iff_of_false (by decide) h

/-- Bits 31 and 30 are equal exactly in the middle half of the signed range. -/
theorem getLsbD_30_eq_31_iff (w : Word) : w.getLsbD 30 = w.getLsbD 31 ↔ -2 ^ 30 ≤ w.toInt ∧ w.toInt < 2 ^ 30 := by
  have hw := w.isLt
  simp only [BitVec.getLsbD, Nat.testBit_eq_decide_div_mod_eq, decide_eq_decide, BitVec.toInt_eq_toNat_cond]
  omega

/-- Settles O60: a guard bit is bit 30 equal to bit 31. -/
theorem guardBitRange : Obligations.GuardBitRange := by
  unfold Obligations.GuardBitRange
  exact ⟨fun w => (one_le_gbits_iff w).trans (getLsbD_30_eq_31_iff w), by decide, by decide, by decide, by decide, by decide, by decide⟩

/-- All words of a granule are guarded when each has a guard bit. -/
theorem Granule.guarded_of_forall {x : Granule} (h : ∀ (sb : Fin 32) (k : Fin 18), 1 ≤ gbits x[sb][k]) : x.guarded = true := by
  simp only [Granule.guarded, Vector.all_eq_true]
  exact fun sb hsb k hk => decide_eq_true (h ⟨sb, hsb⟩ ⟨k, hk⟩)

/-! ## The input (R230) -/

theorem State.readGranule_get (s : State) (b : Nat) (sb : Fin 32) (k : Fin 18) :
    (s.readGranule b)[sb][k] = s.readWord (b + 4 * (18 * sb.val + k.val)) := by simp [State.readGranule]

/-- What holds of the 576 words at an address holds of every coefficient of the granule there. -/
theorem State.forall_readGranule {s : State} {b : Nat} {P : Word → Prop} (h : ∀ j : Fin 576, P (s.readWord (b + 4 * j.val)))
    (sb : Fin 32) (k : Fin 18) : P (s.readGranule b)[sb][k] := by
  rw [State.readGranule_get]
  exact h ⟨18 * sb.val + k.val, by omega⟩

/-! ## The output (R230, R235) -/

theorem granuleOutput_get? (rows : Vector (Block × Overlap) 32) (sb : Fin 32) (k : Fin 18) :
    (granuleOutput rows)[32 * k.val + sb.val]? = some (invertFrequency sb k rows[sb].1[k]) := by
  have hj : 32 * k.val + sb.val < 576 := by omega
  have hsb : (32 * k.val + sb.val) % 32 = sb := by omega
  have hk : (32 * k.val + sb.val) / 32 = k := by omega
  rw [granuleOutput, List.getElem?_ofFn, dif_pos hj]
  simp only [hsb, hk]
  rfl

/-! ## The checks (R234) -/

section
variable {s : State} {ch : Channel} {bt : WindowClass} {mix : Bool}

/-- The regions of `IMDCT.RUN` are right as operands exactly when they are aligned, end in the address space and lie apart. -/
theorem imdctRegions_operands_iff (s : State) :
    ((imdctRegions s).all Region.fits = true ∧ anyClash (imdctRegions s) = false)
      ↔ (s.a0.toNat % 4 = 0 ∧ s.a0.toNat + 2304 ≤ 2 ^ 32) ∧ (s.a1.toNat % 4 = 0 ∧ s.a1.toNat + 2304 ≤ 2 ^ 32)
        ∧ rangesOverlap s.a0.toNat 2304 s.a1.toNat 2304 = false := by
  simp [imdctRegions, anyClash_pair, Region.clashes, Region.fits_iff, addressSpace, and_assoc]

theorem imdctRegions_reachable (s : State) :
    (imdctRegions s).all (fun r => r.reachable s.cfg)
      = (accessible s.cfg s.a0.toNat 2304 .read && accessible s.cfg s.a1.toNat 2304 .write) := by
  simp [imdctRegions, Region.reachable]

theorem exec_imdctRun_of_error {code : ReturnCode} (h : regionError s.cfg (imdctRegions s) = some code) :
    exec (.imdctRun ch bt mix) s = .next (s.fail code 0) := by
  rw [exec, execImdctRun, h]

end

/-- Settles O36: the command ends with the code its region check answers. -/
theorem imdctFailures : Obligations.ImdctFailures := by
  unfold Obligations.ImdctFailures
  intro ch bt mix s bad
  have hbad : bad ↔ ¬((imdctRegions s).all Region.fits = true ∧ anyClash (imdctRegions s) = false) := by
    rw [imdctRegions_operands_iff, ← Bool.not_eq_true]
    simp only [bad, ← Nat.not_le]
    tauto
  refine ⟨fun h => exec_imdctRun_of_error ((regionError_eq_operand_iff _ _).mpr (hbad.mp h)), fun h hacc => ?_⟩
  obtain ⟨hfit, hclash⟩ := not_not.mp (mt hbad.mpr h)
  rw [← Bool.and_eq_false_iff, ← imdctRegions_reachable] at hacc
  exact exec_imdctRun_of_error ((regionError_eq_bus_iff _ _).mpr ⟨hfit, hclash, hacc⟩)

/-! ## The command (R234) -/

section
variable {s : State} {ch : Channel} {bt : WindowClass} {mix : Bool}

/-- The samples and the new retained half of a subband (R234). -/
theorem transformAll_get (s : State) (ch : Channel) (bt : WindowClass) (mix : Bool) (x : Granule) (sb : Fin 32) :
    (transformAll s ch bt mix x)[sb] = transformBlock s.cfg (aliasReduce s.cfg x (aliasBoundaries bt mix))[sb] s.ovl[ch][sb]
      (windowClass bt mix sb.val) s.prevWin[ch][sb] := by simp [transformAll]

theorem imdctResult_of_guarded {x : Granule} (h : x.guarded = true) :
    imdctResult s ch bt mix x = (granuleOutput (transformAll s ch bt mix x), (transformAll s ch bt mix x).map Prod.snd) := if_pos h

/-- What `IMDCT.RUN` leaves on a ready state, given its words and its new overlap. -/
def imdctEnd (ch : Channel) (bt : WindowClass) (mix : Bool) (r : List Word × Vector Overlap 32) (s : State) : State :=
  State.succeed { s.storeWords s.a1.toNat r.1 with
    ovl := s.ovl.set ch r.2
    prevWin := s.prevWin.set ch (Vector.ofFn fun sb => windowClass bt mix sb.val) } 0 0

theorem exec_imdctRun_of_ready (h : ImdctReady s) :
    exec (.imdctRun ch bt mix) s = .next (imdctEnd ch bt mix (imdctResult s ch bt mix (s.readGranule s.a0.toNat)) s) := by
  rw [exec, execImdctRun, (regionError_imdct_iff s).mpr h]
  rfl

theorem imdctEnd_reports (r : List Word × Vector Overlap 32) : reports s (imdctEnd ch bt mix r s) 0 0 := by
  simp [reports, imdctEnd, ReturnCode.word, ReturnCode.toInt]

theorem imdctEnd_prevWin (r : List Word × Vector Overlap 32) (sb : Fin 32) :
    (imdctEnd ch bt mix r s).prevWin[ch][sb] = windowClass bt mix sb.val := by
  simp [imdctEnd]

theorem imdctEnd_ovl (r : List Word × Vector Overlap 32) : (imdctEnd ch bt mix r s).ovl[ch] = r.2 := by
  simp [imdctEnd]

theorem imdctEnd_mem (r : List Word × Vector Overlap 32) :
    (imdctEnd ch bt mix r s).mem = (s.storeWords s.a1.toNat r.1).mem := rfl

theorem imdctEnd_readWord {ws : List Word} {j : Nat} {w : Word} (h : ws[j]? = some w) (ovl : Vector Overlap 32) :
    (imdctEnd ch bt mix (ws, ovl) s).readWord (s.a1.toNat + 4 * j) = w := readWord_of_stored (imdctEnd_mem (ws, ovl)) h

/-- A ready `IMDCT.RUN` completes and records the window classes; on guarded input each subband leaves its transform. -/
theorem exec_imdctRun_subbands (h : ImdctReady s) :
    ∃ t, exec (.imdctRun ch bt mix) s = .next t ∧ reports s t 0 0 ∧ (∀ sb : Fin 32, t.prevWin[ch][sb] = windowClass bt mix sb.val)
      ∧ ((s.readGranule s.a0.toNat).guarded = true → ∀ sb : Fin 32,
        let r := transformBlock s.cfg (aliasReduce s.cfg (s.readGranule s.a0.toNat) (aliasBoundaries bt mix))[sb] s.ovl[ch][sb]
          (windowClass bt mix sb.val) s.prevWin[ch][sb]
        t.ovl[ch][sb] = r.2
          ∧ ∀ k : Fin 18, t.readWord (s.a1.toNat + 4 * (32 * k.val + sb.val)) = invertFrequency sb k r.1[k]) := by
  refine ⟨_, exec_imdctRun_of_ready h, imdctEnd_reports _, imdctEnd_prevWin _, fun hg sb => ?_⟩
  rw [imdctResult_of_guarded hg, ← transformAll_get, imdctEnd_ovl]
  exact ⟨Vector.getElem_map _ _, fun k => imdctEnd_readWord (granuleOutput_get? _ sb k) _⟩

end

/-- Settles O37 (`imdctResult` is the model's own name): each subband leaves its transform, and that the rest is unchanged is what is
known of every command. -/
theorem imdctRunResult : Obligations.ImdctResult := by
  unfold Obligations.ImdctResult
  refine ⟨State.readGranule_get, fun ch bt mix s hs => ?_⟩
  obtain ⟨t, hx, hrep, hwin, hsub⟩ := exec_imdctRun_subbands (ch := ch) (bt := bt) (mix := mix) hs
  have hctx := fun d => exec_ctx_of_not_named (d := d) hx (by simp) (by simp [namedContext])
  obtain ⟨hvbuf, hvidx⟩ := exec_keepsRings hx (by simp) (by simp)
  refine ⟨t, hx, hrep, fun hg sb => ?_, hwin, fun d hd => ?_, hvbuf, hvidx, commandsWriteOnlyTheirRegion _ _ _ hx,
    exec_keepsOperands hx (by simp), ⟨hctx .bs0, hctx .bs1⟩, exec_keepsOutside hx⟩
  · exact hsub (Granule.guarded_of_forall (State.forall_readGranule (P := fun w => 1 ≤ gbits w) hg)) sb
  · exact exec_keepsOverlap hx (by simp) fun bt' mix' he => hd (Instr.imdctRun.inj he).1.symm

/-! ## Silence (R231, KP2) -/

/-- A granule of zeros. -/
def zeroGranule : Granule := Vector.replicate 32 (zeros 18)

theorem zeroGranule_get (sb : Fin 32) : zeroGranule[sb] = zeros 18 := by simp [zeroGranule]

theorem zeroGranule_guarded : zeroGranule.guarded = true :=
  Granule.guarded_of_forall fun sb k => by
    rw [zeroGranule_get, show (zeros 18)[k] = 0#32 by simp]
    decide

theorem readGranule_eq_zero {s : State} {b : Nat} (h : ∀ j : Fin 576, s.readWord (b + 4 * j.val) = 0#32) :
    s.readGranule b = zeroGranule := by
  refine Vector.ext fun sb hsb => Vector.ext fun k hk => ?_
  have := State.forall_readGranule (P := fun w => w = 0#32) h ⟨sb, hsb⟩ ⟨k, hk⟩
  simpa [zeroGranule] using this

section
variable (cfg : Config)

theorem aliasK_zeros : aliasK cfg (zeros 18) (zeros 18) = (zeros 18, zeros 18) := if_pos ⟨rfl, rfl⟩

theorem transformBlock_zeros (wc wp : WindowClass) : transformBlock cfg (zeros 18) (zeros 9) wc wp = (zeros 18, zeros 9) := by
  unfold transformBlock
  split
  · exact if_pos ⟨rfl, rfl⟩
  · exact if_pos ⟨rfl, rfl⟩

theorem aliasStep_zero (sb : Nat) : aliasStep cfg sb zeroGranule = zeroGranule := by
  unfold aliasStep
  split
  · simp [zeroGranule, aliasK_zeros]
  · rfl

/-- Alias reduction of a granule of zeros gives zeros. -/
theorem aliasReduce_zero (nb : Nat) : aliasReduce cfg zeroGranule nb = zeroGranule := by
  induction nb with
  | zero => rfl
  | succ nb ih => rw [aliasReduce, ih, aliasStep_zero]

theorem invertFrequency_zero (sb t : Nat) : invertFrequency sb t 0#32 = 0#32 := by
  unfold invertFrequency
  split <;> rfl

end

/-- Settles O38: zeros are guarded, and alias reduction and every transform keep them. -/
theorem imdctSilence : Obligations.ImdctSilence := by
  unfold Obligations.ImdctSilence
  intro ch bt mix s hs hin hovl
  obtain ⟨t, hx, ⟨hrc, -⟩, hwin, hsub⟩ := exec_imdctRun_subbands (ch := ch) (bt := bt) (mix := mix) hs
  rw [readGranule_eq_zero hin] at hsub
  simp only [aliasReduce_zero, zeroGranule_get, hovl, transformBlock_zeros] at hsub
  replace hsub := hsub zeroGranule_guarded
  refine ⟨t, hx, hrc, fun j => ?_, fun sb => ⟨(hsub sb).1, hwin sb⟩⟩
  have hj := (hsub ⟨j.val % 32, by omega⟩).2 ⟨j.val / 32, by omega⟩
  simpa [Nat.div_add_mod, invertFrequency_zero] using hj

end Sys2Proof.Machine
end

section
/-! The obligations of 43_synthesis.md. `SYN.RUN` on a ready state leaves `synEnd`: the rings and samples of `synthChannel`, which on
guarded input are the kernels' (R262), stored in the layout of the format (R260). What it leaves unchanged is known of every command.
Silence is the case where both kernels map zero to zero (R261, KP2). -/

namespace Sys2Proof.Machine

/-! ## Rounding and saturation (R263) -/

/-- `rshr v k` counts the whole steps of `2^k` in `v` and half a step. -/
theorem rshr_bounds (v : Int) (k : Nat) : rshr v k * 2 ^ k ≤ v + 2 ^ (k - 1) ∧ v + 2 ^ (k - 1) < (rshr v k + 1) * 2 ^ k :=
  ⟨Int.ediv_mul_le _ (by positivity), Int.lt_ediv_add_one_mul_self _ (by positivity)⟩

theorem sat16_eq_clip (v : Int) : sat16 v = max (-32768) (min 32767 v) := by
  unfold sat16
  split_ifs <;> omega

/-- A clipped value fits a halfword, so a sample's pattern loses nothing. -/
theorem pcmSample_toInt (cfg : Config) (acc : BitVec 64) : (pcmSample cfg acc).toInt = sat16 (rshr acc.toInt cfg.synFracBits) := by
  rw [pcmSample, sat16_eq_clip]
  exact BitVec.toInt_ofInt_eq_self (by decide) (by omega) (by omega)

/-- Settles O42: the floor's bounds, the clip, and a sample as one after the other; the rule's examples by evaluation. -/
theorem pcmRounding : Obligations.PcmRounding := by
  unfold Obligations.PcmRounding
  exact ⟨fun v k _ => rshr_bounds v k, sat16_eq_clip, pcmSample_toInt, by decide, by decide, by decide, by decide, by decide,
    by decide, by decide⟩

/-! ## The checks (R262) -/

theorem pcmBytes_pos (stereo : Bool) (fmt : PcmFormat) : 0 < pcmBytes stereo fmt := by
  cases fmt <;> cases stereo <;> decide

section
variable (stereo : Bool) (fmt : PcmFormat) (s : State)

/-- The regions of `SYN.RUN` are right as operands exactly when they are aligned and end in the address space, and the output lies
apart from the inputs; channel 1's input counts in stereo only. -/
theorem synRegions_operands_iff :
    ((synRegions s stereo fmt).all Region.fits = true ∧ anyClash (synRegions s stereo fmt) = false)
      ↔ (s.a2.toNat % pcmAlign fmt = 0 ∧ s.a2.toNat + pcmBytes stereo fmt ≤ 2 ^ 32)
        ∧ (s.a0.toNat % 4 = 0 ∧ s.a0.toNat + 128 ≤ 2 ^ 32) ∧ (stereo = true → s.a1.toNat % 4 = 0 ∧ s.a1.toNat + 128 ≤ 2 ^ 32)
        ∧ rangesOverlap s.a2.toNat (pcmBytes stereo fmt) s.a0.toNat 128 = false
        ∧ (stereo = true → rangesOverlap s.a2.toNat (pcmBytes stereo fmt) s.a1.toNat 128 = false) := by
  have hout := (pcmBytes_pos stereo fmt).ne'
  cases stereo with
  | false => simp [synRegions, anyClash, Region.clashes, Region.fits_iff, hout, addressSpace, and_assoc]
  | true => simp [synRegions, anyClash, Region.clashes, Region.fits_iff, hout, addressSpace, and_assoc]

/-- They are reachable exactly when the output can be written and the inputs read. -/
theorem synRegions_reachable_iff :
    (synRegions s stereo fmt).all (fun r => r.reachable s.cfg) = true
      ↔ accessible s.cfg s.a2.toNat (pcmBytes stereo fmt) .write = true ∧ accessible s.cfg s.a0.toNat 128 .read = true
        ∧ (stereo = true → accessible s.cfg s.a1.toNat 128 .read = true) := by
  have hout := (pcmBytes_pos stereo fmt).ne'
  cases stereo with
  | false => simp [synRegions, Region.reachable, hout]
  | true => simp [synRegions, Region.reachable, hout]

variable {stereo fmt s}

theorem exec_synRun_of_error {code : ReturnCode} (h : regionError s.cfg (synRegions s stereo fmt) = some code) :
    exec (.synRun stereo fmt) s = .next (s.fail code 0) := by
  rw [exec, execSynRun, h]

end

/-- Settles O39: the command ends with the code its region check answers. -/
theorem synFailures : Obligations.SynFailures := by
  unfold Obligations.SynFailures
  intro stereo fmt s n al bad
  have hn : n = pcmBytes stereo fmt := by cases fmt <;> cases stereo <;> rfl
  have hal : al = pcmAlign fmt := by cases fmt <;> rfl
  have hbad : bad ↔ ¬((synRegions s stereo fmt).all Region.fits = true ∧ anyClash (synRegions s stereo fmt) = false) := by
    rw [synRegions_operands_iff, ← hn, ← hal]
    simp only [bad, ← Nat.not_le, ← Bool.not_eq_true]
    tauto
  refine ⟨fun h => exec_synRun_of_error ((regionError_eq_operand_iff _ _).mpr (hbad.mp h)), fun h hacc => ?_⟩
  obtain ⟨hfit, hclash⟩ := not_not.mp (mt hbad.mpr h)
  refine exec_synRun_of_error ((regionError_eq_bus_iff _ _).mpr ⟨hfit, hclash, ?_⟩)
  rw [← Bool.not_eq_true, synRegions_reachable_iff, ← hn]
  simp only [← Bool.not_eq_true] at hacc
  tauto

/-! ## One channel (R262) -/

section
variable {s : State} {ch : Channel}

/-- All words of an input are guarded when each has a guard bit. -/
theorem readWords_guarded {b : Nat} (h : ∀ j : Fin 32, 1 ≤ gbits (s.readWord (b + 4 * j.val))) :
    (s.readWords b 32).all guarded = true := by
  simp only [State.readWords, Vector.all_eq_true, Vector.getElem_ofFn]
  exact fun j hj => decide_eq_true (h ⟨j, hj⟩)

theorem writeSlot_other (ring : Vector Slot 8) {vidx : BitVec 3} (x : Slot) {slot : Fin 8} (h : slot.val ≠ vidx.toNat) :
    (writeSlot ring vidx x)[slot] = ring[slot] := by
  rw [writeSlot]
  exact Vector.getElem_set_ne _ _ h.symm

/-- Guarded input or not, a channel's ring changes in the slot `VIDX` alone. -/
theorem synthChannel_otherSlot (s : State) (ch : Channel) {slot : Fin 8} (h : slot.val ≠ s.vidx.toNat) :
    (synthChannel s ch).1[slot] = s.vbuf[ch][slot] := by
  simp only [synthChannel]
  split <;> exact writeSlot_other _ _ h

/-- On guarded input the new slot is `DCT32_K` of the input, and the samples are those of the ring by age. -/
theorem synthChannel_of_guarded (h : ∀ j : Fin 32, 1 ≤ gbits (s.readWord (synSource s ch + 4 * j.val))) :
    (synthChannel s ch).1 = writeSlot s.vbuf[ch] s.vidx (dct32K s.cfg (s.readWords (synSource s ch) 32))
      ∧ (synthChannel s ch).2 = (polyK s.cfg (agedRing (synthChannel s ch).1 s.vidx)).map (pcmSample s.cfg) := by
  simp [synthChannel, readWords_guarded h]

theorem synthChannel_sample (h : ∀ j : Fin 32, 1 ≤ gbits (s.readWord (synSource s ch + 4 * j.val))) (j : Fin 32) :
    ((synthChannel s ch).2[j]).toInt = synSampleOf s.cfg (synthChannel s ch).1 s.vidx j := by
  rw [(synthChannel_of_guarded h).2, Fin.getElem_fin, Vector.getElem_map, pcmSample_toInt]
  rfl

end

/-! ## The layout of the output (R260) -/

theorem pcmWord_toNat (p : Half) : (pcmWord p).toNat = p.toNat * 2 ^ 16 := by
  rw [pcmWord, toNat_append_eq_add]
  simp

section
variable {s t : State} {a : Nat} {p0 p1 : Vector Half 32}

theorem interleave_even (p0 p1 : Vector Half 32) (j : Fin 32) : (interleave p0 p1)[2 * j.val]? = some p0[j] := by
  have hj : 2 * j.val < 64 := by omega
  rw [interleave, List.getElem?_ofFn, dif_pos hj]
  simp

theorem interleave_odd (p0 p1 : Vector Half 32) (j : Fin 32) : (interleave p0 p1)[2 * j.val + 1]? = some p1[j] := by
  have hj : 2 * j.val + 1 < 64 := by omega
  have hd : (2 * j.val + 1) / 2 = j := by omega
  rw [interleave, List.getElem?_ofFn, dif_pos hj]
  simp [hd]

theorem readHalf_of_stored {hs : List Half} (hm : t.mem = (s.storeBytes a (hs.flatMap halfBytes)).mem) {j : Nat} {w : Half}
    (h : hs[j]? = some w) : t.readHalf (a + 2 * j) = w := by
  obtain ⟨hlt, rfl⟩ := List.getElem?_eq_some_iff.mp h
  rw [← State.readHalf_storeBytes_halves s a hs j hlt]
  simp only [State.readHalf, State.readByte_congr hm]

theorem readHalf_pcm16_mono (hm : t.mem = (s.storeBytes a (pcmOutput false .pcm16 p0 p1)).mem) (j : Fin 32) :
    t.readHalf (a + 2 * j.val) = p0[j] :=
  readHalf_of_stored (hs := p0.toList) hm (by simp)

theorem readHalf_pcm16_stereo (hm : t.mem = (s.storeBytes a (pcmOutput true .pcm16 p0 p1)).mem) (j : Fin 32) :
    t.readHalf (a + 4 * j.val) = p0[j] ∧ t.readHalf (a + 4 * j.val + 2) = p1[j] := by
  have hl := readHalf_of_stored hm (interleave_even p0 p1 j)
  have hr := readHalf_of_stored hm (interleave_odd p0 p1 j)
  rw [show 2 * (2 * j.val) = 4 * j.val by omega] at hl
  rw [show 2 * (2 * j.val + 1) = 4 * j.val + 2 by omega, ← Nat.add_assoc] at hr
  exact ⟨hl, hr⟩

/-- In mono a PCM32 output repeats the left sample on the right. -/
theorem pcmOutput_pcm32 (stereo : Bool) (p0 p1 : Vector Half 32) :
    pcmOutput stereo .pcm32 p0 p1 = ((interleave p0 (if stereo then p1 else p0)).map pcmWord).flatMap wordBytes := by
  cases stereo <;> rfl

theorem readWord_pcm32 {stereo : Bool} (hm : t.mem = (s.storeBytes a (pcmOutput stereo .pcm32 p0 p1)).mem) (j : Fin 32) :
    t.readWord (a + 8 * j.val) = pcmWord p0[j] ∧ t.readWord (a + 8 * j.val + 4) = pcmWord (if stereo then p1 else p0)[j] := by
  rw [pcmOutput_pcm32] at hm
  have hl := readWord_of_stored hm (j := 2 * j.val) (by rw [List.getElem?_map, interleave_even]; rfl)
  have hr := readWord_of_stored hm (j := 2 * j.val + 1) (by rw [List.getElem?_map, interleave_odd]; rfl)
  rw [show 4 * (2 * j.val) = 8 * j.val by omega] at hl
  rw [show 4 * (2 * j.val + 1) = 8 * j.val + 4 by omega, ← Nat.add_assoc] at hr
  exact ⟨hl, hr⟩

end

/-! ## The command (R262) -/

/-- What `SYN.RUN` leaves on a ready state. -/
def synEnd (stereo : Bool) (fmt : PcmFormat) (s : State) : State :=
  State.succeed { s.storeBytes s.a2.toNat (pcmOutput stereo fmt (synthChannel s 0).2 (synthChannel s 1).2) with
    vbuf := synthRings s stereo
    vidx := s.vidx + 7#3 } (32 * synChannels stereo) 0

section
variable {s : State} {stereo : Bool} {fmt : PcmFormat}

theorem exec_synRun_of_ready (h : SynReady stereo fmt s) : exec (.synRun stereo fmt) s = .next (synEnd stereo fmt s) := by
  rw [exec, execSynRun, regionError_syn h]
  rfl

theorem synEnd_reports : reports s (synEnd stereo fmt s) (if stereo then 64 else 32) 0 := by
  cases stereo <;> simp [reports, synEnd, synChannels, ReturnCode.word, ReturnCode.toInt]

theorem synEnd_mem :
    (synEnd stereo fmt s).mem = (s.storeBytes s.a2.toNat (pcmOutput stereo fmt (synthChannel s 0).2 (synthChannel s 1).2)).mem := rfl

theorem synEnd_vidx : (synEnd stereo fmt s).vidx.toNat = (s.vidx.toNat + 7) % 8 := BitVec.toNat_add _ _

theorem synEnd_overlap : (synEnd stereo fmt s).ovl = s.ovl ∧ (synEnd stereo fmt s).prevWin = s.prevWin := by simp [synEnd]

theorem synEnd_ringZero : (synEnd stereo fmt s).vbuf[0] = (synthChannel s 0).1 := by
  cases stereo <;> simp [synEnd, synthRings]

theorem synEnd_ringOne : (synEnd stereo fmt s).vbuf[1] = if stereo then (synthChannel s 1).1 else s.vbuf[1] := by
  cases stereo <;> simp [synEnd, synthRings]

theorem synEnd_otherSlot {slot : Fin 8} (h : slot.val ≠ s.vidx.toNat) :
    (synEnd stereo fmt s).vbuf[0][slot] = s.vbuf[0][slot] ∧ (synEnd stereo fmt s).vbuf[1][slot] = s.vbuf[1][slot] := by
  rw [synEnd_ringZero, synEnd_ringOne]
  refine ⟨synthChannel_otherSlot s 0 h, ?_⟩
  split
  · exact synthChannel_otherSlot s 1 h
  · rfl

end

/-- Settles O40: the samples are those of `synthChannel`; rings, indices and layout by the lemmas on `synEnd`, and that the rest is
unchanged is what is known of every command. -/
theorem synResult : Obligations.SynResult := by
  unfold Obligations.SynResult
  intro stereo fmt s hs
  have hx := exec_synRun_of_ready hs
  have hctx := fun d => exec_ctx_of_not_named (d := d) hx (by simp) (by simp [namedContext])
  refine ⟨_, fun j => (synthChannel s 0).2[j], fun j => (synthChannel s 1).2[j], hx, synEnd_reports, synEnd_vidx,
    fun slot hslot => synEnd_otherSlot hslot, ?mono, fun hg => ?left, ?right, ?pcm16mono, ?pcm16stereo, ?pcm32,
    synEnd_overlap.1, synEnd_overlap.2, commandsWriteOnlyTheirRegion _ _ _ hx, exec_keepsOperands hx (by simp),
    ⟨hctx .bs0, hctx .bs1⟩, exec_keepsOutside hx⟩
  case mono =>
    rintro rfl
    exact synEnd_ringOne
  case left =>
    rw [synEnd_ringZero]
    exact ⟨(synthChannel_of_guarded (ch := 0) hg).1, synthChannel_sample (ch := 0) hg⟩
  case right =>
    rintro rfl hg
    rw [synEnd_ringOne]
    exact ⟨(synthChannel_of_guarded (ch := 1) hg).1, synthChannel_sample (ch := 1) hg⟩
  case pcm16mono =>
    rintro rfl rfl
    exact readHalf_pcm16_mono synEnd_mem
  case pcm16stereo =>
    rintro rfl rfl
    exact readHalf_pcm16_stereo synEnd_mem
  case pcm32 =>
    rintro rfl j
    obtain ⟨hl, hr⟩ := readWord_pcm32 (synEnd_mem (stereo := stereo) (s := s)) j
    rw [hl, hr, pcmWord_toNat, pcmWord_toNat]
    cases stereo <;> exact ⟨rfl, rfl⟩

/-! ## Silence (R261, KP2) -/

/-- A ring of zeros. -/
def silentRing : Vector Slot 8 := Vector.replicate 8 (zeros 64)

/-- The samples of silence. -/
def silentSamples : Vector Half 32 := Vector.replicate 32 0#16

theorem silentRing_get (slot : Fin 8) : silentRing[slot] = zeros 64 := by simp [silentRing]

theorem eq_silentRing {ring : Vector Slot 8} (h : ∀ slot : Fin 8, ring[slot] = zeros 64) : ring = silentRing :=
  Vector.ext fun i hi => (h ⟨i, hi⟩).trans (silentRing_get ⟨i, hi⟩).symm

theorem writeSlot_silentRing (vidx : BitVec 3) : writeSlot silentRing vidx (zeros 64) = silentRing := by
  simp [writeSlot, silentRing]

theorem agedRing_silentRing (vidx : BitVec 3) : agedRing silentRing vidx = silentRing :=
  Vector.ext fun i hi => by simp [agedRing, silentRing]

/-- A zero accumulator is a zero sample, half a step being below one whole step. -/
theorem pcmSample_zero (cfg : Config) : pcmSample cfg 0#64 = 0#16 := by
  have hr : rshr 0 cfg.synFracBits = 0 := by
    rw [rshr, Config.synFracBits, Nat.add_sub_cancel, zero_add]
    exact Int.ediv_eq_zero_of_lt (by positivity) (pow_lt_pow_right₀ (by decide) (Nat.lt_succ_self _))
  rw [pcmSample, BitVec.toInt_zero, hr]
  rfl

/-- A channel with zero input and a zero history stays silent. -/
theorem synthChannel_silent {s : State} {ch : Channel} (hin : ∀ j : Fin 32, s.readWord (synSource s ch + 4 * j.val) = 0#32)
    (hring : s.vbuf[ch] = silentRing) : synthChannel s ch = (silentRing, silentSamples) := by
  have hx : s.readWords (synSource s ch) 32 = zeros 32 := Vector.ext fun j hj => by simpa [State.readWords] using hin ⟨j, hj⟩
  have hg : ∀ j : Fin 32, 1 ≤ gbits (s.readWord (synSource s ch + 4 * j.val)) := fun j => by
    rw [hin]
    decide
  have hdct : dct32K s.cfg (zeros 32) = zeros 64 := if_pos rfl
  have hpoly : polyK s.cfg silentRing = Vector.replicate 32 0#64 := if_pos rfl
  obtain ⟨hslot, hsamples⟩ := synthChannel_of_guarded hg
  rw [hx, hdct, hring, writeSlot_silentRing] at hslot
  rw [hslot, agedRing_silentRing, hpoly, Vector.map_replicate, pcmSample_zero] at hsamples
  exact Prod.ext hslot hsamples

theorem interleave_silent : interleave silentSamples silentSamples = List.replicate 64 0#16 := by
  rw [interleave, ← List.ofFn_const]
  simp [silentSamples]

theorem flatMap_replicate_zero {α : Type} {f : α → List Byte} {x : α} (hx : ∀ b ∈ f x, b = 0#8) (n : Nat) :
    ∀ b ∈ (List.replicate n x).flatMap f, b = 0#8 := by
  intro b hb
  obtain ⟨y, hy, hb⟩ := List.mem_flatMap.mp hb
  rw [List.eq_of_mem_replicate hy] at hb
  exact hx b hb

/-- The output of silent samples is zero bytes; in mono, whatever the unused channel holds. -/
theorem pcmOutput_silent {stereo : Bool} {p1 : Vector Half 32} (h : stereo = true → p1 = silentSamples) (fmt : PcmFormat) :
    ∀ b ∈ pcmOutput stereo fmt silentSamples p1, b = 0#8 := by
  cases fmt with
  | pcm16 =>
    cases stereo with
    | false =>
      rw [pcmOutput, silentSamples, Vector.toList_replicate]
      exact flatMap_replicate_zero (by decide) 32
    | true =>
      rw [pcmOutput, h rfl, interleave_silent]
      exact flatMap_replicate_zero (by decide) 64
  | pcm32 =>
    have hright : (if stereo then p1 else silentSamples) = silentSamples := ite_eq_right_iff.mpr h
    rw [pcmOutput_pcm32, hright, interleave_silent, List.map_replicate]
    exact flatMap_replicate_zero (by decide) 64

/-- Settles O41: each channel processed stays silent, and channel 1's ring, in mono, is left as it was. -/
theorem synSilence : Obligations.SynSilence := by
  unfold Obligations.SynSilence
  intro stereo fmt s hs hleft hright hhist
  have hring := fun ch => eq_silentRing (hhist ch)
  have h0 : synthChannel s 0 = (silentRing, silentSamples) := synthChannel_silent hleft (hring 0)
  have h1 : stereo = true → synthChannel s 1 = (silentRing, silentSamples) := fun h => synthChannel_silent (hright h) (hring 1)
  refine ⟨_, exec_synRun_of_ready hs, synEnd_reports.1, fun a ha hlt => ?_, fun ch slot => ?_⟩
  · obtain ⟨i, rfl⟩ := Nat.exists_eq_add_of_le ha
    rw [State.readByte_congr synEnd_mem, h0, State.readByte_storeBytes_inside _ _ _ i (by rw [pcmOutput_length]; omega)]
    exact pcmOutput_silent (fun h => by rw [h1 h]) fmt _ (List.getElem_mem _)
  · have hzero : (synEnd stereo fmt s).vbuf[0] = silentRing := by rw [synEnd_ringZero, h0]
    have hone : (synEnd stereo fmt s).vbuf[1] = silentRing := by
      rw [synEnd_ringOne]
      split
      case isTrue h => rw [h1 h]
      case isFalse => exact hring 1
    match ch with
    | 0 => exact hzero ▸ silentRing_get slot
    | 1 => exact hone ▸ silentRing_get slot

end Sys2Proof.Machine
end

section
/-! The obligations of 44_vorbis_mdct.md. `VMDCT.RUN` on a ready state leaves `vmdctEnd`, the buffer replaced by the kernel's output
(R292). What it leaves unchanged is known of every command. Silence is the case where the kernel maps zero to zero (R291, KP2). -/

namespace Sys2Proof.Machine

section
variable {lg : BitVec 4} {s : State}

theorem wellFormed_vmdctRun_iff : (Instr.vmdctRun lg).WellFormed ↔ 6 ≤ lg.toNat ∧ lg.toNat ≤ 13 := decide_eq_true_iff

/-- `LG` being at least 1, the buffer's `2^(LG-1)` words are `2^(LG+1)` bytes. -/
theorem four_mul_vmdctWords (hlg : (Instr.vmdctRun lg).WellFormed) : 4 * vmdctWords lg = 2 ^ (lg.toNat + 1) := by
  obtain ⟨hmin, -⟩ := wellFormed_vmdctRun_iff.mp hlg
  rw [vmdctWords, show lg.toNat + 1 = 2 + (lg.toNat - 1) by omega, pow_add]
  rfl

theorem vmdctWords_pos (lg : BitVec 4) : 0 < vmdctWords lg := Nat.two_pow_pos _

/-! ## The checks (R292) -/

/-- The one region of `VMDCT.RUN` is right as an operand exactly when it is aligned and ends in the address space. -/
theorem vmdctRegions_operands_iff (lg : BitVec 4) (s : State) :
    ((vmdctRegions s lg).all Region.fits = true ∧ anyClash (vmdctRegions s lg) = false)
      ↔ s.a0.toNat % 4 = 0 ∧ s.a0.toNat + 4 * vmdctWords lg ≤ 2 ^ 32 := by
  simp [vmdctRegions, anyClash, Region.fits_iff, (vmdctWords_pos lg).ne', addressSpace]

theorem vmdctRegions_reachable (lg : BitVec 4) (s : State) :
    (vmdctRegions s lg).all (fun r => r.reachable s.cfg)
      = (accessible s.cfg s.a0.toNat (4 * vmdctWords lg) .read && accessible s.cfg s.a0.toNat (4 * vmdctWords lg) .write) := by
  simp [vmdctRegions, Region.reachable, (vmdctWords_pos lg).ne']

theorem exec_vmdctRun_of_error {code : ReturnCode} (h : regionError s.cfg (vmdctRegions s lg) = some code) :
    exec (.vmdctRun lg) s = .next (s.fail code 0) := by
  rw [exec, execVmdctRun, h]

/-! ## The command (R292) -/

/-- What `VMDCT.RUN` leaves on a ready state. -/
def vmdctEnd (lg : BitVec 4) (s : State) : State := (s.storeWords s.a0.toNat (vmdctOutput s lg)).succeed (vmdctWords lg) 0

theorem exec_vmdctRun_of_ready (h : VmdctReady lg s) : exec (.vmdctRun lg) s = .next (vmdctEnd lg s) := by
  rw [exec, execVmdctRun, (regionError_vmdct_iff lg s).mpr h]
  rfl

theorem vmdctEnd_reports (hlg : (Instr.vmdctRun lg).WellFormed) : reports s (vmdctEnd lg s) (2 ^ (lg.toNat - 1)) 0 := by
  obtain ⟨-, hmax⟩ := wellFormed_vmdctRun_iff.mp hlg
  have hr0 : 2 ^ (lg.toNat - 1) < 2 ^ 32 := Nat.pow_lt_pow_right (by decide) (by omega)
  exact ⟨rfl, Nat.mod_eq_of_lt hr0, rfl, rfl, by simp [vmdctEnd]⟩

theorem vmdctEnd_readWord (j : Fin (2 ^ (lg.toNat - 1))) :
    (vmdctEnd lg s).readWord (s.a0.toNat + 4 * j.val) = (vmdctK s.cfg lg.toNat (s.readWords s.a0.toNat (2 ^ (lg.toNat - 1))))[j] :=
  readWord_of_stored (s := s) (ws := vmdctOutput s lg) rfl (by simp [vmdctOutput])

theorem vmdctEnd_keepsDsp : keepsDsp s (vmdctEnd lg s) := by simp [keepsDsp, vmdctEnd]

end

/-- Settles O43: the command ends with the code its region check answers. -/
theorem vmdctFailures : Obligations.VmdctFailures := by
  unfold Obligations.VmdctFailures
  intro lg s hlg bad
  have hbad : bad ↔ ¬((vmdctRegions s lg).all Region.fits = true ∧ anyClash (vmdctRegions s lg) = false) := by
    rw [vmdctRegions_operands_iff, four_mul_vmdctWords hlg, not_and_or, Nat.not_le]
  refine ⟨fun h => exec_vmdctRun_of_error ((regionError_eq_operand_iff _ _).mpr (hbad.mp h)), fun h hacc => ?_⟩
  obtain ⟨hfit, hclash⟩ := not_not.mp (mt hbad.mpr h)
  rw [← four_mul_vmdctWords hlg, ← Bool.and_eq_false_iff, ← vmdctRegions_reachable] at hacc
  exact exec_vmdctRun_of_error ((regionError_eq_bus_iff _ _).mpr ⟨hfit, hclash, hacc⟩)

/-- Settles O44: the words are those of `vmdctEnd`, and that the rest is unchanged is what is known of every command. -/
theorem vmdctResult : Obligations.VmdctResult := by
  unfold Obligations.VmdctResult
  intro lg s hlg hs
  have hx := exec_vmdctRun_of_ready hs
  have hctx := fun d => exec_ctx_of_not_named (d := d) hx (by simp) (by simp [namedContext])
  have hmem : keepsMemoryBut s (vmdctEnd lg s) s.a0.toNat (4 * vmdctWords lg) := commandsWriteOnlyTheirRegion _ _ _ hx
  rw [four_mul_vmdctWords hlg] at hmem
  exact ⟨_, hx, vmdctEnd_reports hlg, vmdctEnd_readWord, hmem, exec_keepsOperands hx (by simp), ⟨hctx .bs0, hctx .bs1⟩,
    vmdctEnd_keepsDsp, exec_keepsOutside hx⟩

/-! ## Silence (R291, KP2) -/

theorem vmdctK_zeros (cfg : Config) (lg : Nat) : vmdctK cfg lg (zeros _) = zeros _ := if_pos rfl

/-- Settles O45: the words read are the zero array, which the kernel keeps. -/
theorem vmdctSilence : Obligations.VmdctSilence := by
  unfold Obligations.VmdctSilence
  intro lg s hlg hs hin
  obtain ⟨t, hx, ⟨hrc, hr0, -⟩, hwords, -⟩ := vmdctResult lg s hlg hs
  have hzero : (Vector.ofFn fun i : Fin (2 ^ (lg.toNat - 1)) => s.readWord (s.a0.toNat + 4 * i.val)) = zeros _ :=
    Vector.ext fun j hj => by simpa using hin ⟨j, hj⟩
  rw [hzero, vmdctK_zeros] at hwords
  exact ⟨t, hx, hrc, hr0, fun j => by simpa using hwords j⟩

end Sys2Proof.Machine
end

section
/-! The obligations of 45_system.md: the host's accesses to registers and the two system commands. A register access is one of
`registerAccessLegal`, which reads by `State.readReg` or writes by `State.writeReg`, or it is refused; each of those two functions has
a lemma for what it does at the offsets the register map gives no meaning. -/

namespace Sys2Proof.Machine

/-! ## The register map (R312, 10_state.md R37) -/

/-- Read-only registers and reserved offsets ignore a write. -/
theorem State.writeReg_ignored {off : Nat} (h : off ∉ [0x00, 0x20, 0x24, 0x28, 0x2C]) (s : State) (v : Word) :
    s.writeReg off v = s := by
  unfold State.writeReg
  split
  case h_5 => rfl
  all_goals exact absurd (by decide) h

theorem State.readReg_reserved {off : Nat}
    (h : off ∉ [0x00, 0x04, 0x08, 0x0C, 0x10, 0x20, 0x24, 0x28, 0x2C, 0x40, 0x44, 0x48, 0x4C, 0x50, 0x54, 0x58, 0x5C, 0x60])
    (s : State) : s.readReg off = 0#32 := by
  unfold State.readReg
  split
  case h_19 => rfl
  all_goals exact absurd (by decide) h

theorem flagsWord_toNat (eob estky : Bool) : (flagsWord eob estky).toNat = eob.toNat + 2 * estky.toNat := by
  cases eob <;> cases estky <;> rfl

theorem BitCtx.ctlWord_toNat (x : BitCtx) : x.ctlWord.toNat = (decide (x.ord = .lsb)).toNat + 2 * x.valid.toNat := by
  rw [BitCtx.ctlWord]
  cases x.ord <;> cases x.valid <;> rfl

/-! ## Register accesses of the host (R312) -/

theorem registerAccessLegal_iff {off : Nat} {width : Width} :
    registerAccessLegal off width = true ↔ width = .word ∧ off % 4 = 0 ∧ off ≤ 0x7F := by
  rw [registerAccessLegal, decide_eq_true_iff, regBlockSize, Nat.lt_succ_iff]

section
variable {s : State} {rest : List HostAction} {off : Nat} {v : Word}

theorem step_regRead (h : s.host = .regRead off .word :: rest) (ha : off % 4 = 0) (hm : off ≤ 0x7F) :
    step s = .next { s with host := rest, hostData := s.readReg off } := by
  rw [step_of_host h]
  exact if_pos (registerAccessLegal_iff.mpr ⟨rfl, ha, hm⟩)

/-- A write at an offset other than `CMD`'s runs no command. -/
theorem step_regWrite (h : s.host = .regWrite off .word v :: rest) (ha : off % 4 = 0) (hm : off ≤ 0x7F) (h0 : off ≠ 0) :
    step s = .next (State.writeReg { s with host := rest } off v) := by
  rw [step_of_host h, hostAct, hostRegWrite, if_pos (registerAccessLegal_iff.mpr ⟨rfl, ha, hm⟩), if_neg h0]

theorem step_register_refused {width : Width} (hbad : width ≠ .word ∨ off % 4 ≠ 0 ∨ 0x7F < off)
    (h : s.host = .regRead off width :: rest ∨ s.host = .regWrite off width v :: rest) : step s = .refused .registerAccess := by
  have hl : ¬ registerAccessLegal off width = true := by
    rw [registerAccessLegal_iff, not_and_or, not_and_or, not_le]
    exact hbad
  rcases h with h | h <;> (rw [step_of_host h]; exact if_neg hl)

end

/-- Settles O8: reads by `step_regRead`, writes by `step_regWrite` and, at `CMD`, `step_cmdWrite`, the rest by
`step_register_refused`. -/
theorem hostRegisterAccess : Obligations.HostRegisterAccess := by
  unfold Obligations.HostRegisterAccess
  refine ⟨fun s rest off h ha hm => step_regRead h ha hm, fun s => ?map, fun s off h => State.readReg_reserved h s,
    fun s rest v => ?writes, fun s rest off width v hbad h => step_register_refused hbad h⟩
  case map =>
    exact ⟨rfl, rfl, rfl, rfl, rfl, rfl, rfl, rfl, rfl, rfl, rfl, rfl, rfl, rfl, flagsWord_toNat _ _, s.bs0.ctlWord_toNat,
      s.bs1.ctlWord_toNat, BitVec.toNat_setWidth_of_le (by decide)⟩
  case writes =>
    refine ⟨fun h => ?_, fun h => ?_, fun h => ?_, fun h => ?_, step_cmdWrite, fun off ha hm hoff h => ?_⟩
    iterate 4 exact step_regWrite h (by decide) (by decide) (by decide)
    have h0 : off ≠ 0 := by
      rintro rfl
      exact hoff (by decide)
    rw [step_regWrite h ha hm h0, State.writeReg_ignored hoff]

/-! ## The system commands (R310, R311) -/

theorem exec_sysNop (s : State) : exec .sysNop s = .next { s with rc := 0#32, r0 := 0#32, r1 := 0#32, eob := false } :=
  congrArg Host.Outcome.next (s.finish_none_eq 0 0 false)

/-- The row of `SYS.NOP` has no fields, so under its opcode every other word has a reserved bit set. -/
theorem illegalNumber_of_opc_zero {w : Word} (h : w.toNat / 2 ^ 24 = 0) (hw : w ≠ 0#32) : illegalNumber w.toNat := by
  have hpos : w.toNat ≠ 0 := fun h0 => hw (BitVec.eq_of_toNat_eq h0)
  have hreserved : 2 ^ 0 ≤ w.toNat % 2 ^ 24 := by omega
  exact (illegalNumber_iff_of_opc (op := .sysNop) h).mpr (.inl hreserved)

/-- Settles O12: success with zero results, and the illegal words of R124 under opcode 0. -/
theorem sysNopResult : Obligations.SysNopResult := by
  unfold Obligations.SysNopResult
  exact ⟨decode_eq_ok_iff.mpr ⟨rfl, rfl⟩, exec_sysNop,
    fun w h hw => (exists_decode_error_iff_illegalNumber w).mpr (illegalNumber_of_opc_zero h hw)⟩

/-- Settles O13: `SYS.RESET` is `State.resetBlock`, each of whose items is the field of `State.reset`. -/
theorem sysResetResult : Obligations.SysResetResult := by
  unfold Obligations.SysResetResult
  refine ⟨decode_eq_ok_iff.mpr ⟨rfl, rfl⟩, fun s => ?_⟩
  have hx : exec .sysReset s = .next (s.resetBlock 0x01000000#32) := rfl
  exact ⟨_, hx, by simp [BitCtx.reset, exec_keepsOutside hx]⟩

end Sys2Proof.Machine
end

section
/-! The obligations of 60_exceptions.md: what a command reports and what a failure leaves. Every command but `SYS.RESET` ends in
`State.finish`, which alone writes `RC` and `ESTKY`; that no command reads `ESTKY` is a commutation of each state operation with
`State.withEstky`. -/

namespace Sys2Proof.Machine

/-! ## Return codes (R331) and `finish` (00_scope.md R7) -/

@[simp] theorem ReturnCode.toInt_word (code : ReturnCode) : code.word.toInt = code.toInt := by cases code <;> decide

theorem estkyAfter_eq (b : Bool) (code : ReturnCode) : estkyAfter b code = (b || decide (code.word.toInt < 0)) := by
  rw [ReturnCode.toInt_word]
  rfl

/-- Settles O11: the codes are numbers, and `finish` is its definition with `ESTKY` read off the word of the code. -/
theorem returnCodesAndFinish : Obligations.ReturnCodesAndFinish := by
  unfold Obligations.ReturnCodesAndFinish
  refine ⟨by decide, fun s code r0 r1 e => ?_⟩
  rw [State.finish, estkyAfter_eq]

/-- Every command but `SYS.RESET` ends in `finish`, with `ESTKY` until then as it was. -/
theorem exec_finishes {i : Instr} {s t : State} (h : exec i s = .next t) (hi : i ≠ .sysReset) :
    ∃ (u : State) (code : ReturnCode) (r0 r1 : Nat) (e : Bool), t = u.finish code r0 r1 e ∧ u.estky = s.estky := by
  cases exec_effect h with
  | reset hr => exact absurd hr hi
  | _ => exact ⟨_, _, _, _, _, rfl, by simp⟩

/-! ## The report invariant (R331, R334, R335) -/

/-- Whatever `finish` reports is one of the codes, and a failure among them sets `ESTKY`. -/
theorem State.finish_reportSound (s : State) (code : ReturnCode) (r0 r1 : Nat) (e : Bool) :
    (s.finish code r0 r1 e).ReportSound := by
  refine ⟨⟨code, rfl⟩, fun hclear => ?_⟩
  by_cases hc : code = .none
  · subst hc
    rfl
  · have hset : estkyAfter s.estky code = true := estkyAfter_failure _ _ (code.isFailure_iff.mpr hc)
    rw [State.finish_estky, hset] at hclear
    cases hclear

theorem State.resetBlock_reportSound (s : State) (w : Word) : (s.resetBlock w).ReportSound := ⟨⟨.none, rfl⟩, fun _ => rfl⟩

@[simp] theorem State.writeReg_rc (s : State) (off : Nat) (v : Word) : (s.writeReg off v).rc = s.rc := by
  unfold State.writeReg
  split <;> rfl

@[simp] theorem State.writeReg_estky (s : State) (off : Nat) (v : Word) : (s.writeReg off v).estky = s.estky := by
  unfold State.writeReg
  split <;> rfl

/-- Every command leaves a sound report, whatever was there before it. -/
theorem exec_reportSound {i : Instr} {s t : State} (h : exec i s = .next t) : t.ReportSound := by
  by_cases hi : i = .sysReset
  · subst hi
    cases h
    exact s.resetBlock_reportSound _
  · obtain ⟨u, code, r0, r1, e, rfl, -⟩ := exec_finishes h hi
    exact u.finish_reportSound code r0 r1 e

theorem hostAct_keepsReportSound {act : HostAction} {s t : State} (h : hostAct act s = .next t) (hs : s.ReportSound) :
    t.ReportSound := by
  obtain ⟨w, i, -, -, hx⟩ | ⟨w, e, -, -, rfl⟩ | ⟨off, v, -, -, rfl⟩ | ⟨v, rfl⟩ | ⟨a, w, v, -, -, rfl⟩ | ⟨-, rfl⟩ :=
    hostAct_cases h
  · exact exec_reportSound hx
  · exact State.finish_reportSound _ .errIllegalCmd 0 0 false
  · simpa [State.ReportSound] using hs
  · exact hs
  · simpa [State.ReportSound] using hs
  · exact s.resetBlock_reportSound _

/-- Settles O56: a command reports through `finish` or resets; no other host action but reset writes `RC` or `ESTKY`. -/
theorem reportInvariantKept : Obligations.ReportInvariantKept := by
  unfold Obligations.ReportInvariantKept
  intro s t hs h
  rcases step_cases h with ⟨-, rfl⟩ | ⟨act, rest, -, ha⟩
  · exact hs
  · exact hostAct_keepsReportSound ha hs

/-! ## What a failed command changes (R334) -/

/-- `ESTKY` after a command: set by a negative `RC`, else as it was. -/
theorem exec_estky {i : Instr} {s t : State} (h : exec i s = .next t) (hi : i ≠ .sysReset) :
    t.estky = (s.estky || decide (t.rc.toInt < 0)) := by
  obtain ⟨u, code, r0, r1, e, rfl, hu⟩ := exec_finishes h hi
  rw [State.finish_estky, State.finish_rc, estkyAfter_eq, hu]

theorem ReturnCode.none_not_negative : ¬ ReturnCode.none.word.toInt < 0 := by decide

/-- A failed command was rejected before any change, or is a Huffman command that stopped at a data error with the words before it
stored at `A0`. -/
theorem exec_failed {i : Instr} {s t : State} (h : exec i s = .next t) (hneg : t.rc.toInt < 0) :
    (∃ code r1, t = s.fail code r1)
      ∨ ∃ (ws : List Word) (code : ReturnCode), (code = .errHuffOverrun ∨ code = .errHuffCode) ∧ ws.length < 1024
        ∧ t = (s.storeWords s.a0.toNat ws).fail code ws.length := by
  cases exec_effect h with
  | rejected code r1 => exact .inl ⟨code, r1, rfl⟩
  | broken c ws code _ _ hc _ _ _ hs => exact .inr ⟨ws, code, hc, hs, rfl⟩
  | _ => exact absurd hneg ReturnCode.none_not_negative

/-- The part of R334 common to all failures: `R0`, the flags, and what no failure touches. -/
theorem exec_failed_report {i : Instr} {s t : State} (h : exec i s = .next t) (hneg : t.rc.toInt < 0) :
    t.r0 = 0#32 ∧ t.eob = false ∧ t.estky = true ∧ keepsOperands s t ∧ keepsContexts s t ∧ keepsDsp s t ∧ keepsOutside s t := by
  have hi : i ≠ .sysReset := by
    rintro rfl
    cases h
    exact ReturnCode.none_not_negative hneg
  have hset : t.estky = true := by rw [exec_estky h hi, decide_eq_true hneg, Bool.or_true]
  obtain ⟨code, r1, rfl⟩ | ⟨ws, code, -, -, rfl⟩ := exec_failed h hneg
  all_goals exact ⟨rfl, rfl, hset, exec_keepsOperands h hi, by simp [keepsContexts], by simp [keepsDsp], exec_keepsOutside h⟩

/-- Memory after a failure: a data error leaves the `R1` words before it, any other failure nothing. -/
theorem exec_failed_memory {i : Instr} {s t : State} (h : exec i s = .next t) (hneg : t.rc.toInt < 0) :
    (t.rc.toInt ≠ -1 → t.rc.toInt ≠ -2 → t.mem = s.mem ∧ t.stale0 = s.stale0 ∧ t.stale1 = s.stale1)
      ∧ keepsMemoryBut s t s.a0.toNat (if t.rc.toInt = -1 ∨ t.rc.toInt = -2 then 4 * t.r1.toNat else 0) := by
  obtain ⟨code, r1, rfl⟩ | ⟨ws, code, hc, hlen, rfl⟩ := exec_failed h hneg
  · exact ⟨fun _ _ => ⟨rfl, rfl, rfl⟩, keepsMemoryBut_of_mem_eq rfl _ _⟩
  · have hdata : code.word.toInt = -1 ∨ code.word.toInt = -2 := by rcases hc with rfl | rfl <;> decide
    have hcount : (BitVec.ofNat 32 ws.length).toNat = ws.length := toNat_ofNat_of_lt_two_pow (n := 10) hlen (by decide)
    refine ⟨fun h1 h2 => absurd hdata (not_or.mpr ⟨h1, h2⟩), ?_⟩
    rw [State.fail_rc, State.fail_r1, if_pos hdata, hcount]
    exact keepsMemoryBut_storeWords rfl le_rfl

/-- Settles O47: the two shapes of a failure, and `ESTKY` as `RC` leaves it. -/
theorem failuresArePrecise : Obligations.FailuresArePrecise := by
  unfold Obligations.FailuresArePrecise
  refine fun i s t h => ⟨fun hneg => ?_, fun hz hi => ?_⟩
  · obtain ⟨hr0, heob, hset, hops, hctx, hdsp, hout⟩ := exec_failed_report h hneg
    exact ⟨hr0, heob, hset, hops, hctx, hdsp, hout, exec_failed_memory h hneg⟩
  · rw [exec_estky h hi, hz]
    exact Bool.or_false _

/-! ## The sticky flag (R335) -/

/-- A host action other than the two resets leaves `ESTKY` set. -/
theorem hostAct_keepsEstky {act : HostAction} {s t : State} (h : hostAct act s = .next t) (hs : s.estky = true) :
    t.estky = true ∨ act = .hardReset ∨ act = .regWrite 0 .word 0x01000000#32 := by
  obtain ⟨w, i, rfl, hd, hx⟩ | ⟨w, e, -, -, rfl⟩ | ⟨off, v, -, -, rfl⟩ | ⟨v, rfl⟩ | ⟨a, w, v, -, -, rfl⟩ | ⟨rfl, -⟩ :=
    hostAct_cases h
  · by_cases hi : i = .sysReset
    · subst hi
      obtain rfl : encode .sysReset = w := (encodeOfDecode w _ hd).2
      exact .inr (.inr rfl)
    · exact .inl (by rw [exec_estky hx hi, hs, Bool.true_or])
  · exact .inl (State.illegal_estky _)
  · exact .inl (by rwa [State.writeReg_estky])
  · exact .inl hs
  · exact .inl (by rwa [State.storeBytes_estky])
  · exact .inr (.inl rfl)

/-- The state with `ESTKY` at another value. -/
def State.withEstky (s : State) (b : Bool) : State := { s with estky := b }

/-- The state after a command as it is when `ESTKY` was `b` before it. -/
def State.stickyFrom (t : State) (b : Bool) : State := { t with estky := b || decide (t.rc.toInt < 0) }

section
variable (s : State) (b : Bool)

@[simp] theorem State.cfg_withEstky : (s.withEstky b).cfg = s.cfg := rfl
@[simp] theorem State.a0_withEstky : (s.withEstky b).a0 = s.a0 := rfl
@[simp] theorem State.a1_withEstky : (s.withEstky b).a1 = s.a1 := rfl
@[simp] theorem State.a2_withEstky : (s.withEstky b).a2 = s.a2 := rfl

/-! The operations of a command carry `ESTKY` along, and its end updates it. -/

@[simp] theorem State.storeBytes_withEstky (a : Nat) (bs : List Byte) :
    (s.withEstky b).storeBytes a bs = (s.storeBytes a bs).withEstky b := by
  induction bs generalizing s a with
  | nil => rfl
  | cons x bs ih => exact ih (s.storeByte a x) (a + 1)

@[simp] theorem State.storeWords_withEstky (a : Nat) (ws : List Word) :
    (s.withEstky b).storeWords a ws = (s.storeWords a ws).withEstky b := s.storeBytes_withEstky b a _

@[simp] theorem State.setPos_withEstky (c : CtxId) (p : Nat) : (s.withEstky b).setPos c p = (s.setPos c p).withEstky b := by
  cases c <;> rfl

@[simp] theorem State.setOrigin_withEstky (c : CtxId) (x : BitCtx) :
    (s.withEstky b).setOrigin c x = (s.setOrigin c x).withEstky b := by
  cases c <;> rfl

@[simp] theorem State.finish_withEstky (code : ReturnCode) (x y : Nat) (e : Bool) :
    (s.withEstky b).finish code x y e = (s.finish code x y e).stickyFrom b := by
  rw [State.finish, State.withEstky, estkyAfter_eq]
  rfl

@[simp] theorem State.succeed_withEstky (x y : Nat) : (s.withEstky b).succeed x y = (s.succeed x y).stickyFrom b :=
  s.finish_withEstky b _ _ _ _

@[simp] theorem State.fail_withEstky (code : ReturnCode) (x : Nat) :
    (s.withEstky b).fail code x = (s.fail code x).stickyFrom b := s.finish_withEstky b _ _ _ _

/-! What a command reads is not `ESTKY`. -/

@[simp] theorem State.ctx_withEstky (c : CtxId) : (s.withEstky b).ctx c = s.ctx c := by cases c <;> rfl

@[simp] theorem State.sbit_withEstky (c : CtxId) : (s.withEstky b).sbit c = s.sbit c := by cases c <;> rfl

@[simp] theorem State.take_withEstky (c : CtxId) (p k : Nat) : (s.withEstky b).take c p k = s.take c p k := by
  simp [State.take]

@[simp] theorem huffmanError_withEstky (c : CtxId) (nv : Nat) (present : Bool) :
    huffmanError c nv present (s.withEstky b) = huffmanError c nv present s := by
  cases c <;> rfl

@[simp] theorem State.commandBit_withEstky (c : CtxId) : (s.withEstky b).commandBit c = s.commandBit c := by cases c <;> rfl

theorem pairsDecoded_withEstky (c : CtxId) (tab : BitVec 5) (nv : BitVec 10) :
    pairsDecoded c tab nv (s.withEstky b) = pairsDecoded c tab nv s := by
  simp [pairsDecoded]

theorem quadsDecoded_withEstky (c : CtxId) (t : QuadCode) (nv : BitVec 10) :
    quadsDecoded c t nv (s.withEstky b) = quadsDecoded c t nv s := by
  simp [quadsDecoded]

/-! So each command differs in `ESTKY` alone. -/

theorem advance_withEstky (c : CtxId) (n x : Nat) : advance c n x (s.withEstky b) = (advance c n x s).stickyFrom b := by
  simp only [advance, State.ctx_withEstky]
  split_ifs <;> simp

theorem huffmanEnd_withEstky (c : CtxId) (d : Decoded) (fill y : Nat) :
    huffmanEnd c d fill y (s.withEstky b) = (huffmanEnd c d fill y s).stickyFrom b := by
  simp only [huffmanEnd, State.ctx_withEstky, State.a0_withEstky]
  split_ifs <;> simp

variable {s b} {t : State}

theorem execBsrInit_withEstky {c : CtxId} {ord : BitOrder} (h : execBsrInit c ord s = .next t) :
    execBsrInit c ord (s.withEstky b) = .next (t.stickyFrom b) := by
  have hc : initError (s.withEstky b) = initError s := rfl
  cases h
  rw [execBsrInit, hc]
  cases initError s <;> simp

theorem execBsrPeek_withEstky {c : CtxId} {n : BitVec 6} (h : execBsrPeek c n s = .next t) :
    execBsrPeek c n (s.withEstky b) = .next (t.stickyFrom b) := by
  cases h
  simp only [execBsrPeek, State.ctx_withEstky, State.take_withEstky]
  split_ifs <;> simp

theorem execHufPairs_withEstky {c : CtxId} {tab : BitVec 5} {nv : BitVec 10} (h : execHufPairs c tab nv s = .next t) :
    execHufPairs c tab nv (s.withEstky b) = .next (t.stickyFrom b) := by
  cases h
  rw [execHufPairs, huffmanError_withEstky, State.cfg_withEstky, pairsDecoded_withEstky, huffmanEnd_withEstky]
  cases huffmanError c nv.toNat (decide (pairTable s.cfg tab ≠ .absent)) s <;> simp

theorem execHufQuads_withEstky {c : CtxId} {tab : BitVec 5} {nv : BitVec 10} (h : execHufQuads c tab nv s = .next t) :
    execHufQuads c tab nv (s.withEstky b) = .next (t.stickyFrom b) := by
  cases h
  simp only [execHufQuads, huffmanError_withEstky, State.cfg_withEstky, quadsDecoded_withEstky, huffmanEnd_withEstky]
  cases huffmanError c nv.toNat (quadTable s.cfg tab).isSome s
  · cases quadTable s.cfg tab <;> simp
  · simp

theorem execImdctRun_withEstky {ch : Channel} {bt : WindowClass} {mix : Bool} (h : execImdctRun ch bt mix s = .next t) :
    execImdctRun ch bt mix (s.withEstky b) = .next (t.stickyFrom b) := by
  have hc : imdctRegions (s.withEstky b) = imdctRegions s := rfl
  have hr : ∀ x, imdctResult (s.withEstky b) ch bt mix x = imdctResult s ch bt mix x := fun _ => rfl
  have hx : (s.withEstky b).readGranule = s.readGranule := rfl
  cases h
  simp only [execImdctRun, hc, hr, hx, State.storeWords_withEstky, State.cfg_withEstky, State.a0_withEstky, State.a1_withEstky]
  cases regionError s.cfg (imdctRegions s) with
  | some code => simp
  | none =>
    dsimp only
    generalize s.storeWords _ _ = u
    rfl

theorem execSynRun_withEstky {stereo : Bool} {fmt : PcmFormat} (h : execSynRun stereo fmt s = .next t) :
    execSynRun stereo fmt (s.withEstky b) = .next (t.stickyFrom b) := by
  have hc : synRegions (s.withEstky b) = synRegions s := rfl
  have hr : synthChannel (s.withEstky b) = synthChannel s := rfl
  have hv : synthRings (s.withEstky b) stereo = synthRings s stereo := rfl
  cases h
  simp only [execSynRun, hc, hr, hv, State.storeBytes_withEstky, State.cfg_withEstky, State.a2_withEstky]
  cases regionError s.cfg (synRegions s stereo fmt) with
  | some code => simp
  | none =>
    dsimp only
    generalize s.storeBytes _ _ = u
    rfl

theorem execVmdctRun_withEstky {lg : BitVec 4} (h : execVmdctRun lg s = .next t) :
    execVmdctRun lg (s.withEstky b) = .next (t.stickyFrom b) := by
  have hc : vmdctRegions (s.withEstky b) lg = vmdctRegions s lg := rfl
  have hr : vmdctOutput (s.withEstky b) lg = vmdctOutput s lg := rfl
  cases h
  simp only [execVmdctRun, hc, hr, State.storeWords_withEstky, State.cfg_withEstky, State.a0_withEstky]
  cases regionError s.cfg (vmdctRegions s lg) <;> simp

/-- No command but `SYS.RESET` reads `ESTKY`; its end leaves it set or not as `RC` says. -/
theorem exec_withEstky {i : Instr} (h : exec i s = .next t) (hi : i ≠ .sysReset) :
    exec i (s.withEstky b) = .next (t.stickyFrom b) := by
  cases i with
  | sysNop => cases h; exact congrArg _ (s.succeed_withEstky b 0 0)
  | sysReset => exact absurd rfl hi
  | bsrInit c ord => exact execBsrInit_withEstky h
  | bsrPeek c n => exact execBsrPeek_withEstky h
  | bsrGet c n => cases h; simp [exec, execBsrGet, advance_withEstky]
  | bsrSkip c n => cases h; simp [exec, execBsrSkip, advance_withEstky]
  | bsrSkipr c => cases h; simp [exec, execBsrSkipr, advance_withEstky]
  | hufPairs c tab nv => exact execHufPairs_withEstky h
  | hufQuads c tab nv => exact execHufQuads_withEstky h
  | imdctRun ch bt mix => exact execImdctRun_withEstky h
  | synRun stereo fmt => exact execSynRun_withEstky h
  | vmdctRun lg => exact execVmdctRun_withEstky h

end

/-- Settles O48: no host action but a reset clears `ESTKY`, and it is an item no command reads. -/
theorem stickyErrorFlag : Obligations.StickyErrorFlag := by
  unfold Obligations.StickyErrorFlag
  refine ⟨fun s t h hs => ?_, fun i s t b hi h => exec_withEstky h hi⟩
  rcases step_cases h with ⟨-, rfl⟩ | ⟨act, rest, hh, ha⟩
  · exact .inl hs
  · rcases hostAct_keepsEstky ha hs with hk | rfl | rfl
    · exact .inl hk
    · exact .inr ⟨rest, .inl hh⟩
    · exact .inr ⟨rest, .inr hh⟩

end Sys2Proof.Machine
end

section
/-! The obligations of 70_reset_and_hazards.md: idling, completion, and the buffer bits that a write frees. Of the host's actions only a
reset and `BSR.INIT` restart a stream (`restartsStream`); any other, a command among them, changes it as a store of bytes does. -/

namespace Sys2Proof.Machine

/-! ## Idling (R383) -/

/-- Settles O7: without an action `step` answers the state itself. -/
theorem stepIdlesWithoutActions : Obligations.StepIdlesWithoutActions := by
  unfold Obligations.StepIdlesWithoutActions
  intro s hh
  rw [step, hh]

/-! ## Completion (R382, 60_exceptions.md R330) -/

/-- The codes of R331 lie in -7 .. 0. -/
theorem ReturnCode.toInt_bounds (code : ReturnCode) : -7 ≤ code.toInt ∧ code.toInt ≤ 0 := by cases code <;> decide

theorem State.ReportSound.rc_bounds {s : State} (h : s.ReportSound) : -7 ≤ s.rc.toInt ∧ s.rc.toInt ≤ 0 := by
  obtain ⟨⟨code, hc⟩, -⟩ := h
  rw [hc, ReturnCode.toInt_word]
  exact code.toInt_bounds

/-- Whatever word is written to `CMD`, the command it encodes, or the illegal word, reports and leaves the host's actions alone. -/
theorem runCommand_finishes (w : Word) (s : State) : ∃ t, runCommand w s = .next t ∧ t.host = s.host ∧ t.ReportSound := by
  cases hd : decode w with
  | ok i =>
    obtain ⟨t, ht⟩ := exec_eq_next i { s with cmd := w, draws := s.draws + 1 }
    obtain ⟨-, hhost, -⟩ := exec_keepsOutside ht
    exact ⟨t, (runCommand_of_decode hd s).trans ht, hhost, exec_reportSound ht⟩
  | error e =>
    have hn : illegalNumber w.toNat := (exists_decode_error_iff_illegalNumber w).mp ⟨e, hd⟩
    exact ⟨_, runCommand_of_illegal hn s, rfl, State.finish_reportSound _ .errIllegalCmd 0 0 false⟩

/-- Settles O46: every command answers a next state with a sound report, and the write to `CMD` of any word is a `runCommand`. -/
theorem everyCommandFinishes : Obligations.EveryCommandFinishes := by
  unfold Obligations.EveryCommandFinishes
  refine ⟨fun i s => ?_, fun s rest w hh => ?_⟩
  · obtain ⟨t, ht⟩ := exec_eq_next i s
    exact ⟨t, ht, (exec_reportSound ht).rc_bounds⟩
  · obtain ⟨t, ht, hhost, hr⟩ := runCommand_finishes w { s with host := rest }
    exact ⟨t, (step_cmdWrite hh).trans ht, hhost, hr.rc_bounds⟩

/-! ## The bits a write frees (R375) -/

section
variable {s t : State} {c : CtxId}

@[simp] theorem State.finish_stale (s : State) (code : ReturnCode) (r0 r1 : Nat) (e : Bool) (c : CtxId) :
    (s.finish code r0 r1 e).stale c = s.stale c := by
  cases c <;> rfl

@[simp] theorem State.fail_stale (s : State) (code : ReturnCode) (r1 : Nat) (c : CtxId) : (s.fail code r1).stale c = s.stale c :=
  s.finish_stale code 0 r1 false c

@[simp] theorem State.resetBlock_stale (s : State) (w : Word) (c : CtxId) : (s.resetBlock w).stale c = [] := by
  cases c <;> rfl

/-- From `s` to `t` the bits of the buffer of `c` whose value has changed are freed, and no other (R375). -/
def freesChanged (c : CtxId) (s t : State) : Prop :=
  ∀ j, t.freed c j = true ↔ s.freed c j = true ∨ (j < 8 * (s.ctx c).len.toNat ∧ t.memoryBit c j ≠ s.memoryBit c j)

/-- A stream that is as a store leaves it has its changed bits freed, whatever else of the state differs. -/
theorem freesChanged_of_storeBytes {a : Nat} {bs : List Byte} (hm : t.mem = (s.storeBytes a bs).mem)
    (hs : t.stale c = (s.storeBytes a bs).stale c) (hb : (t.ctx c).base = (s.ctx c).base) (ho : (t.ctx c).ord = (s.ctx c).ord) :
    freesChanged c s t := by
  intro j
  rw [← State.storeBytes_ctx s a bs] at hb ho
  rw [State.freed_congr hs hb ho, State.memoryBit_congr hm hb ho, State.freed_storeBytes]

theorem freesChanged_of_storeWords {a : Nat} {ws : List Word} (hm : t.mem = (s.storeWords a ws).mem)
    (hs : t.stale c = (s.storeWords a ws).stale c) (hb : (t.ctx c).base = (s.ctx c).base) (ho : (t.ctx c).ord = (s.ctx c).ord) :
    freesChanged c s t :=
  freesChanged_of_storeBytes hm hs hb ho

/-- Where memory is the same no bit has changed, so none is freed. -/
theorem freesChanged_of_unchanged (hm : t.mem = s.mem) (hs : t.stale c = s.stale c) (hb : (t.ctx c).base = (s.ctx c).base)
    (ho : (t.ctx c).ord = (s.ctx c).ord) : freesChanged c s t :=
  freesChanged_of_storeBytes (a := 0) (bs := []) hm hs hb ho

theorem State.writeReg_freesChanged (s : State) (off : Nat) (v : Word) (c : CtxId) : freesChanged c s (s.writeReg off v) := by
  unfold State.writeReg
  split <;> exact freesChanged_of_unchanged rfl rfl rfl rfl

/-- A command that opens no buffer in `c` frees the bits of its buffer that it changes. -/
theorem exec_freesChanged {i : Instr} (h : exec i s = .next t) (hi : i ≠ .sysReset) (hd : ∀ ord, i ≠ .bsrInit c ord) :
    freesChanged c s t := by
  obtain ⟨-, hb, -, ho, -⟩ := (originChangesOnlyByInit i s t c h hi).2 hd
  cases exec_effect h with
  | reset hr => exact absurd hr hi
  | rejected | nop | peeked | moved => exact freesChanged_of_unchanged (by simp) (by simp) hb ho
  | opened d ord hr =>
    have hne : c ≠ d := by
      rintro rfl
      exact hd ord hr
    exact freesChanged_of_unchanged (by simp) (by simp [State.setOrigin_stale_other _ _ hne]) hb ho
  | decoded _ ws | broken _ ws | replaced _ _ ws =>
    exact freesChanged_of_storeWords (a := s.a0.toNat) (ws := ws) (by simp) (by simp) hb ho
  | transformed | synthesized => exact freesChanged_of_storeBytes rfl (by cases c <;> rfl) hb ho

/-- The host actions that make every bit of the buffer of `c` defined: the two resets and `BSR.INIT` on `c`. -/
def restartsStream (c : CtxId) (act : HostAction) : Prop :=
  act = .hardReset ∨ act = .regWrite 0 .word 0x01000000#32 ∨ ∃ ord, act = .regWrite 0 .word (encode (.bsrInit c ord))

theorem hostAct_freesChanged {act : HostAction} (h : hostAct act s = .next t) (hn : ¬ restartsStream c act) :
    freesChanged c s t := by
  obtain ⟨w, i, rfl, hd, hx⟩ | ⟨w, e, -, -, rfl⟩ | ⟨off, v, -, -, rfl⟩ | ⟨v, rfl⟩ | ⟨a, w, v, -, -, rfl⟩ | ⟨rfl, -⟩ :=
    hostAct_cases h
  · obtain rfl : encode i = w := (encodeOfDecode w i hd).2
    have hi : i ≠ .sysReset := by
      rintro rfl
      exact hn (.inr (.inl rfl))
    have ho : ∀ ord, i ≠ .bsrInit c ord := by
      rintro ord rfl
      exact hn (.inr (.inr ⟨ord, rfl⟩))
    exact (exec_freesChanged hx hi ho :)
  · exact freesChanged_of_unchanged rfl rfl rfl rfl
  · exact s.writeReg_freesChanged off v c
  · exact freesChanged_of_unchanged rfl rfl rfl rfl
  · exact s.freed_storeBytes a _ c
  · exact absurd (.inl rfl) hn

/-- A step without an action, or with one that does not restart the stream of `c`, frees the bits it changes. -/
theorem step_freesChanged (h : step s = .next t) (hn : ∀ act rest, s.host = act :: rest → ¬ restartsStream c act) :
    freesChanged c s t := by
  rcases step_cases h with ⟨-, rfl⟩ | ⟨act, rest, hh, ha⟩
  · exact freesChanged_of_unchanged rfl rfl rfl rfl
  · exact (hostAct_freesChanged ha (hn act rest hh) :)

/-! ## What makes every bit defined again (R370, R375) -/

theorem State.freed_of_stale_eq_nil (h : s.stale c = []) (j : Nat) : s.freed c j = false := by
  simp [State.freed, h, StaleMap.mask, Memory.lookup]

/-- A `BSR.INIT` that succeeds forgets the changed bits of the context it opens. -/
theorem exec_bsrInit_stale {ord : BitOrder} (h : exec (.bsrInit c ord) s = .next t) (hrc : t.rc = 0#32) : t.stale c = [] := by
  change execBsrInit c ord s = .next t at h
  cases he : initError s with
  | some code =>
    rw [execBsrInit_of_initError_eq_some ord he] at h
    cases h
    obtain rfl := ReturnCode.word_injective code .none hrc
    simpa using initError_some he
  | none =>
    rw [execBsrInit_of_initError_eq_none ord he] at h
    cases h
    rw [State.succeed_stale, State.setOrigin_stale_same]

/-! ## A host write of memory (20_memory.md R81) -/

/-- Bit `b` of byte `k` of a value is its bit `8 * k + b`. -/
theorem valueBytes_getLsbD {width : Width} {v : Word} {k b : Nat} (hk : k < (valueBytes width v).length) (hb : b < 8) :
    (valueBytes width v)[k].getLsbD b = v.getLsbD (8 * k + b) := by
  rw [BitVec.getLsbD, valueBytes_get_toNat, Nat.testBit_mod_two_pow, Nat.testBit_div_two_pow, decide_eq_true hb, Bool.true_and,
    Nat.add_comm]
  rfl

/-- A stream bit in a byte stored reads as stored. -/
theorem State.memoryBit_storeBytes_inside {a k j : Nat} {bs : List Byte} (hk : k < bs.length)
    (hj : (s.ctx c).base.toNat + j / 8 = a + k) : (s.storeBytes a bs).memoryBit c j = bs[k].getLsbD (bitInByte (s.ctx c).ord j) := by
  rw [State.memoryBit, State.storeBytes_ctx, hj, State.readByte_storeBytes_inside _ _ _ _ hk]

theorem bitInByte_lt (ord : BitOrder) (j : Nat) : bitInByte ord j < 8 := by
  cases ord <;> simp only [bitInByte] <;> omega

/-- A bit of the buffer to which a host write gives another value reads as a free value from then on. -/
theorem sbit_of_hostMemWrite {a j k : Nat} {width : Width} {v : Word} (h : hostMemWrite a width v s = .next t)
    (hk : k < width.bytes) (ha : (s.ctx c).base.toNat + j / 8 = a + k) (hj : j < 8 * (s.ctx c).len.toNat)
    (hv : v.getLsbD (8 * k + bitInByte (s.ctx c).ord j) ≠ s.memoryBit c j) : t.sbit c j = Config.freeBit t.draws j := by
  obtain rfl : s.storeBytes a (valueBytes width v) = t := by
    unfold hostMemWrite at h
    split at h
    · cases h
    · split at h <;> cases h
      rfl
  rw [← valueBytes_length width v] at hk
  have hne : (s.storeBytes a (valueBytes width v)).memoryBit c j ≠ s.memoryBit c j := by
    rwa [State.memoryBit_storeBytes_inside hk ha, valueBytes_getLsbD hk (bitInByte_lt _ _)]
  rw [State.sbit, if_pos ((s.freed_storeBytes _ _ c j).mpr (.inr ⟨hj, hne⟩))]

end

/-- Settles O59: an action that does not restart the stream frees the bits it changes, one that restarts it leaves none freed. -/
theorem changedBufferBits : Obligations.ChangedBufferBits := by
  unfold Obligations.ChangedBufferBits
  refine ⟨fun s c j => rfl, fun s c j => ?_, fun s t c j h hn => ?_, fun s t rest c h hr j => ?_, ?_⟩
  · rw [State.memoryBit, bitInByte_eq]
  · refine step_freesChanged h (fun act rest hh hact => hn ⟨rest, ?_⟩) j
    rcases hact with rfl | rfl | ⟨ord, rfl⟩
    exacts [.inl hh, .inr (.inl hh), .inr (.inr ⟨ord, hh⟩)]
  · refine State.freed_of_stale_eq_nil ?_ j
    rcases hr with hh | hh | ⟨hrc, ord, hh⟩
    · rw [step_of_host hh] at h
      cases h
      simp
    · rw [step_cmdWrite hh, runCommand_of_decode (i := .sysReset) rfl] at h
      cases h
      simp
    · rw [step_cmdWrite hh, runCommand_of_decode (decodeOfEncode (.bsrInit c ord) rfl)] at h
      exact exec_bsrInit_stale h hrc
  · intro s t rest a width v c j k hh h hk ha hj hv
    rw [step_of_host hh] at h
    rw [← bitInByte_eq] at hv
    exact sbit_of_hostMemWrite h hk ha hj hv

end Sys2Proof.Machine
end
